-- ==== Sys2Proof/Word.lean ====
section
/-! DEFINITION. The byte, and the byte sequences ("wire images") every other file speaks of. -/

namespace Sys2Proof

/-- A byte is 8 bits; bit 7 is the most significant (00_scope.md R7). -/
abbrev Byte := BitVec 8

/-- A wire image of `n` bytes: `byte0, byte1, …`, `byte0` first on the bus (R7). -/
abbrev Image (n : Nat) := Vector Byte n

/-- The five image formats (30_encoding.md R80): 6, 6, 20, 9 and 128 bytes. -/
abbrev InitImage := Image 6
abbrev UpdateImage := Image 6
abbrev CorrImage := Image 20
abbrev PhaseImage := Image 9
abbrev CodeImage := Image 128

end Sys2Proof
end

