-- ==== Sys2Proof/Config.lean ====
section
/-! DEFINITION. The parameters of 00_scope.md R6 and the free values the spec leaves to the environment. -/

namespace Sys2Proof

/-- The five register windows of one channel (10_state.md R32 to R36). -/
inductive WindowName where
  | init | update | corr | phase | code
  deriving DecidableEq, Repr

/-- `LEN_INIT`, `LEN_UPDATE`, `LEN_CORR`, `LEN_PHASE`, `LEN_CODE` of R6: the length of a window in bytes. The values are the
source's; that they are named constants and no fields of `Config` is a DESIGN CHOICE (log entry 17), unsafe. -/
def WindowName.len : WindowName → Nat
  | .init => 6
  | .update => 6
  | .corr => 20
  | .phase => 9
  | .code => 128

/-- The transfer a real status read would issue, `(window, length, tx)` of 92_eei_decisions.md section 2. -/
structure StatusAccess where
  address : Nat
  length : Nat
  tx : List Byte
  deriving DecidableEq, Repr

/-- The numeric parameters of R6 that the spec leaves OPEN or settable. The channel count `N` is the length of
`State.channels`; `CODE_TABLE` is `Config.codeTable` below. Held in `State.cfg`, where no step changes it (R11:
"The configuration (rule R6) is not state and never changes during a run"), because `exec` takes nothing else;
see log entry 2. -/
structure Config where
  /-- `BASE_ADDR`, OPEN. -/
  baseAddr : Nat
  /-- `CHANNEL_STRIDE`, OPEN. -/
  channelStride : Nat
  /-- `OFF_INIT`, OPEN. -/
  offInit : Nat
  /-- `OFF_UPDATE`, OPEN. -/
  offUpdate : Nat
  /-- `OFF_CORR`, OPEN. -/
  offCorr : Nat
  /-- `OFF_PHASE`, OPEN. -/
  offPhase : Nat
  /-- `OFF_CODE`, OPEN. -/
  offCode : Nat
  /-- `CODE_PHASE_IN_BITS`, 11 by default, at most 14 (D4). -/
  codePhaseInBits : Nat
  /-- `HOST_W`, 32 by default, at least 24 (D21). -/
  hostW : Nat
  /-- `STATUS_ACCESS`, OPEN, none by default (D16). No rule of the step reads it: R146 models no transfer. -/
  statusAccess : Option StatusAccess
  deriving DecidableEq, Repr

namespace Config

/-- `PHASE_CMD` of R6: the third byte of the PHASE probe. Its meaning is not in the source (N5). The value is the source's;
that it is a named constant and no field of `Config` is a DESIGN CHOICE (log entry 17), unsafe. -/
def phaseCmd : Byte := 0x22

/-- The bounds R6 puts on the two settable widths. -/
abbrev WidthsOk (cfg : Config) : Prop :=
  11 ≤ cfg.codePhaseInBits ∧ cfg.codePhaseInBits ≤ 14 ∧ 24 ≤ cfg.hostW

/-- The layout the reset state carries: the example values of 95_test_vectors.md section 2.5, which that file calls
made up ("THESE ARE NOT HARDWARE VALUES"), with the defaults of R6 for the two widths.
DESIGN CHOICE (log entry 3), unsafe where a claim is read as one about these numbers. -/
def sample : Config where
  baseAddr := 1000
  channelStride := 10
  offInit := 0
  offUpdate := 1
  offCorr := 2
  offPhase := 3
  offCode := 4
  codePhaseInBits := 11
  hostW := 32
  statusAccess := none

/-- `CODE_TABLE` of R6: the packed spreading code of each PRN, uninterpreted (40_write_ops.md R118). -/
opaque codeTable : Nat → CodeImage

/-- The draw `d` of 42_sequencer.md R163, for the `k`-th draw that `State.errDraws` does not script. -/
opaque freeErrBit : Nat → Bool

/-- Byte `i` of the bytes received from a read window that is `undef` (10_state.md R41), for the `k`-th such draw. -/
opaque freeRxByte : Nat → Nat → Byte

end Config

end Sys2Proof
end

