-- ==== Sys2Proof/Syntax.lean ====
section
/-! DEFINITION. The syntax: one constructor of `Instr` per row of spec/opcode_table.json, the result records, and the
frames in which operations and events are presented to the machine. -/

namespace Sys2Proof

/-- `InitParameters` of 10_state.md R21, as integers: the operands "arrive on the command interface as integers"
(30_encoding.md R98), out-of-domain ones included. -/
structure InitParameters where
  prn : Int
  carrierPhase : Int
  codePhase : Int
  deriving DecidableEq, Repr

/-- `UpdateParameters` of R22. -/
structure UpdateParameters where
  carrierFreq : Int
  codePhaseRate : Int
  deriving DecidableEq, Repr

/-- One correlation tap, `{ I, Q }`, each a signed 24-bit value (R23). -/
structure Tap where
  i : Int
  q : Int
  deriving DecidableEq, Repr

/-- `CorrelationResult` of R23: the taps in logical order and the sample count. -/
structure CorrResult where
  sampleCount : Nat
  early : Tap
  prompt : Tap
  late : Tap
  deriving DecidableEq, Repr

/-- `PhaseResult` of R23. -/
structure PhaseResult where
  carrierPhase : Nat
  codePhase : Nat
  deriving DecidableEq, Repr

/-- The instruction set: the six operations and three events of 00_scope.md R2, the two constant transmit images of
the combined transfers (R90; `CORR_DUMMY` of R6) and the two pseudo-operations of R97. `c` is the channel index. -/
inductive Instr where
  | codeLoad (c : Nat) (prn : Int)
  | initWrite (c : Nat) (prn carrierPhase codePhase : Int)
  | updateWrite (c : Nat) (carrierFreq codePhaseRate : Int)
  | corrRead (c : Nat)
  | corrReadTx
  | phaseRead (c : Nat)
  | phaseReadTx
  | statusRead (c : Nat)
  | periodIrq (c : Nat) (corr : CorrImage) (phase : PhaseImage)
  | strobeFall (c : Nat)
  | reset
  | arm (c : Nat) (prn carrierPhase codePhase carrierFreq codePhaseRate : Int)
  | service (c : Nat) (carrierFreq codePhaseRate : Int)
  deriving DecidableEq, Repr

/-- An environment event (R96: "A line that starts with `!` is an environment event, not an operation"). -/
def Instr.isEvent : Instr → Bool
  | .periodIrq _ _ _ => true
  | .strobeFall _ => true
  | .reset => true
  | .codeLoad _ _ => false
  | .initWrite _ _ _ _ => false
  | .updateWrite _ _ _ => false
  | .corrRead _ => false
  | .corrReadTx => false
  | .phaseRead _ => false
  | .phaseReadTx => false
  | .statusRead _ => false
  | .arm _ _ _ _ _ _ => false
  | .service _ _ _ => false

/-- The names by which the command interface and the environment select what happens next (R94, R96). -/
inductive OpName where
  | codeLoad | initWrite | updateWrite | corrRead | corrReadTx | phaseRead | phaseReadTx | statusRead
  | periodIrq | strobeFall | reset | arm | service
  deriving DecidableEq, Repr

/-- Which way the bytes of a wire image go (30_encoding.md R80): `tx` block to engine, `rx` engine to block. -/
inductive Direction where
  | tx | rx
  deriving DecidableEq, Repr

/-- What is presented to the machine before it is decoded.
`named`: an operation or event selected by its name, with its channel, its integer operands and its byte strings in the
order of R96.
`image`: a wire image told apart "by the window it addresses and the direction" (R94), on channel `c`.
`word`: a bare image of `nbits` bits given as its image value (R7), with neither window nor channel: the form in which
spec/opcode_table.json is read (log entry 5). -/
inductive Frame where
  | named (op : OpName) (c : Option Nat) (ints : List Int) (blobs : List (List Byte))
  | image (c : Nat) (w : WindowName) (d : Direction) (bytes : List Byte)
  | word (nbits w : Nat)
  deriving DecidableEq, Repr

/-- One entry of the agenda: a frame is presented, or the caller goes on with the pseudo-operation under way. -/
inductive Turn where
  | issue (f : Frame)
  | resume
  deriving DecidableEq, Repr

/-- Why a frame is no instruction. -/
inductive DecodeError where
  /-- The channel, the operand count or a byte string's length is not that of the named operation (R96). -/
  | badOperands (op : OpName)
  /-- The image has not the window's length (20_memory.md R54, R57). -/
  | badLength (w : WindowName)
  /-- A reserved bit of the image is not 0 (30_encoding.md R83, R86). -/
  | reservedBits (w : WindowName)
  /-- No operation moves this window in this direction (20_memory.md R54). -/
  | noSuchTransfer (w : WindowName) (d : Direction)
  /-- The transmit image of a read is a constant and this is another (R54, R90). -/
  | notTheConstant (w : WindowName)
  /-- The 128 bytes are no entry of `CODE_TABLE` (R91). -/
  | notInCodeTable
  /-- No image format has this many bits, or the value does not fit them (R80). -/
  | noSuchFormat (nbits : Nat)
  deriving DecidableEq, Repr

end Sys2Proof
end

