-- ==== Sys2Proof/Machine/Images.lean ====
section
/-! DEFINITION. Bits, bytes and the pure packers and unpackers: 00_scope.md R7 to R9, 30_encoding.md, 40_write_ops.md R111 to
R123, 41_read_ops.md R140 to R147. -/

namespace Sys2Proof.Machine

/-! ### Integer arithmetic of the formulas (R8) -/

/-- `a << n = a * 2^n`. -/
def shiftLeft (a : Int) (n : Nat) : Int := a * 2 ^ n

/-- `a >> n = floor(a / 2^n)`. -/
def shiftRight (a : Int) (n : Nat) : Int := a / 2 ^ n

/-- `a & m` for a mask `m`: the AND of the two's-complement digits of `a` with those of `m`; `m` has no digit from
position `log2 m + 1` on, so that many digits of `a` decide. -/
def andMask (a : Int) (m : Nat) : Nat := (a % 2 ^ (m.log2 + 1)).toNat &&& m

/-- The byte with a value below 256. -/
def toByte (v : Nat) : Byte := BitVec.ofNat 8 v

/-! ### Image values, fields and extension (R7, R9) -/

/-- The image value: the bytes read as one big-endian number (R7). -/
def imageValue (bytes : List Byte) : Nat := bytes.foldl (fun v b => v * 256 + b.toNat) 0

/-- The `n` bytes of an image value, most significant first (R7). -/
def bytesOfValue (n w : Nat) : List Byte := (List.range n).map fun k => toByte (w / 2 ^ (8 * (n - 1 - k)) % 256)

/-- `v[hi:lo]` (R7). -/
def bits (v hi lo : Nat) : Nat := v / 2 ^ lo % 2 ^ (hi + 1 - lo)

/-- `signed_k(v)` of a `k`-bit pattern (R9). -/
def signed (k v : Nat) : Int := if v < 2 ^ (k - 1) then (v : Int) else (v : Int) - 2 ^ k

/-- `twos_k(x) = x mod 2^k` (R9). -/
def twos (k : Nat) (x : Int) : Nat := (x % 2 ^ k).toNat

/-- `sext_N(v)` of a `k`-bit pattern: the `N`-bit two's-complement pattern of `signed_k(v)` (R9). -/
def sext (n k v : Nat) : BitVec n := BitVec.ofInt n (signed k v)

/-- A list of exactly `n` bytes as an image. -/
def toImage (n : Nat) (bytes : List Byte) : Option (Image n) :=
  if h : bytes.length = n then some ⟨bytes.toArray, by simpa using h⟩ else none

/-! ### The packers -/

/-- `PACK_INIT` (R111): the byte formulas of R81, total on the integers. -/
def packInit (prn carrierPhase codePhase : Int) : InitImage :=
  #v[toByte (andMask (shiftRight (shiftLeft codePhase 5) 16) 0x07),
     toByte (andMask (shiftRight (shiftLeft codePhase 5) 8) 0xFF),
     toByte (andMask (shiftRight (shiftLeft carrierPhase 5) 24) 0x1F ||| andMask (shiftLeft codePhase 5) 0xFF),
     toByte (andMask (shiftRight (shiftLeft carrierPhase 5) 16) 0xFF),
     toByte (andMask (shiftRight (shiftLeft carrierPhase 5) 8) 0xFF),
     toByte (andMask prn 0x1F ||| andMask (shiftLeft carrierPhase 5) 0xE0)]

/-- `PACK_UPDATE` (R114): the byte formulas of R84, total on the integers. -/
def packUpdate (carrierFreq codePhaseRate : Int) : UpdateImage :=
  #v[toByte (andMask (shiftRight codePhaseRate 24) 0x1F),
     toByte (andMask (shiftRight codePhaseRate 16) 0xFF),
     toByte (andMask (shiftRight codePhaseRate 8) 0xFF),
     toByte (andMask codePhaseRate 0xFF),
     toByte (andMask (shiftRight carrierFreq 8) 0xFF),
     toByte (andMask carrierFreq 0xFF)]

/-! ### Their inverses, the source's test oracle -/

/-- `UNPACK_INIT` (R119): `(img[4:0], signed_24(img[28:5]), img[42:29])`. -/
def unpackInit (b : InitImage) : InitParameters where
  prn := bits (imageValue b.toList) 4 0
  carrierPhase := signed 24 (bits (imageValue b.toList) 28 5)
  codePhase := bits (imageValue b.toList) 42 29

/-- `UNPACK_UPDATE` (R120): `(signed_16(img[15:0]), img[44:16])`. -/
def unpackUpdate (b : UpdateImage) : UpdateParameters where
  carrierFreq := signed 16 (bits (imageValue b.toList) 15 0)
  codePhaseRate := bits (imageValue b.toList) 44 16

/-- The reserved bits of INIT, image bits 47:43, are zero (R83). -/
def initReservedZero (b : InitImage) : Bool := b[0].toNat < 8

/-- The reserved bits of UPDATE, image bits 47:45, are zero (R86). -/
def updateReservedZero (b : UpdateImage) : Bool := b[0].toNat < 32

/-! ### The unpackers of the read windows -/

/-- `be24` of R140 on three bytes: the first is the most significant. -/
def be24 (b0 b1 b2 : Byte) : Nat := b0.toNat * 65536 + b1.toNat * 256 + b2.toNat

/-- A tap block: the first three bytes are Q and the last three I (R87, R88). -/
def unpackTap (q0 q1 q2 i0 i1 i2 : Byte) : Tap where
  q := signed 24 (be24 q0 q1 q2)
  i := signed 24 (be24 i0 i1 i2)

/-- `UNPACK_CORR` (R140): taps in logical order, stored in reverse. -/
def unpackCorr (b : CorrImage) : CorrResult where
  sampleCount := b[0].toNat * 256 + b[1].toNat
  late := unpackTap b[2] b[3] b[4] b[5] b[6] b[7]
  prompt := unpackTap b[8] b[9] b[10] b[11] b[12] b[13]
  early := unpackTap b[14] b[15] b[16] b[17] b[18] b[19]

/-- `UNPACK_PHASE` (R143): neither field is sign-extended. -/
def unpackPhase (b : PhaseImage) : PhaseResult where
  carrierPhase := b[8].toNat + b[7].toNat * 256 + b[6].toNat * 65536
  codePhase := b[0].toNat * 2 ^ 40 + b[1].toNat * 2 ^ 32 + b[2].toNat * 2 ^ 24 + b[3].toNat * 2 ^ 16 +
    b[4].toNat * 2 ^ 8 + b[5].toNat

/-- Tap 0 is Early, 1 is Prompt, 2 is Late (R23). -/
def corrTap (r : CorrResult) (t : Fin 3) : Tap :=
  match t with
  | 0 => r.early
  | 1 => r.prompt
  | 2 => r.late

/-! ### Result presentation (R147) -/

/-- An I or Q value on a result port `w` bits wide: its two's-complement pattern. -/
def portPattern (w : Nat) (x : Int) : BitVec w := BitVec.ofInt w x

/-- The six I and Q lanes as the port of width `w` shows them, taps in logical order, I before Q. -/
def portLanes (w : Nat) (r : CorrResult) : List (BitVec w) :=
  [r.early.i, r.early.q, r.prompt.i, r.prompt.q, r.late.i, r.late.q].map (portPattern w)

/-! ### The constant transmit images -/

/-- The PHASE probe (R90): `byte2 = PHASE_CMD`, every other byte 0x00. -/
def phaseProbe : PhaseImage := #v[0, 0, Config.phaseCmd, 0, 0, 0, 0, 0, 0]

/-- `CORR_DUMMY` of R6: twenty bytes 0x00 (D18). The value is the spec's own; that it is a named constant and no field of
`Config` is a DESIGN CHOICE (log entry 17), unsafe. -/
def corrDummy : CorrImage := Vector.replicate 20 0

end Sys2Proof.Machine
end

