-- ==== Sys2Proof/Decode.lean ====
section
/-! DEFINITION. From frames to instructions, and back. -/

namespace Sys2Proof

open Sys2Proof.Machine

/-- An operation or event selected by its name, operands in the order of 30_encoding.md R96. -/
def decodeNamed (op : OpName) (c : Option Nat) (ints : List Int) (blobs : List (List Byte)) :
    Except DecodeError Instr :=
  match op with
  | .codeLoad =>
    match c, ints, blobs with
    | some c, [prn], [] => .ok (.codeLoad c prn)
    | _, _, _ => .error (.badOperands op)
  | .initWrite =>
    match c, ints, blobs with
    | some c, [prn, carrierPhase, codePhase], [] => .ok (.initWrite c prn carrierPhase codePhase)
    | _, _, _ => .error (.badOperands op)
  | .updateWrite =>
    match c, ints, blobs with
    | some c, [carrierFreq, codePhaseRate], [] => .ok (.updateWrite c carrierFreq codePhaseRate)
    | _, _, _ => .error (.badOperands op)
  | .corrRead =>
    match c, ints, blobs with
    | some c, [], [] => .ok (.corrRead c)
    | _, _, _ => .error (.badOperands op)
  | .corrReadTx =>
    match c, ints, blobs with
    | none, [], [] => .ok .corrReadTx
    | _, _, _ => .error (.badOperands op)
  | .phaseRead =>
    match c, ints, blobs with
    | some c, [], [] => .ok (.phaseRead c)
    | _, _, _ => .error (.badOperands op)
  | .phaseReadTx =>
    match c, ints, blobs with
    | none, [], [] => .ok .phaseReadTx
    | _, _, _ => .error (.badOperands op)
  | .statusRead =>
    match c, ints, blobs with
    | some c, [], [] => .ok (.statusRead c)
    | _, _, _ => .error (.badOperands op)
  | .periodIrq =>
    match c, ints, blobs with
    | some c, [], [corr, phase] =>
      match toImage 20 corr, toImage 9 phase with
      | some corr, some phase => .ok (.periodIrq c corr phase)
      | _, _ => .error (.badOperands op)
    | _, _, _ => .error (.badOperands op)
  | .strobeFall =>
    match c, ints, blobs with
    | some c, [], [] => .ok (.strobeFall c)
    | _, _, _ => .error (.badOperands op)
  | .reset =>
    match c, ints, blobs with
    | none, [], [] => .ok .reset
    | _, _, _ => .error (.badOperands op)
  | .arm =>
    match c, ints, blobs with
    | some c, [prn, carrierPhase, codePhase, carrierFreq, codePhaseRate], [] =>
      .ok (.arm c prn carrierPhase codePhase carrierFreq codePhaseRate)
    | _, _, _ => .error (.badOperands op)
  | .service =>
    match c, ints, blobs with
    | some c, [carrierFreq, codePhaseRate], [] => .ok (.service c carrierFreq codePhaseRate)
    | _, _, _ => .error (.badOperands op)

/-- The PRN whose `CODE_TABLE` entry an image is (R91), the smallest if several are equal. -/
def prnOfCode (b : CodeImage) : Option Nat := (List.range 32).find? fun p => Config.codeTable p == b

/-- A wire image on channel `c`, told apart by window and direction (20_memory.md R54, 30_encoding.md R94). The image
received from a read window is a result, so its bytes carry no operand (R98). The constant transmit image of a read window
names no channel (its row of the table has none), so the `c` it is presented on is dropped, also if `c >= N`: nothing happens
and there is no BAD_CHANNEL. DESIGN CHOICE (log entries 5 and 9), unsafe. -/
def decodeImage (c : Nat) (w : WindowName) (d : Direction) (bytes : List Byte) : Except DecodeError Instr :=
  match w, d with
  | .init, .tx =>
    match toImage 6 bytes with
    | none => .error (.badLength w)
    | some b =>
      if initReservedZero b then
        .ok (.initWrite c (unpackInit b).prn (unpackInit b).carrierPhase (unpackInit b).codePhase)
      else .error (.reservedBits w)
  | .update, .tx =>
    match toImage 6 bytes with
    | none => .error (.badLength w)
    | some b =>
      if updateReservedZero b then
        .ok (.updateWrite c (unpackUpdate b).carrierFreq (unpackUpdate b).codePhaseRate)
      else .error (.reservedBits w)
  | .code, .tx =>
    match toImage 128 bytes with
    | none => .error (.badLength w)
    | some b =>
      match prnOfCode b with
      | some prn => .ok (.codeLoad c prn)
      | none => .error .notInCodeTable
  | .corr, .rx => if bytes.length = 20 then .ok (.corrRead c) else .error (.badLength w)
  | .phase, .rx => if bytes.length = 9 then .ok (.phaseRead c) else .error (.badLength w)
  | .corr, .tx => if bytes = corrDummy.toList then .ok .corrReadTx else .error (.notTheConstant w)
  | .phase, .tx => if bytes = phaseProbe.toList then .ok .phaseReadTx else .error (.notTheConstant w)
  | .init, .rx => .error (.noSuchTransfer w d)
  | .update, .rx => .error (.noSuchTransfer w d)
  | .code, .rx => .error (.noSuchTransfer w d)

/-- A bare image of spec/opcode_table.json, `w` its image value. "Nothing in an image selects its length or format"
(R80), so the window is read from what the table fixes: the length, then the fixed bits. A 48-bit image whose bits 47:43
are zero is read as INIT and any other as UPDATE; the all-zero 160-bit image and the probe are read as the constant
transmit images. DESIGN CHOICE, log entry 5. -/
def decodeWord (nbits w : Nat) : Except DecodeError Instr :=
  if 2 ^ nbits ≤ w then .error (.noSuchFormat nbits)
  else if nbits = 48 then
    decodeImage 0 (if w < 2 ^ 43 then .init else .update) .tx (bytesOfValue 6 w)
  else if nbits = 160 then
    decodeImage 0 .corr (if w = 0 then .tx else .rx) (bytesOfValue 20 w)
  else if nbits = 72 then
    decodeImage 0 .phase (if w = imageValue phaseProbe.toList then .tx else .rx) (bytesOfValue 9 w)
  else if nbits = 1024 then
    decodeImage 0 .code .tx (bytesOfValue 128 w)
  else .error (.noSuchFormat nbits)

/-- The decoder: total on frames, rejecting by name. -/
def decode : Frame → Except DecodeError Instr
  | .named op c ints blobs => decodeNamed op c ints blobs
  | .image c w d bytes => decodeImage c w d bytes
  | .word nbits w => decodeWord nbits w

/-- The instruction this decoder reads from the table's word (log entry 5). -/
def decodeTableWord (nbits w : Nat) : Option Instr := (decode (.word nbits w)).toOption

/-- The frame that selects an instruction by its name (R94, R96): for every instruction, out-of-domain operands too. -/
def encodeNamed : Instr → Frame
  | .codeLoad c prn => .named .codeLoad (some c) [prn] []
  | .initWrite c prn carrierPhase codePhase => .named .initWrite (some c) [prn, carrierPhase, codePhase] []
  | .updateWrite c carrierFreq codePhaseRate => .named .updateWrite (some c) [carrierFreq, codePhaseRate] []
  | .corrRead c => .named .corrRead (some c) [] []
  | .corrReadTx => .named .corrReadTx none [] []
  | .phaseRead c => .named .phaseRead (some c) [] []
  | .phaseReadTx => .named .phaseReadTx none [] []
  | .statusRead c => .named .statusRead (some c) [] []
  | .periodIrq c corr phase => .named .periodIrq (some c) [] [corr.toList, phase.toList]
  | .strobeFall c => .named .strobeFall (some c) [] []
  | .reset => .named .reset none [] []
  | .arm c prn carrierPhase codePhase carrierFreq codePhaseRate =>
      .named .arm (some c) [prn, carrierPhase, codePhase, carrierFreq, codePhaseRate] []
  | .service c carrierFreq codePhaseRate => .named .service (some c) [carrierFreq, codePhaseRate] []

/-- The encoder: the wire image of an instruction that has one which gives its operands back (R82, R85, R87, R89, R90),
and the name otherwise. CODE_LOAD goes by name, since two PRNs may have equal code images. A read is presented by its
window with an image of zeros, whose bytes mean nothing on the way in. -/
def encode : Instr → Frame
  | .codeLoad c prn => encodeNamed (.codeLoad c prn)
  | .initWrite c prn carrierPhase codePhase => .image c .init .tx (packInit prn carrierPhase codePhase).toList
  | .updateWrite c carrierFreq codePhaseRate => .image c .update .tx (packUpdate carrierFreq codePhaseRate).toList
  | .corrRead c => .image c .corr .rx (List.replicate 20 0)
  | .corrReadTx => .image 0 .corr .tx corrDummy.toList
  | .phaseRead c => .image c .phase .rx (List.replicate 9 0)
  | .phaseReadTx => .image 0 .phase .tx phaseProbe.toList
  | .statusRead c => encodeNamed (.statusRead c)
  | .periodIrq c corr phase => encodeNamed (.periodIrq c corr phase)
  | .strobeFall c => encodeNamed (.strobeFall c)
  | .reset => encodeNamed .reset
  | .arm c prn carrierPhase codePhase carrierFreq codePhaseRate =>
      encodeNamed (.arm c prn carrierPhase codePhase carrierFreq codePhaseRate)
  | .service c carrierFreq codePhaseRate => encodeNamed (.service c carrierFreq codePhaseRate)

end Sys2Proof
end

