-- ==== Sys2Proof/Machine/State.lean ====
section
/-! DEFINITION. The state: everything 10_state.md gives the machine, the observation state, and the model's own fields
(configuration, caller, agenda, draws). INVENTORY.md section State lists every field with its rule. -/

namespace Sys2Proof.Machine

/-- `SEQ[c].state` (R25). -/
inductive SeqState where
  | idle | armed | tracking
  deriving DecidableEq, Repr

/-- `SEQ[c].arm_step` (R26): 0 none, 1 CODE_LOAD, 2 CODE_LOAD then INIT_WRITE. -/
inductive ArmStep where
  | zero | one | two
  deriving DecidableEq, Repr

/-- The sequencer record `SEQ[c]` (R24 to R28). -/
structure Seq where
  state : SeqState
  armStep : ArmStep
  updDone : Bool
  updUnknown : Bool
  deriving DecidableEq, Repr

/-- Content of a register window of `n` bytes: `undef`, or an image (R41). `undef` is the spec's own state: "A model must
not give `undef` a value". -/
inductive Content (n : Nat) where
  | undef
  | image (b : Image n)
  deriving DecidableEq, Repr

/-- One entry of `LATCH_LOG[c]` (R40). -/
structure LatchEntry where
  state : SeqState
  init : Content 6
  update : Content 6
  updDone : Bool
  deriving DecidableEq, Repr

/-- Everything private to one channel (R20): sequencer record, flags, windows, latch log. -/
structure Channel where
  seq : Seq
  /-- `ERR[c]` (R29). -/
  err : Bool
  /-- `STALE[c]` (R30). -/
  stale : Bool
  /-- `INIT_REG[c]` (R32). -/
  init : Content 6
  /-- `UPDATE_REG[c]` (R33). -/
  update : Content 6
  /-- `CORR_REG[c]` (R34). -/
  corr : Content 20
  /-- `PHASE_REG[c]` (R35). -/
  phase : Content 9
  /-- `CODE_MEM[c]` (R36). -/
  code : Content 128
  /-- `LATCH_LOG[c]` (R40). -/
  latch : List LatchEntry
  deriving DecidableEq, Repr

/-- The outcome of a transfer (20_memory.md R53). -/
inductive XferOutcome where
  | ok | fault | hang
  deriving DecidableEq, Repr

/-- One record of `BUS_LOG` (R39). -/
structure BusRecord where
  address : Nat
  length : Nat
  tx : Option (List Byte)
  rx : Option (List Byte)
  outcome : XferOutcome
  deriving DecidableEq, Repr

/-- What an operation returns with result OK (R23, R201): nothing for the writes, the decoded result for the reads, both
for SERVICE (R97). -/
inductive Value where
  | done
  | corr (r : CorrResult)
  | phase (r : PhaseResult)
  | status (err : Bool)
  | service (corr : CorrResult) (phase : PhaseResult)
  deriving DecidableEq, Repr

/-- The result of an operation: OK with its value, or one of the four other codes of R201. -/
inductive Return where
  | ok (v : Value)
  | transportFault
  | rangeFault
  | seqViolation
  | badChannel
  deriving DecidableEq, Repr

/-- The result port of the command interface (R23, R147): the result of the last operation that returned, empty before
the first and after an operation that will never return. -/
inductive Port where
  | empty
  | returned (r : Return)
  deriving DecidableEq, Repr

/-- Where the caller stands in a pseudo-operation (R97): the part it issues next, with what is still needed. -/
inductive Cont where
  | none
  | armInit (c : Nat) (prn carrierPhase codePhase carrierFreq codePhaseRate : Int)
  | armUpdate (c : Nat) (carrierFreq codePhaseRate : Int)
  | servicePhase (c : Nat) (carrierFreq codePhaseRate : Int) (corr : CorrResult)
  | serviceUpdate (c : Nat) (carrierFreq codePhaseRate : Int) (corr : CorrResult) (phase : PhaseResult)
  deriving DecidableEq, Repr

structure State where
  /-- The parameters of R6; no step changes them. -/
  cfg : Config
  /-- The channels `0 .. N-1`; `N` is the list's length (R20, R45). -/
  channels : List Channel
  /-- `HUNG` (R31). -/
  hung : Bool
  /-- `BUS_LOG` (R39), oldest first. -/
  busLog : List BusRecord
  /-- The result port (R21, R23, R147). -/
  port : Port
  /-- The caller's pseudo-operation under way (R97). -/
  cont : Cont
  /-- What the caller and the environment do next, in order (R11); the model's own field, log entry 1. -/
  agenda : List Turn
  /-- The transport's coming draws (R53), `Ok` when none is scripted (R96); log entry 6. -/
  outcomes : List XferOutcome
  /-- The coming draws `d` of R163; free when none is scripted; log entry 7. -/
  errDraws : List Bool
  /-- How many free values have been drawn; log entry 7. -/
  fresh : Nat
  deriving DecidableEq, Repr

/-- Why the machine stops. -/
inductive Fault where
  /-- Raised by every operation while `HUNG = 1` (R31, R110: "no step at all (the block is stuck)"). Safe: the hardware
  takes no step either. Events are not stopped by it. -/
  | blockHung
  deriving DecidableEq, Repr

/-- Why a step is not taken. -/
inductive Refusal where
  /-- Raised by `exec` for an instruction without a meaning. Safe. -/
  | notModelled (mnemonic : String)
  /-- Raised by `step` when the frame presented is no instruction (R95). Safe: nothing is executed. -/
  | undecodable (e : DecodeError)
  /-- Raised by `step` for a configuration in which two windows share an address: a model "has no behaviour for
  configurations that violate" 20_memory.md R52 (93_implementation_defined.md U16). Safe. -/
  | addressesAlias
  /-- Raised by the events PERIOD_IRQ and STROBE_FALL for `c >= N`: "Events for `c >= N` do not exist" (R206). Safe. -/
  | noSuchChannel
  deriving DecidableEq, Repr

/-- Reset value of the sequencer record (R44). -/
def Seq.reset : Seq where
  state := .idle
  armStep := .zero
  updDone := false
  updUnknown := false

/-- Reset value of a channel (R44). -/
def Channel.reset : Channel where
  seq := Seq.reset
  err := false
  stale := false
  init := .undef
  update := .undef
  corr := .undef
  phase := .undef
  code := .undef
  latch := []

/-- The state after RESET of a block configured with `cfg` and `n` channels (R44): nothing presented, nothing scripted. -/
def State.resetWith (cfg : Config) (n : Nat) : State where
  cfg := cfg
  channels := List.replicate n Channel.reset
  hung := false
  busLog := []
  port := .empty
  cont := .none
  agenda := []
  outcomes := []
  errDraws := []
  fresh := 0

/-- The machine right after reset, with the sample configuration and two channels (log entry 3). -/
def State.reset : State := State.resetWith Config.sample 2

end Sys2Proof.Machine
end

