-- ==== Sys2Proof/Machine/Flags.lean ====
section
/-! DEFINITION. What one channel becomes: the flags `ERR` and `STALE`, the latch log, and the effects of writes and period
boundaries on the channel's windows and sequencer record. -/

namespace Sys2Proof.Machine

/-- `STALE[c]` after a strobe fall (42_sequencer.md R164). -/
def staleAfterStrobe (ch : Channel) : Bool :=
  match ch.seq.state with
  | .idle => ch.stale || ch.seq.armStep != .zero
  | .armed => ch.stale
  | .tracking => ch.stale || !ch.seq.updDone

/-- `LATCH_LOG[c]` after a strobe fall (R164). -/
def latchAfterStrobe (ch : Channel) : List LatchEntry :=
  match ch.seq.state with
  | .idle => ch.latch
  | .armed => ch.latch ++ [{ state := .armed, init := ch.init, update := ch.update, updDone := true }]
  | .tracking => ch.latch ++ [{ state := .tracking, init := ch.init, update := ch.update, updDone := ch.seq.updDone }]

/-- The channel after STROBE_FALL(c) (R164). -/
def Channel.strobed (ch : Channel) : Channel :=
  { ch with stale := staleAfterStrobe ch, latch := latchAfterStrobe ch }

/-- Whether the end of a period takes the draw `d` (R163): no UPDATE succeeded and one faulted. -/
def needsErrDraw (ch : Channel) : Bool := ch.seq.state = .tracking && !ch.seq.updDone && ch.seq.updUnknown

/-- `ERR[c]` after a period boundary in `Tracking` with draw `d` (R163). -/
def errAfterPeriod (ch : Channel) (d : Bool) : Bool :=
  if ch.seq.updDone then ch.err else if ch.seq.updUnknown then ch.err || d else true

/-- A period boundary outside `Idle` replaces both result windows and opens a new period (R163). -/
def Channel.newPeriod (ch : Channel) (corr : CorrImage) (phase : PhaseImage) : Channel :=
  { ch with corr := .image corr, phase := .image phase,
            seq := { ch.seq with state := .tracking, updDone := false, updUnknown := false } }

/-- The channel after PERIOD_IRQ(c, corr, phase) with draw `d` (R163). -/
def Channel.periodEnded (ch : Channel) (corr : CorrImage) (phase : PhaseImage) (d : Bool) : Channel :=
  match ch.seq.state with
  | .idle => ch
  | .armed => ch.newPeriod corr phase
  | .tracking => { ch.newPeriod corr phase with err := errAfterPeriod ch d }

/-- A successful CODE_LOAD (40_write_ops.md R117). -/
def Channel.codeLoaded (ch : Channel) (b : CodeImage) : Channel :=
  { ch with code := .image b, seq := { ch.seq with armStep := .one } }

/-- A CODE_LOAD that faulted or hung (R117, 20_memory.md R60, R61). -/
def Channel.codeLost (ch : Channel) : Channel :=
  { ch with code := .undef, seq := { ch.seq with armStep := .zero } }

/-- A successful INIT_WRITE (R113). -/
def Channel.initWritten (ch : Channel) (b : InitImage) : Channel :=
  { ch with init := .image b, seq := { ch.seq with armStep := .two } }

/-- An INIT_WRITE that faulted or hung (R113, R60, R61). -/
def Channel.initLost (ch : Channel) : Channel :=
  { ch with init := .undef, seq := { ch.seq with armStep := .one } }

/-- A successful UPDATE_WRITE (R116): from `Idle` it arms the channel. -/
def Channel.updateWritten (ch : Channel) (b : UpdateImage) : Channel :=
  { ch with
    update := .image b
    seq :=
      if ch.seq.state = .idle then { state := .armed, armStep := .zero, updDone := true, updUnknown := false }
      else { ch.seq with updDone := true, updUnknown := false } }

/-- An UPDATE_WRITE that faulted or hung (R116, R60, R61). -/
def Channel.updateLost (ch : Channel) : Channel :=
  { ch with update := .undef, seq := { ch.seq with updUnknown := true } }

end Sys2Proof.Machine
end

