-- ==== Sys2Proof/Machine/Operands.lean ====
section
/-! DEFINITION. Operand domains (40_write_ops.md R112, R115, R117), window addresses (20_memory.md R51) and the admission
table (42_sequencer.md R161). -/

namespace Sys2Proof.Machine

/-- `OFF_W` of R6. -/
def offsetOf (cfg : Config) : WindowName → Nat
  | .init => cfg.offInit
  | .update => cfg.offUpdate
  | .corr => cfg.offCorr
  | .phase => cfg.offPhase
  | .code => cfg.offCode

/-- `addr(c, W) = BASE_ADDR + c * CHANNEL_STRIDE + OFF_W` over the natural numbers (R51). -/
def addr (cfg : Config) (c : Nat) (w : WindowName) : Nat := cfg.baseAddr + c * cfg.channelStride + offsetOf cfg w

/-- Every window of every channel `c < n`. -/
def windowsOf (n : Nat) : List (Nat × WindowName) :=
  (List.range n).flatMap fun c => [.init, .update, .corr, .phase, .code].map fun w => (c, w)

/-- The parameters make `addr` injective on the channels `c < n`, as a check (R52): no two windows share an address. -/
def addrsDistinct (cfg : Config) (n : Nat) : Bool := decide ((windowsOf n).map fun p => addr cfg p.1 p.2).Nodup

/-- `InDomain(CODE_LOAD, prn)` (R117). -/
def codeLoadInDomain (prn : Int) : Bool := decide (0 ≤ prn ∧ prn ≤ 31)

/-- `InDomain(INIT_WRITE, ..)` (R112). -/
def initInDomain (cfg : Config) (prn carrierPhase codePhase : Int) : Bool :=
  decide (0 ≤ prn ∧ prn ≤ 31) && decide (-8388608 ≤ carrierPhase ∧ carrierPhase ≤ 8388607) &&
    decide (0 ≤ codePhase ∧ codePhase ≤ 2 ^ cfg.codePhaseInBits - 1)

/-- `InDomain(UPDATE_WRITE, ..)` (R115). -/
def updateInDomain (carrierFreq codePhaseRate : Int) : Bool :=
  decide (-32768 ≤ carrierFreq ∧ carrierFreq ≤ 32767) && decide (0 ≤ codePhaseRate ∧ codePhaseRate ≤ 536870911)

/-- `Permit(CODE_LOAD, SEQ)` (R161, R117). -/
def permitCodeLoad (q : Seq) : Bool := q.state = .idle

/-- `Permit(INIT_WRITE, SEQ)` (R161, R113). -/
def permitInitWrite (q : Seq) : Bool := q.state = .idle && (q.armStep = .one || q.armStep = .two)

/-- `Permit(UPDATE_WRITE, SEQ)` (R161, R116). -/
def permitUpdateWrite (q : Seq) : Bool :=
  (q.state = .idle && q.armStep = .two) || (q.state = .tracking && !q.updDone)

/-- `Permit(CORR_READ, SEQ)` (R161, R142). -/
def permitCorrRead (q : Seq) : Bool := q.state = .tracking

/-- `Permit(PHASE_READ, SEQ)` (R161, R144). -/
def permitPhaseRead (q : Seq) : Bool := q.state = .tracking

/-- `Permit(STATUS_READ, SEQ)` (R161, R146). -/
def permitStatusRead (_q : Seq) : Bool := true

/-- The numbers of the result codes (60_exceptions.md R201). -/
def returnCode : Return → Nat
  | .ok _ => 0
  | .transportFault => 1
  | .rangeFault => 2
  | .seqViolation => 3
  | .badChannel => 4

end Sys2Proof.Machine
end

