-- ==== Sys2Proof/Machine/Ops.lean ====
section
/-! DEFINITION. The named operations over the state: channels, the result port, draws, the bus log, and the step template of
40_write_ops.md R110 with its two shapes, a write transfer and a combined transfer. -/

namespace Sys2Proof.Machine

/-- The channel count `N` (10_state.md R45). -/
abbrev State.N (s : State) : Nat := s.channels.length

/-- The per-channel state of channel `c` (R20). -/
def State.chan (s : State) (c : Nat) : Channel := s.channels.getD c Channel.reset

/-- Replaces the per-channel state of channel `c < N`. -/
def State.setChan (s : State) (c : Nat) (ch : Channel) : State := { s with channels := s.channels.set c ch }

/-- An operation returns `r` on the result port. This is the whole of fault delivery (60_exceptions.md R210): nothing is
saved and control goes nowhere. -/
def State.answer (s : State) (r : Return) : State := { s with port := .returned r }

/-- A transfer that never completes (20_memory.md R61): the block is stuck and the operation never returns. -/
def State.hangUp (s : State) : State := { s with hung := true, port := .empty }

/-- The transport's draw for the transfer at hand (R53). -/
def State.nextOutcome (s : State) : XferOutcome := s.outcomes.headD .ok

/-- A transfer is attempted: its draw is used up and its record appended to `BUS_LOG` (20_memory.md R71). -/
def State.logTransfer (s : State) (r : BusRecord) : State :=
  { s with outcomes := s.outcomes.tail, busLog := s.busLog ++ [r] }

/-- What the far side does with bytes sent to a read window: nothing. They "are not stored anywhere on the far side and
change no modelled state" (20_memory.md R59). -/
def State.sentToReadWindow (s : State) (_w : WindowName) (_bytes : List Byte) : State := s

/-- The bytes a read window gives, and whether they were a free draw because the window is `undef` (R59, 10_state.md
R41). -/
def receivedBytes {n : Nat} (s : State) : Content n → Image n
  | .image b => b
  | .undef => Vector.ofFn fun i => Config.freeRxByte s.fresh i.val

/-- A free draw of received bytes is used up. -/
def State.useRxDraw {n : Nat} (s : State) : Content n → State
  | .image _ => s
  | .undef => { s with fresh := s.fresh + 1 }

/-- The draw `d` of 42_sequencer.md R163: the scripted one, or a free value. -/
def State.errDraw (s : State) : Bool :=
  match s.errDraws with
  | d :: _ => d
  | [] => Config.freeErrBit s.fresh

/-- The draw `d` is used up. -/
def State.useErrDraw (s : State) : State :=
  match s.errDraws with
  | _ :: ds => { s with errDraws := ds }
  | [] => { s with fresh := s.fresh + 1 }

/-- What the checks before the transfer decide (R110). -/
inductive Admission where
  | stuck
  | refuse (r : Return)
  | admitted
  deriving DecidableEq, Repr

/-- The checks of R110 in the order of 60_exceptions.md R207: `HUNG`, BAD_CHANNEL, SEQ_VIOLATION, RANGE_FAULT. -/
def admission (permit : Seq → Bool) (inDomain : Bool) (c : Nat) (s : State) : Admission :=
  if s.hung then .stuck
  else if s.N ≤ c then .refuse .badChannel
  else if permit (s.chan c).seq = false then .refuse .seqViolation
  else if inDomain = false then .refuse .rangeFault
  else .admitted

/-- An operation that writes window `w` of channel `c` (R110): `onOk` is what success makes of the channel, `onLoss` what a
faulting or hanging transfer does. -/
def writeOp (permit : Seq → Bool) (inDomain : Bool) (c : Nat) (w : WindowName) (tx : List Byte)
    (onOk onLoss : Channel → Channel) (s : State) : Host.Outcome State Fault Refusal :=
  match admission permit inDomain c s with
  | .stuck => .fault .blockHung
  | .refuse r => .next (s.answer r)
  | .admitted =>
    let record : BusRecord :=
      { address := addr s.cfg c w, length := w.len, tx := some tx, rx := none, outcome := s.nextOutcome }
    let s' := s.logTransfer record
    match s.nextOutcome with
    | .ok => .next ((s'.setChan c (onOk (s.chan c))).answer (.ok .done))
    | .fault => .next ((s'.setChan c (onLoss (s.chan c))).answer .transportFault)
    | .hang => .next (s'.setChan c (onLoss (s.chan c))).hangUp

/-- An operation that reads window `w` of channel `c` by a combined transfer (R110, R59): `tx` goes out, the window's image
comes in and is decoded; the window keeps its content. -/
def readOp {n : Nat} (permit : Seq → Bool) (c : Nat) (w : WindowName) (tx : List Byte)
    (window : Channel → Content n) (unpack : Image n → Value) (s : State) : Host.Outcome State Fault Refusal :=
  match admission permit true c s with
  | .stuck => .fault .blockHung
  | .refuse r => .next (s.answer r)
  | .admitted =>
    let rx := receivedBytes s (window (s.chan c))
    let record : BusRecord :=
      { address := addr s.cfg c w, length := w.len, tx := some tx,
        rx := if s.nextOutcome = .ok then some rx.toList else none, outcome := s.nextOutcome }
    let s' := (s.sentToReadWindow w tx).logTransfer record
    match s.nextOutcome with
    | .ok => .next ((s'.useRxDraw (window (s.chan c))).answer (.ok (unpack rx)))
    | .fault => .next (s'.answer .transportFault)
    | .hang => .next s'.hangUp

/-- The transmit half of a combined transfer on its own: a row of the opcode table, never issued alone (R54). A stuck block
sends nothing. -/
def transmitOnly (w : WindowName) (tx : List Byte) (s : State) : Host.Outcome State Fault Refusal :=
  if s.hung then .fault .blockHung else .next (s.sentToReadWindow w tx)

end Sys2Proof.Machine
end

