-- ==== Sys2Proof/Machine/Events.lean ====
section
/-! DEFINITION. The events PERIOD_IRQ, STROBE_FALL (42_sequencer.md) and RESET (70_reset_and_hazards.md). None has a result,
none can be refused for a channel that exists, none is blocked by `HUNG`. -/

namespace Sys2Proof.Machine

/-- PERIOD_IRQ(c, corr, phase) (R163). -/
def execPeriodIrq (c : Nat) (corr : CorrImage) (phase : PhaseImage) (s : State) : Host.Outcome State Fault Refusal :=
  if s.N ≤ c then .refused .noSuchChannel
  else
    let s' := if needsErrDraw (s.chan c) then s.useErrDraw else s
    .next (s'.setChan c ((s.chan c).periodEnded corr phase s.errDraw))

/-- STROBE_FALL(c) (R164). -/
def execStrobeFall (c : Nat) (s : State) : Host.Outcome State Fault Refusal :=
  if s.N ≤ c then .refused .noSuchChannel
  else .next (s.setChan c (s.chan c).strobed)

/-- RESET (R230): the block and the engine together. The configuration, the caller and the environment are not reset. -/
def execReset (s : State) : Host.Outcome State Fault Refusal :=
  .next { s with channels := s.channels.map fun _ => Channel.reset, hung := false, busLog := [] }

end Sys2Proof.Machine
end

