-- ==== Sys2Proof/Machine/ReadOps.lean ====
section
/-! DEFINITION. The read operations CORR_READ, PHASE_READ and STATUS_READ and the two constant transmit images
(41_read_ops.md). -/

namespace Sys2Proof.Machine

/-- CORR_READ `c` (R142). -/
def execCorrRead (c : Nat) (s : State) : Host.Outcome State Fault Refusal :=
  readOp permitCorrRead c .corr corrDummy.toList Channel.corr (fun b => .corr (unpackCorr b)) s

/-- CORR_READ.tx: the dummy bytes of the combined transfer (R142, R59). -/
def execCorrReadTx (s : State) : Host.Outcome State Fault Refusal := transmitOnly .corr corrDummy.toList s

/-- PHASE_READ `c` (R144). -/
def execPhaseRead (c : Nat) (s : State) : Host.Outcome State Fault Refusal :=
  readOp permitPhaseRead c .phase phaseProbe.toList Channel.phase (fun b => .phase (unpackPhase b)) s

/-- PHASE_READ.tx: the probe of the combined transfer (R144, R90, R59). -/
def execPhaseReadTx (s : State) : Host.Outcome State Fault Refusal := transmitOnly .phase phaseProbe.toList s

/-- STATUS_READ `c` (R146): `err = ERR[c]`, no transfer. -/
def execStatusRead (c : Nat) (s : State) : Host.Outcome State Fault Refusal :=
  match admission permitStatusRead true c s with
  | .stuck => .fault .blockHung
  | .refuse r => .next (s.answer r)
  | .admitted => .next (s.answer (.ok (.status (s.chan c).err)))

end Sys2Proof.Machine
end

