-- ==== Sys2Proof/Machine/WriteOps.lean ====
section
/-! DEFINITION. The write operations CODE_LOAD, INIT_WRITE and UPDATE_WRITE (40_write_ops.md). -/

namespace Sys2Proof.Machine

/-- CODE_LOAD `c, prn` (R117). -/
def execCodeLoad (c : Nat) (prn : Int) (s : State) : Host.Outcome State Fault Refusal :=
  writeOp permitCodeLoad (codeLoadInDomain prn) c .code (Config.codeTable prn.toNat).toList
    (fun ch => ch.codeLoaded (Config.codeTable prn.toNat)) Channel.codeLost s

/-- INIT_WRITE `c, prn, carrierPhase, codePhase` (R113). -/
def execInitWrite (c : Nat) (prn carrierPhase codePhase : Int) (s : State) : Host.Outcome State Fault Refusal :=
  writeOp permitInitWrite (initInDomain s.cfg prn carrierPhase codePhase) c .init
    (packInit prn carrierPhase codePhase).toList
    (fun ch => ch.initWritten (packInit prn carrierPhase codePhase)) Channel.initLost s

/-- UPDATE_WRITE `c, carrierFreq, codePhaseRate` (R116). -/
def execUpdateWrite (c : Nat) (carrierFreq codePhaseRate : Int) (s : State) : Host.Outcome State Fault Refusal :=
  writeOp permitUpdateWrite (updateInDomain carrierFreq codePhaseRate) c .update
    (packUpdate carrierFreq codePhaseRate).toList
    (fun ch => ch.updateWritten (packUpdate carrierFreq codePhaseRate)) Channel.updateLost s

end Sys2Proof.Machine
end

