-- ==== Sys2Proof/Machine/PseudoOps.lean ====
section
/-! DEFINITION. The pseudo-operations ARM and SERVICE (30_encoding.md R97): sequences of operations, not atomic. The first
part is one step; the others are steps of their own, taken by `resumePart`, and events may come between. -/

namespace Sys2Proof.Machine

/-- A part has run: if it returned OK with `v`, go on with `k v`; otherwise the pseudo-operation is over with what the port
shows ("stops at the first operation whose result is not OK, returning that result"). -/
def afterPart (o : Host.Outcome State Fault Refusal) (k : Value → State → State) :
    Host.Outcome State Fault Refusal :=
  match o with
  | .next t =>
    match t.port with
    | .returned (.ok v) => .next (k v t)
    | _ => .next { t with cont := .none }
  | .fault f => .fault f
  | .refused r => .refused r

/-- The pseudo-operation goes on at `k` in a later step. -/
def State.continueAt (s : State) (k : Cont) : State := { s with cont := k }

/-- The last part returned OK: the pseudo-operation returns `r`. -/
def State.finish (s : State) (r : Return) : State := { s with cont := .none, port := .returned r }

/-- After SERVICE's CORR_READ: keep its result and go on with PHASE_READ. -/
def State.keepCorr (s : State) (c : Nat) (carrierFreq codePhaseRate : Int) : Value → State
  | .corr r => s.continueAt (.servicePhase c carrierFreq codePhaseRate r)
  | _ => s.continueAt .none

/-- After SERVICE's PHASE_READ: keep both results and go on with UPDATE_WRITE. -/
def State.keepPhase (s : State) (c : Nat) (carrierFreq codePhaseRate : Int) (corr : CorrResult) : Value → State
  | .phase r => s.continueAt (.serviceUpdate c carrierFreq codePhaseRate corr r)
  | _ => s.continueAt .none

/-- ARM: its first part, CODE_LOAD. -/
def execArm (c : Nat) (prn carrierPhase codePhase carrierFreq codePhaseRate : Int) (s : State) :
    Host.Outcome State Fault Refusal :=
  afterPart (execCodeLoad c prn s) fun _ t =>
    t.continueAt (.armInit c prn carrierPhase codePhase carrierFreq codePhaseRate)

/-- SERVICE: its first part, CORR_READ. -/
def execService (c : Nat) (carrierFreq codePhaseRate : Int) (s : State) : Host.Outcome State Fault Refusal :=
  afterPart (execCorrRead c s) fun v t => t.keepCorr c carrierFreq codePhaseRate v

/-- The next part of the pseudo-operation under way; nothing to do if there is none. -/
def resumePart (s : State) : Host.Outcome State Fault Refusal :=
  match s.cont with
  | .none => .next s
  | .armInit c prn carrierPhase codePhase carrierFreq codePhaseRate =>
    afterPart (execInitWrite c prn carrierPhase codePhase s) fun _ t =>
      t.continueAt (.armUpdate c carrierFreq codePhaseRate)
  | .armUpdate c carrierFreq codePhaseRate =>
    afterPart (execUpdateWrite c carrierFreq codePhaseRate s) fun _ t => t.finish (.ok .done)
  | .servicePhase c carrierFreq codePhaseRate corr =>
    afterPart (execPhaseRead c s) fun v t => t.keepPhase c carrierFreq codePhaseRate corr v
  | .serviceUpdate c carrierFreq codePhaseRate corr phase =>
    afterPart (execUpdateWrite c carrierFreq codePhaseRate s) fun _ t => t.finish (.ok (.service corr phase))

end Sys2Proof.Machine
end

