-- ==== Sys2Proof/Machine/Dispatch.lean ====
section
/-! DEFINITION. One arm per instruction. -/

namespace Sys2Proof.Machine

def exec (i : Instr) (s : State) : Host.Outcome State Fault Refusal :=
  match i with
  | .codeLoad c prn => Sys2Proof.Machine.execCodeLoad c prn s
  | .initWrite c prn carrierPhase codePhase => Sys2Proof.Machine.execInitWrite c prn carrierPhase codePhase s
  | .updateWrite c carrierFreq codePhaseRate => Sys2Proof.Machine.execUpdateWrite c carrierFreq codePhaseRate s
  | .corrRead c => Sys2Proof.Machine.execCorrRead c s
  | .corrReadTx => Sys2Proof.Machine.execCorrReadTx s
  | .phaseRead c => Sys2Proof.Machine.execPhaseRead c s
  | .phaseReadTx => Sys2Proof.Machine.execPhaseReadTx s
  | .statusRead c => Sys2Proof.Machine.execStatusRead c s
  | .periodIrq c corr phase => Sys2Proof.Machine.execPeriodIrq c corr phase s
  | .strobeFall c => Sys2Proof.Machine.execStrobeFall c s
  | .reset => Sys2Proof.Machine.execReset s
  | .arm c prn cp ph cf cr => Sys2Proof.Machine.execArm c prn cp ph cf cr s
  | .service c cf cr => Sys2Proof.Machine.execService c cf cr s

end Sys2Proof.Machine
end

