-- ==== Sys2Proof/Machine/Fetch.lean ====
section
/-! DEFINITION. What happens next: the head of the agenda (00_scope.md R11; log entries 1 and 4). -/

namespace Sys2Proof.Machine

/-- No pseudo-operation is under way. -/
def Cont.isNone : Cont → Bool
  | .none => true
  | .armInit _ _ _ _ _ _ => false
  | .armUpdate _ _ _ => false
  | .servicePhase _ _ _ _ => false
  | .serviceUpdate _ _ _ _ _ => false

/-- One turn. An event at the head of the agenda happens. An operation at the head is issued, unless the caller still has
parts of a pseudo-operation to issue: it is single-threaded, so it goes on with those first and the operation stays where it
is. With nothing on the agenda the caller goes on, or nothing happens. -/
def runTurn (s : State) : Host.Outcome State Fault Refusal :=
  match s.agenda with
  | [] => resumePart s
  | .resume :: rest => resumePart { s with agenda := rest }
  | .issue f :: rest =>
    match decode f with
    | .error e => .refused (.undecodable e)
    | .ok i => if i.isEvent || s.cont.isNone then exec i { s with agenda := rest } else resumePart s

/-- One step: a turn, in a configuration that 20_memory.md R52 admits. In any other the block has no behaviour. -/
def takeTurn (s : State) : Host.Outcome State Fault Refusal :=
  if addrsDistinct s.cfg s.N then runTurn s else .refused .addressesAlias

/-- The instruction of the table's word is presented next, to a caller that is free to issue it. -/
def State.presentWord (s : State) (nbits w : Nat) : State :=
  { s with agenda := .issue (.word nbits w) :: s.agenda, cont := .none }

end Sys2Proof.Machine
end

