-- ==== Sys2Proof/Safety.lean ====
section
/-! DEFINITION. What claims speak of: premises on the configuration and the environment, the invariants of a channel and of
the bus log, runs, and the deadlines a caller has to meet. -/

namespace Sys2Proof

/-! ### Instructions and channels -/

/-- The instruction is PERIOD_IRQ of channel `c`. -/
def Instr.isPeriodOf (c : Nat) : Instr → Bool
  | .periodIrq c' _ _ => c' = c
  | _ => false

/-- The instruction is STROBE_FALL of channel `c`. -/
def Instr.isStrobeOf (c : Nat) : Instr → Bool
  | .strobeFall c' => c' = c
  | _ => false

/-- The channel an operation or event works on; none for RESET and the constant transmit images. -/
def Instr.channel : Instr → Option Nat
  | .codeLoad c _ => some c
  | .initWrite c _ _ _ => some c
  | .updateWrite c _ _ => some c
  | .corrRead c => some c
  | .corrReadTx => none
  | .phaseRead c => some c
  | .phaseReadTx => none
  | .statusRead c => some c
  | .periodIrq c _ _ => some c
  | .strobeFall c => some c
  | .reset => none
  | .arm c _ _ _ _ _ => some c
  | .service c _ _ => some c

/-- The strobe deadline of channel `c` is met at this step (42_sequencer.md R165): no strobe falls while arming is half done
or a period's UPDATE is missing. -/
def Instr.strobeOnTime (c : Nat) (i : Instr) (s : Machine.State) : Bool :=
  if i.isStrobeOf c then
    match (s.chan c).seq.state with
    | .idle => (s.chan c).seq.armStep = Machine.ArmStep.zero
    | .armed => true
    | .tracking => (s.chan c).seq.updDone
  else true

/-- The interrupt deadline of channel `c` is met at this step (R163, R165): no period ends in `Tracking` without its UPDATE. -/
def Instr.periodOnTime (c : Nat) (i : Instr) (s : Machine.State) : Bool :=
  if i.isPeriodOf c then (s.chan c).seq.state != Machine.SeqState.tracking || (s.chan c).seq.updDone else true

/-- Both deadlines of channel `c` are met at this step. -/
def Instr.onTime (c : Nat) (i : Instr) (s : Machine.State) : Bool := i.strobeOnTime c s && i.periodOnTime c s

/-- The instruction issues CODE_LOAD on channel `c`; ARM does, since its meaning is its first part (log entry 4). -/
def Instr.isLoadOf (c : Nat) : Instr → Bool
  | .codeLoad c' _ => c' = c
  | .arm c' _ _ _ _ _ => c' = c
  | _ => false

/-- The instruction issues UPDATE_WRITE on channel `c`. -/
def Instr.isUpdateOf (c : Nat) : Instr → Bool
  | .updateWrite c' _ _ => c' = c
  | _ => false

/-- The event that a turn of the agenda is, if it is one. -/
def Turn.event : Turn → Option Instr
  | .resume => none
  | .issue f =>
    match decode f with
    | .ok i => if i.isEvent then some i else none
    | .error _ => none

end Sys2Proof

namespace Sys2Proof.Machine

/-! ### The configuration -/

/-- `addr` is injective on the channels `c < n` (20_memory.md R52); `addrsDistinct` is the check of it that a step makes. -/
def AddrInjective (cfg : Config) (n : Nat) : Prop :=
  ∀ c c' w w', c < n → c' < n → addr cfg c w = addr cfg c' w' → c = c' ∧ w = w'

/-- A status read, if the platform has one, has an address of its own (92_eei_decisions.md section 2). -/
def StatusAccessApart (cfg : Config) (n : Nat) : Prop :=
  ∀ a, cfg.statusAccess = some a → ∀ c w, c < n → a.address ≠ addr cfg c w

/-! ### A channel -/

/-- The window holds an image. -/
def Content.defined {n : Nat} : Content n → Bool
  | .undef => false
  | .image _ => true

/-- A latch entry is one the rules can produce (10_state.md R40, 42_sequencer.md R164): never from `Idle`; `INIT` is
defined; an entry taken with the period's UPDATE done, every `Armed` one among them, has a defined UPDATE. -/
structure LatchEntry.Ok (e : LatchEntry) : Prop where
  not_idle : e.state ≠ .idle
  init_defined : e.init.defined = true
  armed_done : e.state = .armed → e.updDone = true
  done_defined : e.updDone = true → e.update.defined = true

/-- What holds of a channel in every state a run reaches (R25 to R28, R32, R33, R41, R123). -/
structure Channel.Inv (ch : Channel) : Prop where
  /-- R27: "In `Idle` it is always 0". -/
  idle_not_done : ch.seq.state = .idle → ch.seq.updDone = false
  /-- R26: in `Idle`, `arm_step >= 1` implies `CODE_MEM` is not `undef`. -/
  idle_code : ch.seq.state = .idle → ch.seq.armStep ≠ .zero → ch.code.defined = true
  /-- R26: in `Idle`, `arm_step = 2` implies `INIT_REG` is not `undef`. -/
  idle_init : ch.seq.state = .idle → ch.seq.armStep = .two → ch.init.defined = true
  /-- R26: `arm_step` is 0 once the channel is started. -/
  started_step : ch.seq.state ≠ .idle → ch.seq.armStep = .zero
  /-- R162: a channel is armed only over defined windows, and nothing rewrites CODE and INIT afterwards. -/
  started_code : ch.seq.state ≠ .idle → ch.code.defined = true
  started_init : ch.seq.state ≠ .idle → ch.init.defined = true
  /-- R27: "In `Armed` it is always 1". -/
  armed_done : ch.seq.state = .armed → ch.seq.updDone = true
  /-- R27, R28: after a success the UPDATE window is known. -/
  done_known : ch.seq.updDone = true → ch.seq.updUnknown = false
  done_update : ch.seq.updDone = true → ch.update.defined = true
  /-- R41: the result windows are written exactly on the way into `Tracking` and later. -/
  tracking_corr : ch.corr.defined = decide (ch.seq.state = .tracking)
  tracking_phase : ch.phase.defined = decide (ch.seq.state = .tracking)
  /-- R163: `ERR` is set only in `Tracking`, which only RESET leaves. -/
  err_tracking : ch.err = true → ch.seq.state = .tracking
  /-- R32, R123: the reserved bits of INIT are zero. -/
  init_reserved : ∀ b, ch.init = .image b → initReservedZero b = true
  /-- R33, R123: the reserved bits of UPDATE are zero. -/
  update_reserved : ∀ b, ch.update = .image b → updateReservedZero b = true
  /-- R164: nothing is latched in `Idle`. -/
  idle_latch : ch.seq.state = .idle → ch.latch = []
  latch_ok : ∀ e, e ∈ ch.latch → e.Ok

/-- Every channel is as it should be. -/
def State.SeqInv (s : State) : Prop := ∀ ch, ch ∈ s.channels → ch.Inv

/-! ### The bus -/

/-- What a record's transmit and receive buffers are for each window (20_memory.md R54, R71): reserved bits of the write
images zero, the constants of the reads, bytes received exactly on `Ok`. -/
def BusRecord.BuffersOk (r : BusRecord) : WindowName → Prop
  | .init => r.rx = none ∧ ∃ b : InitImage, r.tx = some b.toList ∧ initReservedZero b = true
  | .update => r.rx = none ∧ ∃ b : UpdateImage, r.tx = some b.toList ∧ updateReservedZero b = true
  | .code => r.rx = none ∧ ∃ prn : Nat, prn < 32 ∧ r.tx = some (Config.codeTable prn).toList
  | .corr => r.tx = some corrDummy.toList ∧
      (if r.outcome = .ok then ∃ b : CorrImage, r.rx = some b.toList else r.rx = none)
  | .phase => r.tx = some phaseProbe.toList ∧
      (if r.outcome = .ok then ∃ b : PhaseImage, r.rx = some b.toList else r.rx = none)

/-- The record is one of the five transfers of R54, of a window of an existing channel. -/
def BusRecord.Legal (cfg : Config) (n : Nat) (r : BusRecord) : Prop :=
  ∃ c w, c < n ∧ r.address = addr cfg c w ∧ r.length = w.len ∧ r.BuffersOk w

/-- Every record is legal, and the block is stuck exactly when its last transfer hung (R31, R61). -/
structure State.BusInv (s : State) : Prop where
  legal : ∀ r, r ∈ s.busLog → r.Legal s.cfg s.N
  hung_iff : s.hung = true ↔ ∃ r, s.busLog.getLast? = some r ∧ r.outcome = .hang
  only_last : ∀ r, r ∈ s.busLog.dropLast → r.outcome ≠ .hang

/-! ### Runs (70_reset_and_hazards.md R244) -/

/-- The steps of a run, operations and events in their order. -/
def runInstrs : List Instr → State → Host.Outcome State Fault Refusal
  | [], s => .next s
  | i :: is, s =>
    match exec i s with
    | .next t => runInstrs is t
    | .fault f => .fault f
    | .refused r => .refused r

/-- The state is a final state (R244): "provided `HUNG = 0` there". -/
def State.isFinal (s : State) : Bool := !s.hung

/-- `p` holds at every step of the run. -/
def everyStep (p : Instr → State → Bool) : List Instr → State → Bool
  | [], _ => true
  | i :: is, s =>
    p i s &&
      match exec i s with
      | .next t => everyStep p is t
      | .fault _ => true
      | .refused _ => true

/-- Every step of the run meets both deadlines of channel `c`. -/
def onTimeRun (c : Nat) : List Instr → State → Bool := everyStep (Instr.onTime c)

/-- No period of channel `c` ends in `Tracking` without its UPDATE. -/
def periodsOnTimeRun (c : Nat) : List Instr → State → Bool := everyStep (Instr.periodOnTime c)

/-! ### Contract-compliant runs (42_sequencer.md R171) -/

/-- What clauses (a) and (b) make one remember of a channel while a run goes on. -/
structure Watch where
  /-- A CODE_LOAD has begun arming and no UPDATE_WRITE has ended it. -/
  arming : Bool
  /-- A period has ended and no UPDATE_WRITE has succeeded since. -/
  owes : Bool
  deriving DecidableEq, Repr

/-- What there is to remember where a run starts; nothing at reset. -/
def Watch.start (ch : Channel) : Watch where
  arming := ch.seq.state = .idle && ch.seq.armStep != .zero
  owes := ch.seq.state = .tracking && !ch.seq.updDone

/-- The operation returned OK. -/
def State.returnedOk (t : State) : Bool :=
  match t.port with
  | .returned (.ok _) => true
  | _ => false

/-- What there is to remember after `i`, which led to `t`; a RESET makes a new start. -/
def Watch.next (w : Watch) (c : Nat) (i : Instr) (t : State) : Watch :=
  if i = .reset then { arming := false, owes := false }
  else if i.isPeriodOf c then { w with owes := true }
  else if i.isLoadOf c && t.returnedOk then { w with arming := true }
  else if i.isUpdateOf c && t.returnedOk then { arming := false, owes := false }
  else w

/-- `i`, from `s` to `t`, attempted a transfer addressed to channel `c` that faulted or hung. -/
def transferLost (c : Nat) (i : Instr) (s t : State) : Bool :=
  i.channel = some c && (t.busLog.drop s.busLog.length).any fun r => r.outcome != .ok

/-- Clauses (a) to (c) of R171 from here on, with `w` remembered: no STROBE_FALL(c) while arming or while an UPDATE is owed,
no transfer of channel `c` lost. -/
def watchedRun (c : Nat) : Watch → List Instr → State → Bool
  | _, [], _ => true
  | w, i :: is, s =>
    match exec i s with
    | .next t =>
      !(i.isStrobeOf c && (w.arming || w.owes)) && !transferLost c i s t && watchedRun c (w.next c i t) is t
    | .fault _ => true
    | .refused _ => true

/-- R171: the run is contract-compliant for channel `c`, clauses (a) to (c). -/
def compliantRun (c : Nat) (is : List Instr) (s : State) : Bool := watchedRun c (.start (s.chan c)) is s

/-- R171: the latch entry "has `upd_done = 1` and defined INIT and UPDATE images". -/
structure LatchEntry.Complete (e : LatchEntry) : Prop where
  upd_done : e.updDone = true
  init_defined : e.init.defined = true
  update_defined : e.update.defined = true

/-- E-ALT (R167), an optional premise, along a run: "from the moment it is `Armed`, the events of that channel alternate",
`strobe` if a STROBE_FALL is next. -/
def altFrom (c : Nat) : Bool → List Instr → State → Bool
  | _, [], _ => true
  | strobe, i :: is, s =>
    let idle : Bool := (s.chan c).seq.state = .idle
    (idle || (i.isStrobeOf c → strobe) && (i.isPeriodOf c → !strobe)) &&
      match exec i s with
      | .next t => altFrom c (idle || (!i.isStrobeOf c && (strobe || i.isPeriodOf c))) is t
      | .fault _ => true
      | .refused _ => true

/-- E-ALT holds for channel `c` along the run, "starting with STROBE_FALL(c)". -/
def altRun (c : Nat) : List Instr → State → Bool := altFrom c true

/-- E-ALT (42_sequencer.md R167), an optional premise, for a list of instructions on a started channel: the events of channel `c` alternate, beginning with STROBE_FALL if
`strobe` and with PERIOD_IRQ otherwise. -/
def alternates (c : Nat) : Bool → List Instr → Bool
  | _, [] => true
  | strobe, i :: is =>
    if i.isStrobeOf c then strobe && alternates c false is
    else if i.isPeriodOf c then !strobe && alternates c true is
    else alternates c strobe is

/-- H-ZERO (R168), an optional premise: bytes 0 to 5 of the PHASE draw are zero. -/
def HZero (phase : PhaseImage) : Prop :=
  phase[0] = 0 ∧ phase[1] = 0 ∧ phase[2] = 0 ∧ phase[3] = 0 ∧ phase[4] = 0 ∧ phase[5] = 0

end Sys2Proof.Machine
end

