-- ==== Sys2Proof/WellFormed.lean ====
section
/-! DEFINITION. Which instructions have operands that their wire fields can hold: the domain in which the round trip of
40_write_ops.md R121 holds. An instruction that fails the check can still be issued; it then meets `RANGE_FAULT` (R204).
-/

namespace Sys2Proof

/-- `0 <= prn <= 31` (R112, R117). -/
def prnFits (prn : Int) : Bool := decide (0 ≤ prn ∧ prn ≤ 31)

/-- The 24-bit two's-complement field CARR_PHASE (R112). -/
def carrierPhaseFits (x : Int) : Bool := decide (-2 ^ 23 ≤ x ∧ x ≤ 2 ^ 23 - 1)

/-- The 14-bit unsigned field CODE_PHASE, the widest `CODE_PHASE_IN_BITS` allows (R112). -/
def codePhaseFits (x : Int) : Bool := decide (0 ≤ x ∧ x ≤ 2 ^ 14 - 1)

/-- The 16-bit two's-complement field CARR_FREQ (R115). -/
def carrierFreqFits (x : Int) : Bool := decide (-2 ^ 15 ≤ x ∧ x ≤ 2 ^ 15 - 1)

/-- The 29-bit unsigned field CODE_PHASE_RATE (R115). -/
def codePhaseRateFits (x : Int) : Bool := decide (0 ≤ x ∧ x ≤ 2 ^ 29 - 1)

/-- Every operand fits the field it goes into. -/
def Instr.wellFormed : Instr → Bool
  | .codeLoad _ prn => prnFits prn
  | .initWrite _ prn carrierPhase codePhase =>
      prnFits prn && carrierPhaseFits carrierPhase && codePhaseFits codePhase
  | .updateWrite _ carrierFreq codePhaseRate => carrierFreqFits carrierFreq && codePhaseRateFits codePhaseRate
  | .corrRead _ => true
  | .corrReadTx => true
  | .phaseRead _ => true
  | .phaseReadTx => true
  | .statusRead _ => true
  | .periodIrq _ _ _ => true
  | .strobeFall _ => true
  | .reset => true
  | .arm _ prn carrierPhase codePhase carrierFreq codePhaseRate =>
      prnFits prn && carrierPhaseFits carrierPhase && codePhaseFits codePhase &&
        carrierFreqFits carrierFreq && codePhaseRateFits codePhaseRate
  | .service _ carrierFreq codePhaseRate => carrierFreqFits carrierFreq && codePhaseRateFits codePhaseRate

end Sys2Proof
end

