-- ==== Sys2Proof/Certificates/Slice0/Obligations.lean ====
section
/-! DEFINITION. The statements about the machine, from the numbered rules of spec/. Each docstring names the rule. In all of
them a state `s` is any state: its configuration, channel count, agenda and scripted draws are arbitrary. -/

open Sys2Proof Sys2Proof.Machine

/-! ### Images -/

/-- R82 (marked there as derived from R81): the INIT image of every triple of integers, field by field, its closed form,
its bytes, and byte 0 on the default domain. -/
def Obligations.PackInitFieldLayout : Prop :=
  ∀ prn carrierPhase codePhase : Int,
    let img := imageValue (packInit prn carrierPhase codePhase).toList
    (img : Int) = codePhase % 2 ^ 14 * 2 ^ 29 + carrierPhase % 2 ^ 24 * 2 ^ 5 + prn % 2 ^ 5 ∧
    bits img 47 43 = 0 ∧ bits img 42 29 = twos 14 codePhase ∧ bits img 28 5 = twos 24 carrierPhase ∧
    bits img 4 0 = twos 5 prn ∧
    (∀ k (h : k < 6), (packInit prn carrierPhase codePhase)[k].toNat = bits img (8 * (5 - k) + 7) (8 * (5 - k))) ∧
    (0 ≤ codePhase → codePhase ≤ 2047 → (packInit prn carrierPhase codePhase)[0] = 0)

/-- R85 (marked there as derived from R84): the UPDATE image of every pair of integers, and the boundary case of the
largest rate. -/
def Obligations.PackUpdateFieldLayout : Prop :=
  (∀ carrierFreq codePhaseRate : Int,
    let img := imageValue (packUpdate carrierFreq codePhaseRate).toList
    (img : Int) = codePhaseRate % 2 ^ 29 * 2 ^ 16 + carrierFreq % 2 ^ 16 ∧
    bits img 47 45 = 0 ∧ bits img 44 16 = twos 29 codePhaseRate ∧ bits img 15 0 = twos 16 carrierFreq ∧
    (∀ k (h : k < 6), (packUpdate carrierFreq codePhaseRate)[k].toNat = bits img (8 * (5 - k) + 7) (8 * (5 - k)))) ∧
  (∀ carrierFreq : Int,
    ((packUpdate carrierFreq 0x1FFFFFFF).toList.take 4 = [0x1F, 0xFF, 0xFF, 0xFF] ∧
      (unpackUpdate (packUpdate carrierFreq 0x1FFFFFFF)).codePhaseRate = 0x1FFFFFFF))

/-- R121: the round trips on the operations' domains for every `CODE_PHASE_IN_BITS` in 11..14, injectivity of the packers
there, and the two operands outside the domain on which the round trip fails. -/
def Obligations.UnpackInvertsPackOnTheDomain : Prop :=
  (∀ (cfg : Config) (prn carrierPhase codePhase : Int), cfg.WidthsOk →
    initInDomain cfg prn carrierPhase codePhase = true →
    unpackInit (packInit prn carrierPhase codePhase) = ⟨prn, carrierPhase, codePhase⟩) ∧
  (∀ carrierFreq codePhaseRate : Int, updateInDomain carrierFreq codePhaseRate = true →
    unpackUpdate (packUpdate carrierFreq codePhaseRate) = ⟨carrierFreq, codePhaseRate⟩) ∧
  (∀ (cfg : Config) (a b c a' b' c' : Int), cfg.WidthsOk → initInDomain cfg a b c = true →
    initInDomain cfg a' b' c' = true → packInit a b c = packInit a' b' c' → a = a' ∧ b = b' ∧ c = c') ∧
  (∀ a b a' b' : Int, updateInDomain a b = true → updateInDomain a' b' = true →
    packUpdate a b = packUpdate a' b' → a = a' ∧ b = b') ∧
  (unpackInit (packInit 0 0x800000 0)).carrierPhase = -8388608 ∧
  (unpackInit (packInit 3 0x1FFFFFF 0)).carrierPhase = -1

/-- R122 (marked there as derived): packing, unpacking and packing again gives the same bytes for all integers, and
packing undoes unpacking on every image whose reserved bits are zero. -/
def Obligations.RepackingGivesTheSameImage : Prop :=
  (∀ a b c : Int,
    let p := unpackInit (packInit a b c)
    packInit p.prn p.carrierPhase p.codePhase = packInit a b c) ∧
  (∀ a b : Int,
    let p := unpackUpdate (packUpdate a b)
    packUpdate p.carrierFreq p.codePhaseRate = packUpdate a b) ∧
  (∀ b : InitImage, initReservedZero b = true →
    packInit (unpackInit b).prn (unpackInit b).carrierPhase (unpackInit b).codePhase = b) ∧
  (∀ b : UpdateImage, updateReservedZero b = true →
    packUpdate (unpackUpdate b).carrierFreq (unpackUpdate b).codePhaseRate = b)

/-- R123 (marked there as derived): the packers leave the reserved bits zero for all integers, so no INIT_WRITE or
UPDATE_WRITE puts a non-zero one on the bus. -/
def Obligations.ReservedBitsAreNeverSent : Prop :=
  (∀ a b c : Int, (packInit a b c)[0] &&& 0xF8 = 0) ∧
  (∀ a b : Int, (packUpdate a b)[0] &&& 0xE0 = 0) ∧
  (∀ (s t : State) (c : Nat) (x y z : Int), exec (.initWrite c x y z) s = .next t →
    t.busLog = s.busLog ∨ ∃ (r : BusRecord) (b : InitImage),
      t.busLog = s.busLog ++ [r] ∧ r.tx = some b.toList ∧ b[0] &&& 0xF8 = 0) ∧
  (∀ (s t : State) (c : Nat) (x y : Int), exec (.updateWrite c x y) s = .next t →
    t.busLog = s.busLog ∨ ∃ (r : BusRecord) (b : UpdateImage),
      t.busLog = s.busLog ++ [r] ∧ r.tx = some b.toList ∧ b[0] &&& 0xE0 = 0)

/-- R119 and R120 (marked there as derived): the fields the inverse functions return, by image bits and "in bytes". -/
def Obligations.UnpackersByteByByte : Prop :=
  (∀ b : InitImage,
    let img := imageValue b.toList
    unpackInit b = ⟨bits img 4 0, signed 24 (bits img 28 5), bits img 42 29⟩ ∧
    (unpackInit b).prn = (b[5].toNat &&& 0x1F : Nat) ∧
    (unpackInit b).carrierPhase = signed 24
      (((b[2].toNat &&& 0x1F) <<< 19) ||| (b[3].toNat <<< 11) ||| (b[4].toNat <<< 3) ||| (b[5].toNat >>> 5)) ∧
    (unpackInit b).codePhase =
      (((b[0].toNat &&& 0x07) <<< 11) ||| (b[1].toNat <<< 3) ||| (b[2].toNat >>> 5) : Nat)) ∧
  (∀ b : UpdateImage,
    let img := imageValue b.toList
    unpackUpdate b = ⟨signed 16 (bits img 15 0), bits img 44 16⟩ ∧
    (unpackUpdate b).carrierFreq = signed 16 ((b[4].toNat <<< 8) ||| b[5].toNat) ∧
    (unpackUpdate b).codePhaseRate =
      (((b[0].toNat &&& 0x1F) <<< 24) ||| (b[1].toNat <<< 16) ||| (b[2].toNat <<< 8) ||| b[3].toNat : Nat))

/-- R87 and R88: the CORR layout by image bits and by bytes, taps in logical order whatever their wire order. -/
def Obligations.CorrImageLayout : Prop :=
  ∀ b : CorrImage,
    let img := imageValue b.toList
    let r := unpackCorr b
    r.sampleCount = bits img 159 144 ∧
    r.late.q = signed 24 (bits img 143 120) ∧ r.late.i = signed 24 (bits img 119 96) ∧
    r.prompt.q = signed 24 (bits img 95 72) ∧ r.prompt.i = signed 24 (bits img 71 48) ∧
    r.early.q = signed 24 (bits img 47 24) ∧ r.early.i = signed 24 (bits img 23 0) ∧
    (∀ t : Fin 3,
      let byte := fun k => b.toList.getD (2 + 6 * (2 - t.val) + k) 0
      (corrTap r t).q = signed 24 (be24 (byte 0) (byte 1) (byte 2)) ∧
      (corrTap r t).i = signed 24 (be24 (byte 3) (byte 4) (byte 5)))

/-- R141: the sign extension of a 24-bit tap field, its range and the source's values; `sampleCount` is never
sign-extended. The last two clauses are R147's view of the same numbers: at every port width `HOST_W >= 24` the six lanes
show the sign-extended patterns, bit 23 replicated into all higher bits. -/
def Obligations.TapFieldsAreSignExtended : Prop :=
  (∀ v : Nat, v < 2 ^ 24 →
    signed 24 v = (if v < 0x800000 then (v : Int) else v - 0x1000000) ∧
    -8388608 ≤ signed 24 v ∧ signed 24 v ≤ 8388607) ∧
  (signed 24 0x800000 = -8388608 ∧ signed 24 0x7FFFFF = 8388607 ∧ signed 24 0x000001 = 1 ∧
    signed 24 0xFFFFFF = -1 ∧ signed 24 0x000000 = 0) ∧
  (∀ b : CorrImage, (unpackCorr b).sampleCount < 2 ^ 16 ∧
    (b[0] = 0xFF → b[1] = 0xFF → (unpackCorr b).sampleCount = 65535)) ∧
  (∀ (cfg : Config) (v : Nat), 24 ≤ cfg.hostW → v < 2 ^ 24 →
    (sext cfg.hostW 24 v).toInt = signed 24 v ∧
    (∀ i, i < cfg.hostW → (sext cfg.hostW 24 v).getLsbD i = v.testBit (min i 23))) ∧
  (∀ (cfg : Config) (b : CorrImage), 24 ≤ cfg.hostW →
    let img := imageValue b.toList
    portLanes cfg.hostW (unpackCorr b) =
      [bits img 23 0, bits img 47 24, bits img 71 48, bits img 95 72, bits img 119 96, bits img 143 120].map
        (sext cfg.hostW 24))

/-- R89: the PHASE layout by image bits; neither field is ever negative or sign-extended, and every image decodes. -/
def Obligations.PhaseImageLayout : Prop :=
  (∀ b : PhaseImage,
    let img := imageValue b.toList
    (unpackPhase b).codePhase = bits img 71 24 ∧ (unpackPhase b).carrierPhase = bits img 23 0 ∧
    (unpackPhase b).codePhase < 2 ^ 48 ∧ (unpackPhase b).carrierPhase < 2 ^ 24) ∧
  (unpackPhase #v[0, 0, 0, 0, 0, 0, 0x80, 0, 0]).carrierPhase = 8388608

/-- R90: the PHASE probe byte by byte and as an image value. -/
def Obligations.PhaseProbeBytes : Prop :=
  phaseProbe.toList = [0x00, 0x00, 0x22, 0x00, 0x00, 0x00, 0x00, 0x00, 0x00] ∧
  imageValue phaseProbe.toList = 0x22 <<< 48

/-! ### Decoding -/

/-- A few words written out from the layouts of R82, R85, R90 and the names of R96. How a bare table word is read is the
model's choice (log entry 5). -/
def Obligations.SampleWordsDecode : Prop :=
  decode (.image 3 .init .tx [0x00, 0xAA, 0xA2, 0x46, 0x8A, 0xC5]) = .ok (.initWrite 3 5 0x123456 0x555) ∧
  decode (.image 3 .update .tx [0x12, 0x34, 0x56, 0x78, 0x12, 0x34]) = .ok (.updateWrite 3 0x1234 0x12345678) ∧
  decode (.image 3 .phase .tx [0x00, 0x00, 0x22, 0x00, 0x00, 0x00, 0x00, 0x00, 0x00]) = .ok .phaseReadTx ∧
  decode (.named .statusRead (some 3) [] []) = .ok (.statusRead 3) ∧
  decode (.named .strobeFall (some 3) [] []) = .ok (.strobeFall 3) ∧
  decode (.named .service (some 3) [-2, 0x01000000] []) = .ok (.service 3 (-2) 0x01000000) ∧
  decodeTableWord 48 0x00AAA2468AC5 = some (.initWrite 0 5 0x123456 0x555) ∧
  decodeTableWord 72 (0x22 <<< 48) = some .phaseReadTx

/-- Every instruction whose operands fit their fields decodes, from its wire image where it has one, to itself. The frames
are the model's (log entry 5). -/
def Obligations.DecodeOfEncodeIsTheInstruction : Prop :=
  ∀ i : Instr, i.wellFormed = true → decode (encode i) = .ok i

/-- R54, R57, R83, R86: an image decodes only if it is one of the five transfers' images, whole, with reserved bits
zero. -/
def Obligations.OnlyTheFiveTransfersDecode : Prop :=
  ∀ (c : Nat) (w : WindowName) (d : Direction) (bytes : List Byte) (i : Instr),
    decode (.image c w d bytes) = .ok i →
      bytes.length = w.len ∧
      ((w = .init ∧ d = .tx ∧ (bytes.getD 0 0) &&& 0xF8 = 0 ∧ ∃ x y z, i = .initWrite c x y z) ∨
       (w = .update ∧ d = .tx ∧ (bytes.getD 0 0) &&& 0xE0 = 0 ∧ ∃ x y, i = .updateWrite c x y) ∨
       (w = .code ∧ d = .tx ∧ ∃ prn : Nat, prn < 32 ∧ bytes = (Config.codeTable prn).toList ∧ i = .codeLoad c prn) ∨
       (w = .corr ∧ d = .rx ∧ i = .corrRead c) ∨
       (w = .corr ∧ d = .tx ∧ bytes = List.replicate 20 0 ∧ i = .corrReadTx) ∨
       (w = .phase ∧ d = .rx ∧ i = .phaseRead c) ∨
       (w = .phase ∧ d = .tx ∧ bytes = phaseProbe.toList ∧ i = .phaseReadTx))

/-- What a step does with the head of the agenda: it runs the decoded instruction, refuses what is none, and goes on
with a pseudo-operation before it issues another operation. The agenda is the model's own (log entries 1 and 4). The
premise is R52's: the layout makes `addr` injective. In a layout that does not, the machine has no behaviour: a step is
refused by name, whatever is next. -/
def Obligations.StepRunsTheDecodedInstruction : Prop :=
  ∀ s : State,
    (¬ AddrInjective s.cfg s.N → step s = .refused .addressesAlias) ∧
    (AddrInjective s.cfg s.N →
      (∀ (f : Frame) (rest : List Turn) (i : Instr), s.agenda = .issue f :: rest → decode f = .ok i →
        (i.isEvent = true ∨ s.cont = .none) → step s = exec i { s with agenda := rest }) ∧
      (∀ (f : Frame) (rest : List Turn) (i : Instr), s.agenda = .issue f :: rest → decode f = .ok i →
        i.isEvent = false → s.cont ≠ .none → step s = resumePart s) ∧
      (∀ (f : Frame) (rest : List Turn) (e : DecodeError), s.agenda = .issue f :: rest →
        decode f = .error e → step s = .refused (.undecodable e)) ∧
      (∀ rest : List Turn, s.agenda = .resume :: rest → step s = resumePart { s with agenda := rest }) ∧
      (s.agenda = [] → step s = resumePart s) ∧
      (s.agenda = [] → s.cont = .none → step s = .next s) ∧
      (∀ (nbits w : Nat) (i : Instr), decodeTableWord nbits w = some i →
        step (s.withFetchWord nbits w) = exec i { s with cont := .none }))

/-! ### The write operations -/

/-- R117: CODE_LOAD in a block that is not stuck: the channel check, admission, domain, success and transport fault,
each with the whole next state. -/
def Obligations.CodeLoadResult : Prop :=
  ∀ (s : State) (c : Nat) (prn : Int), s.hung = false →
    (s.N ≤ c → exec (.codeLoad c prn) s = .next { s with port := .returned .badChannel }) ∧
    (c < s.N →
    let ch := s.chan c
    let sent := fun (o : XferOutcome) (code : Content 128) (step : ArmStep) (r : Return) =>
      { s with
        channels := s.channels.set c { ch with code := code, seq := { ch.seq with armStep := step } }
        busLog := s.busLog ++ [{ address := s.cfg.baseAddr + c * s.cfg.channelStride + s.cfg.offCode, length := 128,
                                 tx := some (Config.codeTable prn.toNat).toList, rx := none, outcome := o }]
        outcomes := s.outcomes.tail
        port := .returned r : State }
    (ch.seq.state ≠ .idle → exec (.codeLoad c prn) s = .next { s with port := .returned .seqViolation }) ∧
    (ch.seq.state = .idle → ¬(0 ≤ prn ∧ prn ≤ 31) →
      exec (.codeLoad c prn) s = .next { s with port := .returned .rangeFault }) ∧
    (ch.seq.state = .idle → 0 ≤ prn → prn ≤ 31 → s.nextOutcome = .ok →
      exec (.codeLoad c prn) s = .next (sent .ok (.image (Config.codeTable prn.toNat)) .one (.ok .done))) ∧
    (ch.seq.state = .idle → 0 ≤ prn → prn ≤ 31 → s.nextOutcome = .fault →
      exec (.codeLoad c prn) s = .next (sent .fault .undef .zero .transportFault)))

/-- R113: INIT_WRITE in a block that is not stuck. -/
def Obligations.InitWriteResult : Prop :=
  ∀ (s : State) (c : Nat) (prn carrierPhase codePhase : Int), s.hung = false →
    (s.N ≤ c → exec (.initWrite c prn carrierPhase codePhase) s = .next { s with port := .returned .badChannel }) ∧
    (c < s.N →
    let ch := s.chan c
    let admitted := ch.seq.state = .idle ∧ (ch.seq.armStep = .one ∨ ch.seq.armStep = .two)
    let inDomain := (0 ≤ prn ∧ prn ≤ 31) ∧ (-2 ^ 23 ≤ carrierPhase ∧ carrierPhase ≤ 2 ^ 23 - 1) ∧
      (0 ≤ codePhase ∧ codePhase ≤ 2 ^ s.cfg.codePhaseInBits - 1)
    let sent := fun (o : XferOutcome) (init : Content 6) (step : ArmStep) (r : Return) =>
      { s with
        channels := s.channels.set c { ch with init := init, seq := { ch.seq with armStep := step } }
        busLog := s.busLog ++ [{ address := s.cfg.baseAddr + c * s.cfg.channelStride + s.cfg.offInit, length := 6,
                                 tx := some (packInit prn carrierPhase codePhase).toList, rx := none, outcome := o }]
        outcomes := s.outcomes.tail
        port := .returned r : State }
    (¬admitted → exec (.initWrite c prn carrierPhase codePhase) s = .next { s with port := .returned .seqViolation }) ∧
    (admitted → ¬inDomain →
      exec (.initWrite c prn carrierPhase codePhase) s = .next { s with port := .returned .rangeFault }) ∧
    (admitted → inDomain → s.nextOutcome = .ok →
      exec (.initWrite c prn carrierPhase codePhase) s =
        .next (sent .ok (.image (packInit prn carrierPhase codePhase)) .two (.ok .done))) ∧
    (admitted → inDomain → s.nextOutcome = .fault →
      exec (.initWrite c prn carrierPhase codePhase) s = .next (sent .fault .undef .one .transportFault)))

/-- R116: UPDATE_WRITE in a block that is not stuck; from `Idle` it arms the channel. -/
def Obligations.UpdateWriteResult : Prop :=
  ∀ (s : State) (c : Nat) (carrierFreq codePhaseRate : Int), s.hung = false →
    (s.N ≤ c → exec (.updateWrite c carrierFreq codePhaseRate) s = .next { s with port := .returned .badChannel }) ∧
    (c < s.N →
    let ch := s.chan c
    let arming := ch.seq.state = .idle ∧ ch.seq.armStep = .two
    let period := ch.seq.state = .tracking ∧ ch.seq.updDone = false
    let inDomain := (-32768 ≤ carrierFreq ∧ carrierFreq ≤ 32767) ∧ (0 ≤ codePhaseRate ∧ codePhaseRate ≤ 2 ^ 29 - 1)
    let sent := fun (o : XferOutcome) (update : Content 6) (seq : Seq) (r : Return) =>
      { s with
        channels := s.channels.set c { ch with update := update, seq := seq }
        busLog := s.busLog ++ [{ address := s.cfg.baseAddr + c * s.cfg.channelStride + s.cfg.offUpdate, length := 6,
                                 tx := some (packUpdate carrierFreq codePhaseRate).toList, rx := none, outcome := o }]
        outcomes := s.outcomes.tail
        port := .returned r : State }
    (¬arming → ¬period →
      exec (.updateWrite c carrierFreq codePhaseRate) s = .next { s with port := .returned .seqViolation }) ∧
    (arming ∨ period → ¬inDomain →
      exec (.updateWrite c carrierFreq codePhaseRate) s = .next { s with port := .returned .rangeFault }) ∧
    (arming → inDomain → s.nextOutcome = .ok →
      exec (.updateWrite c carrierFreq codePhaseRate) s =
        .next (sent .ok (.image (packUpdate carrierFreq codePhaseRate))
          { state := .armed, armStep := .zero, updDone := true, updUnknown := false } (.ok .done))) ∧
    (period → inDomain → s.nextOutcome = .ok →
      exec (.updateWrite c carrierFreq codePhaseRate) s =
        .next (sent .ok (.image (packUpdate carrierFreq codePhaseRate))
          { ch.seq with updDone := true, updUnknown := false } (.ok .done))) ∧
    (arming ∨ period → inDomain → s.nextOutcome = .fault →
      exec (.updateWrite c carrierFreq codePhaseRate) s =
        .next (sent .fault .undef { ch.seq with updUnknown := true } .transportFault)))

/-! ### The read operations -/

/-- R142: CORR_READ in a block that is not stuck. A window that is `undef` (which no run reads, R41)
gives some twenty bytes, and the record and the result agree on them. -/
def Obligations.CorrReadResult : Prop :=
  ∀ (s : State) (c : Nat), s.hung = false →
    (s.N ≤ c → exec (.corrRead c) s = .next { s with port := .returned .badChannel }) ∧
    (c < s.N →
    let ch := s.chan c
    let record := fun (rx : Option (List Byte)) (o : XferOutcome) =>
      ({ address := s.cfg.baseAddr + c * s.cfg.channelStride + s.cfg.offCorr, length := 20,
         tx := some (List.replicate 20 0), rx := rx, outcome := o } : BusRecord)
    (ch.seq.state ≠ .tracking → exec (.corrRead c) s = .next { s with port := .returned .seqViolation }) ∧
    (∀ b, ch.seq.state = .tracking → ch.corr = .image b → s.nextOutcome = .ok →
      exec (.corrRead c) s = .next
        { s with busLog := s.busLog ++ [record (some b.toList) .ok], outcomes := s.outcomes.tail,
                 port := .returned (.ok (.corr (unpackCorr b))) }) ∧
    (ch.seq.state = .tracking → ch.corr = .undef → s.nextOutcome = .ok →
      ∃ (b : CorrImage) (n : Nat), exec (.corrRead c) s = .next
        { s with busLog := s.busLog ++ [record (some b.toList) .ok], outcomes := s.outcomes.tail, fresh := n,
                 port := .returned (.ok (.corr (unpackCorr b))) }) ∧
    (ch.seq.state = .tracking → s.nextOutcome = .fault →
      exec (.corrRead c) s = .next
        { s with busLog := s.busLog ++ [record none .fault], outcomes := s.outcomes.tail,
                 port := .returned .transportFault }))

/-- R144: PHASE_READ in a block that is not stuck. -/
def Obligations.PhaseReadResult : Prop :=
  ∀ (s : State) (c : Nat), s.hung = false →
    (s.N ≤ c → exec (.phaseRead c) s = .next { s with port := .returned .badChannel }) ∧
    (c < s.N →
    let ch := s.chan c
    let record := fun (rx : Option (List Byte)) (o : XferOutcome) =>
      ({ address := s.cfg.baseAddr + c * s.cfg.channelStride + s.cfg.offPhase, length := 9,
         tx := some [0x00, 0x00, 0x22, 0x00, 0x00, 0x00, 0x00, 0x00, 0x00], rx := rx, outcome := o } : BusRecord)
    (ch.seq.state ≠ .tracking → exec (.phaseRead c) s = .next { s with port := .returned .seqViolation }) ∧
    (∀ b, ch.seq.state = .tracking → ch.phase = .image b → s.nextOutcome = .ok →
      exec (.phaseRead c) s = .next
        { s with busLog := s.busLog ++ [record (some b.toList) .ok], outcomes := s.outcomes.tail,
                 port := .returned (.ok (.phase (unpackPhase b))) }) ∧
    (ch.seq.state = .tracking → ch.phase = .undef → s.nextOutcome = .ok →
      ∃ (b : PhaseImage) (n : Nat), exec (.phaseRead c) s = .next
        { s with busLog := s.busLog ++ [record (some b.toList) .ok], outcomes := s.outcomes.tail, fresh := n,
                 port := .returned (.ok (.phase (unpackPhase b))) }) ∧
    (ch.seq.state = .tracking → s.nextOutcome = .fault →
      exec (.phaseRead c) s = .next
        { s with busLog := s.busLog ++ [record none .fault], outcomes := s.outcomes.tail,
                 port := .returned .transportFault }))

/-- R146 (the spec's own operation, D16): STATUS_READ returns `ERR[c]` in every sequencer state and changes nothing but
the result port. -/
def Obligations.StatusReadResult : Prop :=
  ∀ (s : State) (c : Nat),
    (s.hung = false → c < s.N →
      exec (.statusRead c) s = .next { s with port := .returned (.ok (.status (s.chan c).err)) }) ∧
    (s.hung = false → s.N ≤ c → exec (.statusRead c) s = .next { s with port := .returned .badChannel }) ∧
    (s.hung = true → exec (.statusRead c) s = .fault .blockHung)

/-- R59: the transmitted bytes of the two reads change no modelled state. That the table's two `.tx` rows are the transmit
half alone is the model's reading (log entry 9). -/
def Obligations.TransmitImagesChangeNothing : Prop :=
  ∀ s : State, s.hung = false → exec .corrReadTx s = .next s ∧ exec .phaseReadTx s = .next s

/-! ### The events -/

/-- R163: PERIOD_IRQ on an existing channel, stuck block or not, in the three states of the sequencer, with a draw
`d` the rule leaves free. The last clause, that `d` is the head of `errDraws` where one is scripted and the tail is left, is
the model's choice (log entry 7). -/
def Obligations.PeriodIrqEffect : Prop :=
  ∀ (s : State) (c : Nat) (corr : CorrImage) (phase : PhaseImage), c < s.N →
    let ch := s.chan c
    let after := fun (err : Bool) =>
      { ch with corr := .image corr, phase := .image phase, err := err,
                seq := { ch.seq with state := .tracking, updDone := false, updUnknown := false } }
    (ch.seq.state = .idle → exec (.periodIrq c corr phase) s = .next s) ∧
    (ch.seq.state = .armed →
      exec (.periodIrq c corr phase) s = .next { s with channels := s.channels.set c (after ch.err) }) ∧
    (ch.seq.state = .tracking → ch.seq.updDone = true →
      exec (.periodIrq c corr phase) s = .next { s with channels := s.channels.set c (after ch.err) }) ∧
    (ch.seq.state = .tracking → ch.seq.updDone = false → ch.seq.updUnknown = false →
      exec (.periodIrq c corr phase) s = .next { s with channels := s.channels.set c (after true) }) ∧
    (ch.seq.state = .tracking → ch.seq.updDone = false → ch.seq.updUnknown = true →
      ∃ (d : Bool) (ds : List Bool) (n : Nat),
        exec (.periodIrq c corr phase) s =
          .next { s with channels := s.channels.set c (after (ch.err || d)), errDraws := ds, fresh := n } ∧
        ∀ b bs, s.errDraws = b :: bs → d = b ∧ ds = bs)

/-- R164: STROBE_FALL on an existing channel, stuck block or not. -/
def Obligations.StrobeFallEffect : Prop :=
  ∀ (s : State) (c : Nat), c < s.N →
    let ch := s.chan c
    let latched := fun (done : Bool) =>
      ch.latch ++ [{ state := ch.seq.state, init := ch.init, update := ch.update, updDone := done }]
    (ch.seq.state = .idle → ch.seq.armStep = .zero → exec (.strobeFall c) s = .next s) ∧
    (ch.seq.state = .idle → ch.seq.armStep ≠ .zero →
      exec (.strobeFall c) s = .next { s with channels := s.channels.set c { ch with stale := true } }) ∧
    (ch.seq.state = .armed →
      exec (.strobeFall c) s = .next { s with channels := s.channels.set c { ch with latch := latched true } }) ∧
    (ch.seq.state = .tracking → ch.seq.updDone = true →
      exec (.strobeFall c) s = .next { s with channels := s.channels.set c { ch with latch := latched true } }) ∧
    (ch.seq.state = .tracking → ch.seq.updDone = false →
      exec (.strobeFall c) s =
        .next { s with channels := s.channels.set c { ch with stale := true, latch := latched false } })

/-- R230 (the values are the spec's own choice, D20): RESET from any state, a stuck one too, gives every channel, `HUNG`
and `BUS_LOG` their reset values, and leaves the rest of the model's state, the configuration among it, alone (log
entries 2 and 4). -/
def Obligations.ResetEffect : Prop :=
  ∀ s : State, ∃ t : State, exec .reset s = .next t ∧ t.N = s.N ∧
    (∀ c, c < s.N →
      let ch := t.chan c
      ch.seq = { state := .idle, armStep := .zero, updDone := false, updUnknown := false } ∧
      ch.err = false ∧ ch.stale = false ∧ ch.init = .undef ∧ ch.update = .undef ∧ ch.code = .undef ∧
      ch.corr = .undef ∧ ch.phase = .undef ∧ ch.latch = []) ∧
    t.hung = false ∧ t.busLog = [] ∧ t.cfg = s.cfg ∧ t.port = s.port ∧ t.cont = s.cont ∧ t.agenda = s.agenda ∧
    t.outcomes = s.outcomes ∧ t.errDraws = s.errDraws ∧ t.fresh = s.fresh

/-- R44 (the spec's own choice, D20): the reset values, for every configuration and channel count. -/
def Obligations.ResetStateValues : Prop :=
  ∀ (cfg : Config) (n : Nat),
    let s := State.resetWith cfg n
    s.N = n ∧ s.cfg = cfg ∧ s.hung = false ∧ s.busLog = [] ∧
    (∀ c, c < n →
      let ch := s.chan c
      ch.seq.state = .idle ∧ ch.seq.armStep = .zero ∧ ch.seq.updDone = false ∧ ch.seq.updUnknown = false ∧
      ch.err = false ∧ ch.stale = false ∧ ch.init = .undef ∧ ch.update = .undef ∧ ch.code = .undef ∧
      ch.corr = .undef ∧ ch.phase = .undef ∧ ch.latch = [])

/-! ### The pseudo-operations -/

/-- ARM's first part (R97: "stops at the first operation whose result is not OK, returning that result"). That the meaning of
ARM is its CODE_LOAD alone, with the caller's place kept in `cont`, is the model's choice (log entry 4). On an idle channel
with an in-domain PRN and a transfer that completes, the code is loaded and the caller stands before INIT_WRITE. Whatever
else CODE_LOAD returns ends the pseudo-operation with that result. The later parts are `LaterPartsRunTheirOperation`. -/
def Obligations.ArmStartsWithCodeLoad : Prop :=
  ∀ (s : State) (c : Nat) (prn cp ph cf cr : Int), s.hung = false →
    (c < s.N → (s.chan c).seq.state = .idle → 0 ≤ prn → prn ≤ 31 → s.nextOutcome = .ok →
      exec (.arm c prn cp ph cf cr) s = .next
        { s with
          channels := s.channels.set c { s.chan c with
            code := .image (Config.codeTable prn.toNat), seq := { (s.chan c).seq with armStep := .one } }
          busLog := s.busLog ++ [{ address := addr s.cfg c .code, length := 128,
                                   tx := some (Config.codeTable prn.toNat).toList, rx := none, outcome := .ok }]
          outcomes := s.outcomes.tail
          port := .returned (.ok .done)
          cont := .armInit c prn cp ph cf cr }) ∧
    (∀ t, exec (.codeLoad c prn) s = .next t → t.port ≠ .returned (.ok .done) →
      exec (.arm c prn cp ph cf cr) s = .next { t with cont := .none })

/-- R97, R162: in a layout that R52 admits, with in-domain operands, an idle channel and a transport that completes, ARM
leads to `Armed`: the three images are in their windows and on the bus, and OK is returned. That it takes three steps, one operation each, the later two
from an empty agenda, is the model's choice (log entries 1 and 4). -/
def Obligations.ArmTakesThreeStepsToArmed : Prop :=
  ∀ (s : State) (c : Nat) (prn cp ph cf cr : Int), AddrInjective s.cfg s.N → s.hung = false → c < s.N → s.cont = .none →
    s.agenda = [.issue (encodeNamed (.arm c prn cp ph cf cr))] → (s.chan c).seq.state = .idle →
    codeLoadInDomain prn = true → initInDomain s.cfg prn cp ph = true → updateInDomain cf cr = true →
    (∀ k, k < 3 → s.outcomes.getD k .ok = .ok) →
    ∃ t, Sys2Proof.core.run 3 s = .next t ∧
      t.chan c = { s.chan c with
        seq := { state := .armed, armStep := .zero, updDone := true, updUnknown := false }
        code := .image (Config.codeTable prn.toNat), init := .image (packInit prn cp ph)
        update := .image (packUpdate cf cr) } ∧
      t.port = .returned (.ok .done) ∧ t.cont = .none ∧ t.agenda = [] ∧
      t.busLog.map (fun r => (r.address, r.tx)) = s.busLog.map (fun r => (r.address, r.tx)) ++
        [(addr s.cfg c .code, some (Config.codeTable prn.toNat).toList),
         (addr s.cfg c .init, some (packInit prn cp ph).toList),
         (addr s.cfg c .update, some (packUpdate cf cr).toList)]

/-- SERVICE's first part (R97). That the meaning of SERVICE is its CORR_READ alone, with the result and the caller's place
kept in `cont`, is the model's choice (log entry 4). On a tracking channel with a transfer that completes, the result is
kept and the caller stands before PHASE_READ; so it is whatever the window held, an `undef` one included. Whatever else
CORR_READ returns ends the pseudo-operation with that result. The later parts are `LaterPartsRunTheirOperation`. -/
def Obligations.ServiceStartsWithCorrRead : Prop :=
  ∀ (s : State) (c : Nat) (cf cr : Int), s.hung = false →
    (∀ b, c < s.N → (s.chan c).seq.state = .tracking → (s.chan c).corr = .image b → s.nextOutcome = .ok →
      exec (.service c cf cr) s = .next
        { s with
          busLog := s.busLog ++ [{ address := addr s.cfg c .corr, length := 20, tx := some corrDummy.toList,
                                   rx := some b.toList, outcome := .ok }]
          outcomes := s.outcomes.tail
          port := .returned (.ok (.corr (unpackCorr b)))
          cont := .servicePhase c cf cr (unpackCorr b) }) ∧
    (∀ t v, exec (.corrRead c) s = .next t → t.port = .returned (.ok v) →
      ∃ r, v = .corr r ∧ exec (.service c cf cr) s = .next { t with cont := .servicePhase c cf cr r }) ∧
    (∀ t, exec (.corrRead c) s = .next t → (∀ v, t.port ≠ .returned (.ok v)) →
      exec (.service c cf cr) s = .next { t with cont := .none })

/-- R97: in a layout that R52 admits, on a tracking channel that owes its UPDATE, with in-domain operands and a transport that completes, SERVICE reads
both windows and writes the UPDATE window. That it takes three steps, and that its own result is a record of both decoded
results, on which the spec is silent, is the model's choice (log entries 1 and 4). -/
def Obligations.ServiceReturnsBothResults : Prop :=
  ∀ (s : State) (c : Nat) (cf cr : Int) (corr : CorrImage) (phase : PhaseImage), AddrInjective s.cfg s.N →
    s.hung = false → c < s.N → s.cont = .none → s.agenda = [.issue (encodeNamed (.service c cf cr))] → (s.chan c).seq.state = .tracking →
    (s.chan c).seq.updDone = false → (s.chan c).corr = .image corr → (s.chan c).phase = .image phase →
    updateInDomain cf cr = true → (∀ k, k < 3 → s.outcomes.getD k .ok = .ok) →
    ∃ t, Sys2Proof.core.run 3 s = .next t ∧
      t.chan c = { s.chan c with
        seq := { (s.chan c).seq with updDone := true, updUnknown := false }, update := .image (packUpdate cf cr) } ∧
      t.port = .returned (.ok (.service (unpackCorr corr) (unpackPhase phase))) ∧ t.cont = .none ∧ t.agenda = [] ∧
      t.busLog.map (fun r => (r.address, r.rx)) = s.busLog.map (fun r => (r.address, r.rx)) ++
        [(addr s.cfg c .corr, some corr.toList), (addr s.cfg c .phase, some phase.toList),
         (addr s.cfg c .update, none)]

/-- R97: each later part of a pseudo-operation is its operation, and the pseudo-operation stops at the first one whose result
is not OK, with that result. For each constructor of `Cont`, `resumePart` is `exec` of the part's operation with the
caller's place moved on if it returned OK, and with nothing left to do and the port as the operation left it if it was
refused, faulted or hung; the last part of SERVICE puts both decoded results on the port. In a stuck block a part has no
step. The caller's place and SERVICE's record are the model's choice (log entry 4). -/
def Obligations.LaterPartsRunTheirOperation : Prop :=
  ∀ (s : State) (c : Nat) (cf cr : Int),
    let goesOn := fun (i : Instr) (onOk : State → State) =>
      ∀ t, exec i s = .next t →
        (t.port = .returned (.ok .done) ∧ resumePart s = .next (onOk t)) ∨
        ((∀ v, t.port ≠ .returned (.ok v)) ∧ resumePart s = .next { t with cont := .none })
    (s.cont = .none → resumePart s = .next s) ∧
    (∀ prn cp ph, s.cont = .armInit c prn cp ph cf cr →
      goesOn (.initWrite c prn cp ph) fun t => { t with cont := .armUpdate c cf cr }) ∧
    (s.cont = .armUpdate c cf cr → goesOn (.updateWrite c cf cr) fun t => { t with cont := .none }) ∧
    (∀ corr, s.cont = .servicePhase c cf cr corr →
      ∀ t, exec (.phaseRead c) s = .next t →
        (∃ phase, t.port = .returned (.ok (.phase phase)) ∧
          resumePart s = .next { t with cont := .serviceUpdate c cf cr corr phase }) ∨
        ((∀ v, t.port ≠ .returned (.ok v)) ∧ resumePart s = .next { t with cont := .none })) ∧
    (∀ corr phase, s.cont = .serviceUpdate c cf cr corr phase →
      goesOn (.updateWrite c cf cr) fun t =>
        { t with cont := .none, port := .returned (.ok (.service corr phase)) }) ∧
    (s.hung = false → ∃ t, resumePart s = .next t) ∧
    (s.hung = true → s.cont ≠ .none → resumePart s = .fault .blockHung)

/-- Every run of steps is, but for the caller's own fields (the port, the place in a pseudo-operation, the agenda), the run of
the instructions it took, later parts of pseudo-operations among them: at most one a step, its events those taken from the
head of the agenda, in their order. So what holds of every instruction (R29, R30, R166, R170, the frames) and of every run of
instructions (R59, R169, R171) holds of every step and of every run of steps. The caller's fields are the model's own (log
entries 1, 4 and 8). -/
def Obligations.RunsOfStepsAreRunsOfInstructions : Prop :=
  ∀ (k : Nat) (s t : State), Sys2Proof.core.run k s = .next t →
    ∃ (is : List Instr) (used : List Turn) (u : State), is.length ≤ k ∧ runInstrs is s = .next u ∧
      t = { u with port := t.port, cont := t.cont, agenda := t.agenda } ∧ s.agenda = used ++ t.agenda ∧
      is.filter Instr.isEvent = used.filterMap Turn.event

/-! ### Faults and refusals -/

/-- R206 (the spec's decision D25; how an event that does not exist shows is the model's, log entry 11): an operation on
a channel that does not exist returns BAD_CHANNEL and changes nothing else, whatever its operands (a pseudo-operation
ends there); an event on it does not exist. -/
def Obligations.BadChannelIsRefused : Prop :=
  ∀ (s : State) (c : Nat), s.N ≤ c →
    (s.hung = false →
      let refused := .next { s with port := .returned .badChannel }
      (∀ prn, exec (.codeLoad c prn) s = refused) ∧ (∀ x y z, exec (.initWrite c x y z) s = refused) ∧
      (∀ x y, exec (.updateWrite c x y) s = refused) ∧ exec (.corrRead c) s = refused ∧
      exec (.phaseRead c) s = refused ∧ exec (.statusRead c) s = refused ∧
      (∀ v w x y z, exec (.arm c v w x y z) s = .next { s with port := .returned .badChannel, cont := .none }) ∧
      (∀ x y, exec (.service c x y) s = .next { s with port := .returned .badChannel, cont := .none })) ∧
    (∀ corr phase, exec (.periodIrq c corr phase) s = .refused .noSuchChannel) ∧
    exec (.strobeFall c) s = .refused .noSuchChannel

/-- R161 (the spec's reading, D9): the admission table, cell by cell: an operation that is not admitted returns
SEQ_VIOLATION with nothing else changed, and an admitted one never does, whatever its operands. -/
def Obligations.AdmissionTable : Prop :=
  ∀ (s : State) (c : Nat), s.hung = false → c < s.N →
    let q := (s.chan c).seq
    let no := fun (i : Instr) => exec i s = .next { s with port := .returned .seqViolation }
    let ok := fun (i : Instr) => ∃ t, exec i s = .next t ∧ t.port ≠ .returned .seqViolation
    (∀ prn, (q.state = .idle → ok (.codeLoad c prn)) ∧ (q.state = .armed → no (.codeLoad c prn)) ∧
      (q.state = .tracking → no (.codeLoad c prn))) ∧
    (∀ x y z, (q.state = .idle → q.armStep = .zero → no (.initWrite c x y z)) ∧
      (q.state = .idle → q.armStep = .one → ok (.initWrite c x y z)) ∧
      (q.state = .idle → q.armStep = .two → ok (.initWrite c x y z)) ∧
      (q.state = .armed → no (.initWrite c x y z)) ∧ (q.state = .tracking → no (.initWrite c x y z))) ∧
    (∀ x y, (q.state = .idle → q.armStep = .zero → no (.updateWrite c x y)) ∧
      (q.state = .idle → q.armStep = .one → no (.updateWrite c x y)) ∧
      (q.state = .idle → q.armStep = .two → ok (.updateWrite c x y)) ∧
      (q.state = .armed → no (.updateWrite c x y)) ∧
      (q.state = .tracking → q.updDone = false → ok (.updateWrite c x y)) ∧
      (q.state = .tracking → q.updDone = true → no (.updateWrite c x y))) ∧
    ((q.state = .idle → no (.corrRead c)) ∧ (q.state = .armed → no (.corrRead c)) ∧
      (q.state = .tracking → ok (.corrRead c))) ∧
    ((q.state = .idle → no (.phaseRead c)) ∧ (q.state = .armed → no (.phaseRead c)) ∧
      (q.state = .tracking → ok (.phaseRead c))) ∧
    ok (.statusRead c)

/-- R207 (the spec's choice, D8): one operation reports one code, and the checks are made in the fixed order `HUNG`,
BAD_CHANNEL, SEQ_VIOLATION, RANGE_FAULT, then the transfer, which alone decides between OK, TRANSPORT_FAULT and no
return. -/
def Obligations.ChecksInFixedOrder : Prop :=
  ∀ (s : State) (i : Instr) (c : Nat) (permitted inDomain : Bool),
    ((∃ prn, i = .codeLoad c prn ∧ permitted = permitCodeLoad (s.chan c).seq ∧ inDomain = codeLoadInDomain prn) ∨
     (∃ x y z, i = .initWrite c x y z ∧ permitted = permitInitWrite (s.chan c).seq ∧
        inDomain = initInDomain s.cfg x y z) ∨
     (∃ x y, i = .updateWrite c x y ∧ permitted = permitUpdateWrite (s.chan c).seq ∧ inDomain = updateInDomain x y) ∨
     (i = .corrRead c ∧ permitted = permitCorrRead (s.chan c).seq ∧ inDomain = true) ∨
     (i = .phaseRead c ∧ permitted = permitPhaseRead (s.chan c).seq ∧ inDomain = true)) →
    (s.hung = true → exec i s = .fault .blockHung) ∧
    (s.hung = false → s.N ≤ c → ∃ t, exec i s = .next t ∧ t.port = .returned .badChannel) ∧
    (s.hung = false → c < s.N → permitted = false → ∃ t, exec i s = .next t ∧ t.port = .returned .seqViolation) ∧
    (s.hung = false → c < s.N → permitted = true → inDomain = false →
      ∃ t, exec i s = .next t ∧ t.port = .returned .rangeFault) ∧
    (s.hung = false → c < s.N → permitted = true → inDomain = true →
      ∃ t, exec i s = .next t ∧
        (s.nextOutcome = .ok → ∃ v, t.port = .returned (.ok v)) ∧
        (s.nextOutcome = .fault → t.port = .returned .transportFault) ∧
        (s.nextOutcome = .hang → t.port = .empty ∧ t.hung = true))

/-- R110, R169: a refused operation changes no state but the result it returns, `BUS_LOG` not excepted; a pseudo-operation
whose first part is refused is over. -/
def Obligations.RefusedOperationChangesNothing : Prop :=
  ∀ (i : Instr) (s t : State), i.isEvent = false → i.channel ≠ none → exec i s = .next t →
    (t.port = .returned .badChannel ∨ t.port = .returned .seqViolation ∨ t.port = .returned .rangeFault) →
    { t with port := s.port, cont := s.cont } = s ∧ (t.cont = s.cont ∨ t.cont = .none)

/-- R202: an operation returns TRANSPORT_FAULT exactly when its transfer drew `Fault`, and the block makes no second
transfer for it. -/
def Obligations.TransportFaultExactlyOnFault : Prop :=
  ∀ (i : Instr) (s t : State), i.isEvent = false → i.channel ≠ none → exec i s = .next t →
    (t.port = .returned .transportFault ↔ ∃ r, t.busLog = s.busLog ++ [r] ∧ r.outcome = .fault)

/-- R61 (the spec's decision, D17): a transfer that hangs leaves the block stuck: the operation returns nothing, a write
window becomes `undef` and the sequencer record changes as under a fault; a read changes nothing else; from then on no
operation has a step. -/
def Obligations.HangLeavesTheBlockStuck : Prop :=
  ∀ (s : State) (c : Nat), s.hung = false → c < s.N → s.nextOutcome = .hang →
    let ch := s.chan c
    let stuck := fun (ch' : Channel) (t : State) =>
      t.hung = true ∧ t.port = .empty ∧ t.channels = s.channels.set c ch' ∧ t.cfg = s.cfg ∧
      t.outcomes = s.outcomes.tail ∧ (∃ r, t.busLog = s.busLog ++ [r] ∧ r.outcome = .hang ∧ r.rx = none) ∧
      t.isFinal = false ∧ ∀ j : Instr, j.isEvent = false → exec j t = .fault .blockHung
    (∀ prn, ch.seq.state = .idle → codeLoadInDomain prn = true → ∃ t, exec (.codeLoad c prn) s = .next t ∧
      stuck { ch with code := .undef, seq := { ch.seq with armStep := .zero } } t) ∧
    (∀ x y z, ch.seq.state = .idle → ch.seq.armStep ≠ .zero → initInDomain s.cfg x y z = true →
      ∃ t, exec (.initWrite c x y z) s = .next t ∧
        stuck { ch with init := .undef, seq := { ch.seq with armStep := .one } } t) ∧
    (∀ x y, (ch.seq.state = .idle ∧ ch.seq.armStep = .two) ∨ (ch.seq.state = .tracking ∧ ch.seq.updDone = false) →
      updateInDomain x y = true → ∃ t, exec (.updateWrite c x y) s = .next t ∧
        stuck { ch with update := .undef, seq := { ch.seq with updUnknown := true } } t) ∧
    (ch.seq.state = .tracking → ∃ t, exec (.corrRead c) s = .next t ∧ stuck ch t) ∧
    (ch.seq.state = .tracking → ∃ t, exec (.phaseRead c) s = .next t ∧ stuck ch t)

/-- R31, R217: in every run without RESET from a stuck block only events happen, nothing reaches the bus and the block
stays stuck; events of existing channels still happen; RESET leaves the state. -/
def Obligations.StuckBlockOnlySeesEvents : Prop :=
  (∀ (is : List Instr) (s t : State), s.hung = true → .reset ∉ is → runInstrs is s = .next t →
    t.hung = true ∧ t.busLog = s.busLog ∧ t.port = s.port ∧ ∀ i, i ∈ is → i.isEvent = true) ∧
  (∀ (i : Instr) (s : State), s.hung = true → i.isEvent = false → exec i s = .fault .blockHung) ∧
  (∀ (i : Instr) (s : State), s.hung = true → i.isEvent = true → (∀ c, i.channel = some c → c < s.N) →
    ∃ t, exec i s = .next t ∧ (t.hung = true ↔ i ≠ .reset))

/-! ### Whole-machine rules -/

/-- R71, R110: a step other than RESET appends at most one record to `BUS_LOG`; events, STATUS_READ and the refusals
append none. -/
def Obligations.AtMostOneTransferAStep : Prop :=
  (∀ (i : Instr) (s t : State), i ≠ .reset → exec i s = .next t →
    t.busLog = s.busLog ∨ ∃ r, t.busLog = s.busLog ++ [r]) ∧
  (∀ (i : Instr) (s t : State), (i.isEvent = true ∧ i ≠ .reset) ∨ (∃ c, i = .statusRead c) →
    exec i s = .next t → t.busLog = s.busLog) ∧
  (∀ (i : Instr) (s t : State), i.isEvent = false → i.channel ≠ none → exec i s = .next t →
    (t.port = .returned .badChannel ∨ t.port = .returned .seqViolation ∨ t.port = .returned .rangeFault) →
    t.busLog = s.busLog)

/-- R54, R57, R71, R31: in every step from a state whose bus log is legal, the bus log stays legal: every record is one of
the five transfers, whole, at its window's address, and the block is stuck exactly when the last transfer hung. -/
def Obligations.EveryStepKeepsTheBusLogLegal : Prop :=
  ∀ s t : State, s.BusInv → step s = .next t → t.BusInv

/-- The empty bus log of reset is legal. -/
def Obligations.ResetBusLogIsLegal : Prop :=
  ∀ (cfg : Config) (n : Nat), (State.resetWith cfg n).BusInv

/-- R25 to R28, R41, R162: every step keeps the invariant of every channel; in particular a channel is `Armed` or
`Tracking` only over defined CODE and INIT windows. -/
def Obligations.EveryStepKeepsTheSequencerInvariant : Prop :=
  ∀ s t : State, s.SeqInv → step s = .next t → t.SeqInv

/-- Every channel meets its invariant at reset. -/
def Obligations.ResetMeetsTheSequencerInvariant : Prop :=
  ∀ (cfg : Config) (n : Nat), (State.resetWith cfg n).SeqInv

/-- R11, R45, R52: no step changes the configuration or the channel count, and steps are taken only in a layout that makes
`addr` injective, before and after. -/
def Obligations.ConfigurationNeverChanges : Prop :=
  ∀ s t : State, step s = .next t →
    t.cfg = s.cfg ∧ t.N = s.N ∧ AddrInjective s.cfg s.N ∧ AddrInjective t.cfg t.N

/-- R29, R203: nothing but RESET clears `ERR[c]`, and nothing sets it but a PERIOD_IRQ(c) in `Tracking` with no successful
UPDATE_WRITE since the last one. -/
def Obligations.ErrIsStickyAndSetByAMissedUpdate : Prop :=
  ∀ (i : Instr) (s t : State) (c : Nat), exec i s = .next t →
    ((s.chan c).err = true → i ≠ .reset → (t.chan c).err = true) ∧
    ((s.chan c).err = false → (t.chan c).err = true →
      i.isPeriodOf c = true ∧ (s.chan c).seq.state = .tracking ∧ (s.chan c).seq.updDone = false)

/-- R30, R164: nothing but RESET clears `STALE[c]`, and nothing sets it but a STROBE_FALL(c) that finds the arming half
done or the period's UPDATE missing. -/
def Obligations.StaleIsStickyAndSetByALateStrobe : Prop :=
  ∀ (i : Instr) (s t : State) (c : Nat), exec i s = .next t →
    ((s.chan c).stale = true → i ≠ .reset → (t.chan c).stale = true) ∧
    ((s.chan c).stale = false → (t.chan c).stale = true →
      i.isStrobeOf c = true ∧
        (((s.chan c).seq.state = .idle ∧ (s.chan c).seq.armStep ≠ .zero) ∨
          ((s.chan c).seq.state = .tracking ∧ (s.chan c).seq.updDone = false)))

/-- R166: there is no transition out of `Tracking` and none from `Armed` back to `Idle`; only RESET returns a channel to
`Idle`, and it returns every channel. -/
def Obligations.OnlyResetReturnsToIdle : Prop :=
  (∀ (i : Instr) (s t : State) (c : Nat), i ≠ .reset → exec i s = .next t →
    ((s.chan c).seq.state = .tracking → (t.chan c).seq.state = .tracking) ∧
    ((s.chan c).seq.state = .armed →
      (t.chan c).seq.state = .armed ∨ ((t.chan c).seq.state = .tracking ∧ i.isPeriodOf c = true))) ∧
  (∀ (s t : State) (c : Nat), exec .reset s = .next t → (t.chan c).seq.state = .idle)

/-- R170: an operation or event of channel `c` changes nothing of another channel. -/
def Obligations.OtherChannelsAreUntouched : Prop :=
  ∀ (i : Instr) (s t : State) (c c' : Nat), i.channel = some c → c' ≠ c → exec i s = .next t →
    t.chan c' = s.chan c'

/-- R170, R20: what an instruction of channel `c` returns and makes of channel `c` depends on nothing of any other
channel: two states that agree on channel `c`, the channel count, the configuration, `HUNG`, the port, the caller's
place and the draws give the same, and agree on all of these again. -/
def Obligations.ResultsDependOnTheirOwnChannelOnly : Prop :=
  ∀ (i : Instr) (c : Nat) (s₁ s₂ t₁ : State), i.channel = some c → s₁.chan c = s₂.chan c → s₁.N = s₂.N →
    s₁.cfg = s₂.cfg → s₁.hung = s₂.hung → s₁.port = s₂.port → s₁.cont = s₂.cont → s₁.outcomes = s₂.outcomes →
    s₁.errDraws = s₂.errDraws → s₁.fresh = s₂.fresh → exec i s₁ = .next t₁ →
    ∃ t₂, exec i s₂ = .next t₂ ∧ t₂.port = t₁.port ∧ t₂.chan c = t₁.chan c ∧ t₂.hung = t₁.hung ∧ t₂.cont = t₁.cont ∧
      t₂.outcomes = t₁.outcomes ∧ t₂.errDraws = t₁.errDraws ∧ t₂.fresh = t₁.fresh ∧ t₂.cfg = t₁.cfg ∧ t₂.N = t₁.N

/-! ### Frames -/

/-- The frame of the three reads: no channel changes, so no window, flag or sequencer record does; the bus log only grows;
the rest of the state is as before but for the draws and the result. -/
def Obligations.ReadsChangeNoChannel : Prop :=
  ∀ (i : Instr) (s t : State) (c : Nat), (i = .corrRead c ∨ i = .phaseRead c ∨ i = .statusRead c) →
    exec i s = .next t →
    t.channels = s.channels ∧ t.cfg = s.cfg ∧ t.cont = s.cont ∧ t.agenda = s.agenda ∧ t.errDraws = s.errDraws ∧
    s.busLog <+: t.busLog

/-- The frame of the three writes: each leaves every other window of its channel, `ERR`, `STALE` and the latch log
alone, and CODE_LOAD and INIT_WRITE move nothing of the sequencer record but `arm_step`; the rest of the state is as
before but for the bus log, which only grows, the draws, the result and `HUNG`. -/
def Obligations.WritesTouchTheirWindowOnly : Prop :=
  ∀ (i : Instr) (s t : State) (c : Nat), exec i s = .next t →
    let kept := fun (w : WindowName) =>
      (w ≠ .code → (t.chan c).code = (s.chan c).code) ∧ (w ≠ .init → (t.chan c).init = (s.chan c).init) ∧
      (w ≠ .update → (t.chan c).update = (s.chan c).update) ∧ (t.chan c).corr = (s.chan c).corr ∧
      (t.chan c).phase = (s.chan c).phase ∧ (t.chan c).err = (s.chan c).err ∧
      (t.chan c).stale = (s.chan c).stale ∧ (t.chan c).latch = (s.chan c).latch ∧
      (∀ c', c' ≠ c → t.chan c' = s.chan c') ∧ t.N = s.N ∧ t.cfg = s.cfg ∧ t.cont = s.cont ∧ t.agenda = s.agenda ∧
      t.errDraws = s.errDraws ∧ t.fresh = s.fresh ∧ s.busLog <+: t.busLog
    let onlyStep := (t.chan c).seq = { (s.chan c).seq with armStep := (t.chan c).seq.armStep }
    (∀ prn, i = .codeLoad c prn → kept .code ∧ onlyStep) ∧
    (∀ x y z, i = .initWrite c x y z → kept .init ∧ onlyStep) ∧
    (∀ x y, i = .updateWrite c x y → kept .update)

/-- The frame of the two engine events: nothing outside their channel but the draws; PERIOD_IRQ leaves the write windows,
`STALE` and the latch log alone, STROBE_FALL the sequencer record, `ERR` and every window. -/
def Obligations.EventsTouchTheirChannelOnly : Prop :=
  ∀ (i : Instr) (s t : State) (c : Nat), exec i s = .next t →
    let outside := (∀ c', c' ≠ c → t.chan c' = s.chan c') ∧ t.N = s.N ∧ t.cfg = s.cfg ∧ t.hung = s.hung ∧
      t.busLog = s.busLog ∧ t.port = s.port ∧ t.cont = s.cont ∧ t.agenda = s.agenda ∧ t.outcomes = s.outcomes
    (∀ corr phase, i = .periodIrq c corr phase → outside ∧
      (t.chan c).init = (s.chan c).init ∧ (t.chan c).update = (s.chan c).update ∧ (t.chan c).code = (s.chan c).code ∧
      (t.chan c).stale = (s.chan c).stale ∧ (t.chan c).latch = (s.chan c).latch ∧
      (t.chan c).seq.armStep = (s.chan c).seq.armStep) ∧
    (i = .strobeFall c → outside ∧ t.errDraws = s.errDraws ∧ t.fresh = s.fresh ∧
      (t.chan c).seq = (s.chan c).seq ∧ (t.chan c).err = (s.chan c).err ∧ (t.chan c).init = (s.chan c).init ∧
      (t.chan c).update = (s.chan c).update ∧ (t.chan c).code = (s.chan c).code ∧
      (t.chan c).corr = (s.chan c).corr ∧ (t.chan c).phase = (s.chan c).phase)

/-! ### Runs -/

/-- R171: in a contract-compliant run of channel `c` (its clauses (a) to (c): `compliantRun`) `STALE[c]` stays 0, every
latched entry has `upd_done = 1` and defined images, and, if E-ALT (R167) also holds, `ERR[c]` stays 0. Without E-ALT the
clauses leave two interrupts in a row possible, which set `ERR[c]` by R163, so `ERR[c]` staying 0 then needs the deadline of
R163, "no PERIOD_IRQ(c) in `Tracking` before the period's UPDATE", too (log entry 10). Both deadlines alone, as
`SEQ[c]` shows them, keep both flags 0. -/
def Obligations.RunsOnTimeStayClean : Prop :=
  ∀ (c : Nat) (is : List Instr) (s t : State), runInstrs is s = .next t → (s.chan c).stale = false →
    (s.chan c).err = false →
    (compliantRun c is s = true →
      (t.chan c).stale = false ∧
      ((s.chan c).Inv → (∀ e, e ∈ (s.chan c).latch → e.Complete) → ∀ e, e ∈ (t.chan c).latch → e.Complete) ∧
      (altRun c is s = true → (t.chan c).err = false) ∧
      (periodsOnTimeRun c is s = true → (t.chan c).err = false)) ∧
    (onTimeRun c is s = true → (t.chan c).stale = false ∧ (t.chan c).err = false)

/-- R169, R161: once the period's UPDATE of channel `c` is done, every further UPDATE_WRITE on `c` is refused, with
nothing sent, however the run goes on, until PERIOD_IRQ(c) or RESET. -/
def Obligations.OneUpdateBetweenPeriodBoundaries : Prop :=
  ∀ (c : Nat) (is : List Instr) (s t : State), c < s.N →
    ((s.chan c).seq.state = .armed ∨ ((s.chan c).seq.state = .tracking ∧ (s.chan c).seq.updDone = true)) →
    (∀ i, i ∈ is → i.isPeriodOf c = false ∧ i ≠ .reset) → runInstrs is s = .next t → t.hung = false →
    ∀ x y, exec (.updateWrite c x y) t = .next { t with port := .returned .seqViolation }

/-- R59: the result windows of channel `c` stay the same until the next PERIOD_IRQ(c) or RESET, so a CORR_READ or
PHASE_READ that completes anywhere in such a run returns what the first would have. It rests on the spec's decisions that a
read has no side effect (D18, log entry 14) and that no event falls inside a transfer (D22, R240, log entry 13). -/
def Obligations.ReadsRepeatUntilTheNextPeriod : Prop :=
  ∀ (c : Nat) (is : List Instr) (s t u : State) (corr : CorrImage) (phase : PhaseImage),
    (s.chan c).corr = .image corr → (s.chan c).phase = .image phase →
    (∀ i, i ∈ is → i.isPeriodOf c = false ∧ i ≠ .reset) → runInstrs is s = .next t →
    (∀ v, exec (.corrRead c) t = .next u → u.port = .returned (.ok v) → v = .corr (unpackCorr corr)) ∧
    (∀ v, exec (.phaseRead c) t = .next u → u.port = .returned (.ok v) → v = .phase (unpackPhase phase))

/-- R171, R167: under E-ALT, the first thing the engine latches of a channel that was `Armed` is the pair of images of the
arming INIT_WRITE and UPDATE_WRITE. -/
def Obligations.FirstLatchHoldsTheArmingImages : Prop :=
  ∀ (c : Nat) (is : List Instr) (s t : State) (e : LatchEntry), (s.chan c).seq.state = .armed →
    (s.chan c).latch = [] → .reset ∉ is → alternates c true is = true → runInstrs is s = .next t →
    (t.chan c).latch.head? = some e →
    e = { state := .armed, init := (s.chan c).init, update := (s.chan c).update, updDone := true }

/-- R168: under H-ZERO for the last period boundary, a PHASE_READ that completes returns `codePhase = 0`. -/
def Obligations.HZeroPhaseReadsGiveZeroCodePhase : Prop :=
  ∀ (c : Nat) (corr : CorrImage) (phase : PhaseImage) (s t u : State) (r : PhaseResult), HZero phase →
    (s.chan c).seq.state ≠ .idle → exec (.periodIrq c corr phase) s = .next t → exec (.phaseRead c) t = .next u →
    u.port = .returned (.ok (.phase r)) → r.codePhase = 0

/-- R165: the two deadlines of a tracking channel that owes its UPDATE are distinct. An UPDATE_WRITE after the strobe fall
and before the interrupt leaves `ERR` alone and sets `STALE`; one before both leaves both alone; none sets `ERR`. -/
def Obligations.TheTwoDeadlinesAreDistinct : Prop :=
  ∀ (s : State) (c : Nat) (cf cr : Int) (corr : CorrImage) (phase : PhaseImage), s.hung = false → c < s.N →
    (s.chan c).seq.state = .tracking → (s.chan c).seq.updDone = false → (s.chan c).seq.updUnknown = false →
    updateInDomain cf cr = true → s.nextOutcome = .ok →
    (∃ t, runInstrs [.strobeFall c, .updateWrite c cf cr, .periodIrq c corr phase] s = .next t ∧
      (t.chan c).err = (s.chan c).err ∧ (t.chan c).stale = true) ∧
    (∃ t, runInstrs [.updateWrite c cf cr, .strobeFall c, .periodIrq c corr phase] s = .next t ∧
      (t.chan c).err = (s.chan c).err ∧ (t.chan c).stale = (s.chan c).stale) ∧
    (∃ t, runInstrs [.periodIrq c corr phase] s = .next t ∧ (t.chan c).err = true ∧
      (t.chan c).stale = (s.chan c).stale)

/-- R244 under the premise "no `Hang`": a run from a block that is not stuck, with no `Hang` among the transport's draws,
ends in a final state. That an exhausted script draws `Ok` is the model's choice (log entry 6). -/
def Obligations.RunsWithoutHangEndInAFinalState : Prop :=
  ∀ (is : List Instr) (s t : State), s.hung = false → .hang ∉ s.outcomes → runInstrs is s = .next t →
    t.isFinal = true

/-- R51, R52: distinct offsets smaller than the stride make the addresses of all windows of all channels distinct. -/
def Obligations.SmallDistinctOffsetsGiveDistinctAddresses : Prop :=
  ∀ (cfg : Config) (n : Nat), (∀ w, offsetOf cfg w < cfg.channelStride) →
    (∀ w w', offsetOf cfg w = offsetOf cfg w' → w = w') → AddrInjective cfg n
end

