-- ==== Sys2Proof/Laws/Images.lean ====
section
/-! SUPPORT. The masks, bytes and image values of the packers as plain arithmetic, for `omega`. -/

namespace Sys2Proof.Machine

/-- A mask of `k` ones keeps the value modulo `2^k` (00_scope.md R8). -/
theorem andMask_ones (a : Int) (k : Nat) (hk : 0 < k) : andMask a (2 ^ k - 1) = (a % 2 ^ k).toNat := by
  have hlog : (2 ^ k - 1).log2 + 1 = k := by
    have h1 : 2 ^ k - 1 ≠ 0 := by
      have := Nat.one_lt_two_pow (n := k) (by omega)
      omega
    have hlt : (2 ^ k - 1).log2 < k := (Nat.log2_lt h1).2 (by have := Nat.two_pow_pos k; omega)
    have hle : k - 1 ≤ (2 ^ k - 1).log2 := by
      refine (Nat.le_log2 h1).2 ?_
      have hk' : 2 ^ k = 2 * 2 ^ (k - 1) := by
        rw [← Nat.pow_succ']; congr 1; omega
      have := Nat.two_pow_pos (k - 1)
      omega
    omega
  have hpos : (0 : Int) < 2 ^ k := by positivity
  have h0 : 0 ≤ a % 2 ^ k := Int.emod_nonneg _ hpos.ne'
  have h1 : a % 2 ^ k < 2 ^ k := Int.emod_lt_of_pos _ hpos
  rw [andMask, hlog, Nat.and_two_pow_sub_one_eq_mod, Nat.mod_eq_of_lt]
  zify
  rw [Int.toNat_of_nonneg h0]
  exact_mod_cast h1

theorem andMask_07 (a : Int) : andMask a 0x07 = (a % 8).toNat := by simpa using andMask_ones a 3 (by decide)
theorem andMask_1F (a : Int) : andMask a 0x1F = (a % 32).toNat := by simpa using andMask_ones a 5 (by decide)
theorem andMask_FF (a : Int) : andMask a 0xFF = (a % 256).toNat := by simpa using andMask_ones a 8 (by decide)

/-- The mask `0xE0` keeps bits 7 to 5. -/
theorem andMask_E0 (a : Int) : andMask a 0xE0 = (a % 256).toNat / 32 * 32 := by
  have hr : (a % 256).toNat < 256 := by omega
  have hall : ∀ x : Fin 256, x.val &&& 0xE0 = x.val / 32 * 32 := by decide +kernel
  have h := hall ⟨(a % 256).toNat, hr⟩
  have hlog : (0xE0 : Nat).log2 = 7 := by decide
  simpa [andMask, hlog] using h

theorem toByte_toNat (v : Nat) : (toByte v).toNat = v % 256 := by simp [toByte]

theorem toByte_byte (b : Byte) : toByte b.toNat = b := by simp [toByte]

/-! ### The packers byte by byte, the formulas' shifts carried out -/

/-- Disjoint bits: `|` is `+` (30_encoding.md R81). -/
theorem or_high (a b : Nat) (h : a < 32) : (a ||| b / 32 * 32) = a + b / 32 * 32 := by
  rw [Nat.or_comm, Nat.mul_comm, ← Nat.two_pow_add_eq_or_of_lt (i := 5) (by simpa using h)]
  omega

theorem packInit_byte0 (prn cp code : Int) : (packInit prn cp code)[0].toNat = (code / 2048 % 8).toNat := by
  simp [packInit, toByte_toNat, andMask_07, shiftLeft, shiftRight]
  omega

theorem packInit_byte1 (prn cp code : Int) : (packInit prn cp code)[1].toNat = (code / 8 % 256).toNat := by
  simp [packInit, toByte_toNat, andMask_FF, shiftLeft, shiftRight]
  omega

theorem packInit_byte2 (prn cp code : Int) :
    (packInit prn cp code)[2].toNat = (cp / 524288 % 32).toNat + (code % 8).toNat * 32 := by
  have h := or_high (cp * 32 / 16777216 % 32).toNat (code * 32 % 256).toNat (by omega)
  have h' : (code * 32 % 256).toNat / 32 * 32 = (code * 32 % 256).toNat := by omega
  rw [h'] at h
  simp [packInit, toByte_toNat, andMask_FF, andMask_1F, shiftLeft, shiftRight, h]
  omega

theorem packInit_byte3 (prn cp code : Int) : (packInit prn cp code)[3].toNat = (cp / 2048 % 256).toNat := by
  simp [packInit, toByte_toNat, andMask_FF, shiftLeft, shiftRight]
  omega

theorem packInit_byte4 (prn cp code : Int) : (packInit prn cp code)[4].toNat = (cp / 8 % 256).toNat := by
  simp [packInit, toByte_toNat, andMask_FF, shiftLeft, shiftRight]
  omega

theorem packInit_byte5 (prn cp code : Int) :
    (packInit prn cp code)[5].toNat = (prn % 32).toNat + (cp % 8).toNat * 32 := by
  have h := or_high (prn % 32).toNat (cp * 32 % 256).toNat (by omega)
  simp [packInit, toByte_toNat, andMask_E0, andMask_1F, shiftLeft, h]
  omega

theorem packUpdate_byte0 (cf cr : Int) : (packUpdate cf cr)[0].toNat = (cr / 16777216 % 32).toNat := by
  simp [packUpdate, toByte_toNat, andMask_1F, shiftRight]
  omega

theorem packUpdate_byte1 (cf cr : Int) : (packUpdate cf cr)[1].toNat = (cr / 65536 % 256).toNat := by
  simp [packUpdate, toByte_toNat, andMask_FF, shiftRight]
  omega

theorem packUpdate_byte2 (cf cr : Int) : (packUpdate cf cr)[2].toNat = (cr / 256 % 256).toNat := by
  simp [packUpdate, toByte_toNat, andMask_FF, shiftRight]
  omega

theorem packUpdate_byte3 (cf cr : Int) : (packUpdate cf cr)[3].toNat = (cr % 256).toNat := by
  simp [packUpdate, toByte_toNat, andMask_FF]
  omega

theorem packUpdate_byte4 (cf cr : Int) : (packUpdate cf cr)[4].toNat = (cf / 256 % 256).toNat := by
  simp [packUpdate, toByte_toNat, andMask_FF, shiftRight]
  omega

theorem packUpdate_byte5 (cf cr : Int) : (packUpdate cf cr)[5].toNat = (cf % 256).toNat := by
  simp [packUpdate, toByte_toNat, andMask_FF]
  omega

/-! ### Image values -/

/-- The image value of a list of bytes, one byte at the end. -/
theorem imageValue_append (l : List Byte) (b : Byte) : imageValue (l ++ [b]) = imageValue l * 256 + b.toNat := by
  simp [imageValue]

/-- The image value of six bytes (R7). -/
theorem imageValue_six (b : Image 6) :
    imageValue b.toList = b[0].toNat * 2 ^ 40 + b[1].toNat * 2 ^ 32 + b[2].toNat * 2 ^ 24 + b[3].toNat * 2 ^ 16 +
      b[4].toNat * 2 ^ 8 + b[5].toNat := by
  obtain ⟨⟨l⟩, h⟩ := b
  match l, h with
  | [b0, b1, b2, b3, b4, b5], _ =>
    simp only [imageValue, Vector.toList_mk, List.foldl_cons, List.foldl_nil, Vector.getElem_mk,
      List.getElem_toArray, List.getElem_cons_zero, List.getElem_cons_succ]
    omega

/-- An image is the image of its own bytes. -/
@[simp] theorem toImage_toList {n : Nat} (b : Image n) : toImage n b.toList = some b := by
  obtain ⟨⟨l⟩, h⟩ := b
  simp only [toImage, Vector.toList_mk]
  rw [dif_pos (by simpa using h)]

theorem toImage_eq_some {n : Nat} {l : List Byte} {b : Image n} (h : toImage n l = some b) : b.toList = l := by
  unfold toImage at h
  split at h
  · cases h; rfl
  · cases h

theorem toImage_length {n : Nat} {l : List Byte} {b : Image n} (h : toImage n l = some b) : l.length = n := by
  unfold toImage at h
  split at h
  · assumption
  · cases h

/-- `signed_k` is the inverse of `twos_k` on the range of `k` bits (R9). -/
theorem signed_twos (k : Nat) (hk : 0 < k) (x : Int) (h0 : -2 ^ (k - 1) ≤ x) (h1 : x < 2 ^ (k - 1)) :
    signed k (twos k x) = x := by
  have hp : (2 : Int) ^ k = 2 * 2 ^ (k - 1) := by
    rw [← pow_succ']; congr 1; omega
  have hpos : (0 : Int) < 2 ^ (k - 1) := by positivity
  have hm : 0 ≤ x % 2 ^ k := Int.emod_nonneg _ (by omega)
  have hcast : ((twos k x : Nat) : Int) = x % 2 ^ k := by simp [twos, Int.toNat_of_nonneg hm]
  by_cases hx : 0 ≤ x
  · have hmod : x % 2 ^ k = x := Int.emod_eq_of_lt hx (by omega)
    have hlt : twos k x < 2 ^ (k - 1) := by zify; omega
    rw [signed, if_pos hlt, hcast, hmod]
  · have hmod : x % 2 ^ k = x + 2 ^ k := by
      rw [← Int.add_emod_right]; exact Int.emod_eq_of_lt (by omega) (by omega)
    have hge : ¬ twos k x < 2 ^ (k - 1) := by zify; omega
    rw [signed, if_neg hge, hcast, hmod]; omega

end Sys2Proof.Machine
end

