-- ==== Sys2Proof/Laws/State.lean ====
section
/-! SUPPORT. One lemma per field and update of the state, so that no proof unfolds a record update, and the laws of the
channel accessors. -/

namespace Sys2Proof.Machine

variable (s : State)

/-! ### `setChan` -/

@[simp] theorem setChan_cfg (c : Nat) (ch : Channel) : (s.setChan c ch).cfg = s.cfg := rfl
@[simp] theorem setChan_channels (c : Nat) (ch : Channel) : (s.setChan c ch).channels = s.channels.set c ch := rfl
@[simp] theorem setChan_hung (c : Nat) (ch : Channel) : (s.setChan c ch).hung = s.hung := rfl
@[simp] theorem setChan_busLog (c : Nat) (ch : Channel) : (s.setChan c ch).busLog = s.busLog := rfl
@[simp] theorem setChan_port (c : Nat) (ch : Channel) : (s.setChan c ch).port = s.port := rfl
@[simp] theorem setChan_cont (c : Nat) (ch : Channel) : (s.setChan c ch).cont = s.cont := rfl
@[simp] theorem setChan_agenda (c : Nat) (ch : Channel) : (s.setChan c ch).agenda = s.agenda := rfl
@[simp] theorem setChan_outcomes (c : Nat) (ch : Channel) : (s.setChan c ch).outcomes = s.outcomes := rfl
@[simp] theorem setChan_errDraws (c : Nat) (ch : Channel) : (s.setChan c ch).errDraws = s.errDraws := rfl
@[simp] theorem setChan_fresh (c : Nat) (ch : Channel) : (s.setChan c ch).fresh = s.fresh := rfl

/-! ### `answer` -/

@[simp] theorem answer_cfg (r : Return) : (s.answer r).cfg = s.cfg := rfl
@[simp] theorem answer_channels (r : Return) : (s.answer r).channels = s.channels := rfl
@[simp] theorem answer_hung (r : Return) : (s.answer r).hung = s.hung := rfl
@[simp] theorem answer_busLog (r : Return) : (s.answer r).busLog = s.busLog := rfl
@[simp] theorem answer_port (r : Return) : (s.answer r).port = .returned r := rfl
@[simp] theorem answer_cont (r : Return) : (s.answer r).cont = s.cont := rfl
@[simp] theorem answer_agenda (r : Return) : (s.answer r).agenda = s.agenda := rfl
@[simp] theorem answer_outcomes (r : Return) : (s.answer r).outcomes = s.outcomes := rfl
@[simp] theorem answer_errDraws (r : Return) : (s.answer r).errDraws = s.errDraws := rfl
@[simp] theorem answer_fresh (r : Return) : (s.answer r).fresh = s.fresh := rfl
@[simp] theorem answer_chan (r : Return) (c' : Nat) : (s.answer r).chan c' = s.chan c' := rfl

/-! ### `hangUp` -/

@[simp] theorem hangUp_cfg : s.hangUp.cfg = s.cfg := rfl
@[simp] theorem hangUp_channels : s.hangUp.channels = s.channels := rfl
@[simp] theorem hangUp_hung : s.hangUp.hung = true := rfl
@[simp] theorem hangUp_busLog : s.hangUp.busLog = s.busLog := rfl
@[simp] theorem hangUp_port : s.hangUp.port = .empty := rfl
@[simp] theorem hangUp_cont : s.hangUp.cont = s.cont := rfl
@[simp] theorem hangUp_agenda : s.hangUp.agenda = s.agenda := rfl
@[simp] theorem hangUp_outcomes : s.hangUp.outcomes = s.outcomes := rfl
@[simp] theorem hangUp_errDraws : s.hangUp.errDraws = s.errDraws := rfl
@[simp] theorem hangUp_fresh : s.hangUp.fresh = s.fresh := rfl
@[simp] theorem hangUp_chan (c' : Nat) : s.hangUp.chan c' = s.chan c' := rfl

/-! ### `logTransfer` -/

@[simp] theorem logTransfer_cfg (r : BusRecord) : (s.logTransfer r).cfg = s.cfg := rfl
@[simp] theorem logTransfer_channels (r : BusRecord) : (s.logTransfer r).channels = s.channels := rfl
@[simp] theorem logTransfer_hung (r : BusRecord) : (s.logTransfer r).hung = s.hung := rfl
@[simp] theorem logTransfer_busLog (r : BusRecord) : (s.logTransfer r).busLog = s.busLog ++ [r] := rfl
@[simp] theorem logTransfer_port (r : BusRecord) : (s.logTransfer r).port = s.port := rfl
@[simp] theorem logTransfer_cont (r : BusRecord) : (s.logTransfer r).cont = s.cont := rfl
@[simp] theorem logTransfer_agenda (r : BusRecord) : (s.logTransfer r).agenda = s.agenda := rfl
@[simp] theorem logTransfer_outcomes (r : BusRecord) : (s.logTransfer r).outcomes = s.outcomes.tail := rfl
@[simp] theorem logTransfer_errDraws (r : BusRecord) : (s.logTransfer r).errDraws = s.errDraws := rfl
@[simp] theorem logTransfer_fresh (r : BusRecord) : (s.logTransfer r).fresh = s.fresh := rfl
@[simp] theorem logTransfer_chan (r : BusRecord) (c' : Nat) : (s.logTransfer r).chan c' = s.chan c' := rfl

/-! ### `continueAt` -/

@[simp] theorem continueAt_cfg (k : Cont) : (s.continueAt k).cfg = s.cfg := rfl
@[simp] theorem continueAt_channels (k : Cont) : (s.continueAt k).channels = s.channels := rfl
@[simp] theorem continueAt_hung (k : Cont) : (s.continueAt k).hung = s.hung := rfl
@[simp] theorem continueAt_busLog (k : Cont) : (s.continueAt k).busLog = s.busLog := rfl
@[simp] theorem continueAt_port (k : Cont) : (s.continueAt k).port = s.port := rfl
@[simp] theorem continueAt_cont (k : Cont) : (s.continueAt k).cont = k := rfl
@[simp] theorem continueAt_agenda (k : Cont) : (s.continueAt k).agenda = s.agenda := rfl
@[simp] theorem continueAt_outcomes (k : Cont) : (s.continueAt k).outcomes = s.outcomes := rfl
@[simp] theorem continueAt_errDraws (k : Cont) : (s.continueAt k).errDraws = s.errDraws := rfl
@[simp] theorem continueAt_fresh (k : Cont) : (s.continueAt k).fresh = s.fresh := rfl
@[simp] theorem continueAt_chan (k : Cont) (c' : Nat) : (s.continueAt k).chan c' = s.chan c' := rfl

/-! ### `finish` -/

@[simp] theorem finish_cfg (r : Return) : (s.finish r).cfg = s.cfg := rfl
@[simp] theorem finish_channels (r : Return) : (s.finish r).channels = s.channels := rfl
@[simp] theorem finish_hung (r : Return) : (s.finish r).hung = s.hung := rfl
@[simp] theorem finish_busLog (r : Return) : (s.finish r).busLog = s.busLog := rfl
@[simp] theorem finish_port (r : Return) : (s.finish r).port = .returned r := rfl
@[simp] theorem finish_cont (r : Return) : (s.finish r).cont = .none := rfl
@[simp] theorem finish_agenda (r : Return) : (s.finish r).agenda = s.agenda := rfl
@[simp] theorem finish_outcomes (r : Return) : (s.finish r).outcomes = s.outcomes := rfl
@[simp] theorem finish_errDraws (r : Return) : (s.finish r).errDraws = s.errDraws := rfl
@[simp] theorem finish_fresh (r : Return) : (s.finish r).fresh = s.fresh := rfl
@[simp] theorem finish_chan (r : Return) (c' : Nat) : (s.finish r).chan c' = s.chan c' := rfl

/-! ### `presentWord` -/

@[simp] theorem presentWord_cfg (nbits w : Nat) : (s.presentWord nbits w).cfg = s.cfg := rfl
@[simp] theorem presentWord_channels (nbits w : Nat) : (s.presentWord nbits w).channels = s.channels := rfl
@[simp] theorem presentWord_hung (nbits w : Nat) : (s.presentWord nbits w).hung = s.hung := rfl
@[simp] theorem presentWord_busLog (nbits w : Nat) : (s.presentWord nbits w).busLog = s.busLog := rfl
@[simp] theorem presentWord_port (nbits w : Nat) : (s.presentWord nbits w).port = s.port := rfl
@[simp] theorem presentWord_cont (nbits w : Nat) : (s.presentWord nbits w).cont = .none := rfl
@[simp] theorem presentWord_agenda (nbits w : Nat) : (s.presentWord nbits w).agenda = .issue (.word nbits w) :: s.agenda := rfl
@[simp] theorem presentWord_outcomes (nbits w : Nat) : (s.presentWord nbits w).outcomes = s.outcomes := rfl
@[simp] theorem presentWord_errDraws (nbits w : Nat) : (s.presentWord nbits w).errDraws = s.errDraws := rfl
@[simp] theorem presentWord_fresh (nbits w : Nat) : (s.presentWord nbits w).fresh = s.fresh := rfl
@[simp] theorem presentWord_chan (nbits w : Nat) (c' : Nat) : (s.presentWord nbits w).chan c' = s.chan c' := rfl

/-! ### `sentToReadWindow` -/

@[simp] theorem sentToReadWindow_eq (w : WindowName) (bytes : List Byte) : s.sentToReadWindow w bytes = s := rfl

/-! ### The draws: only `errDraws` and `fresh` move -/

@[simp] theorem useErrDraw_cfg : s.useErrDraw.cfg = s.cfg := by
  unfold State.useErrDraw; split <;> rfl

@[simp] theorem useErrDraw_channels : s.useErrDraw.channels = s.channels := by
  unfold State.useErrDraw; split <;> rfl

@[simp] theorem useErrDraw_hung : s.useErrDraw.hung = s.hung := by
  unfold State.useErrDraw; split <;> rfl

@[simp] theorem useErrDraw_busLog : s.useErrDraw.busLog = s.busLog := by
  unfold State.useErrDraw; split <;> rfl

@[simp] theorem useErrDraw_port : s.useErrDraw.port = s.port := by
  unfold State.useErrDraw; split <;> rfl

@[simp] theorem useErrDraw_cont : s.useErrDraw.cont = s.cont := by
  unfold State.useErrDraw; split <;> rfl

@[simp] theorem useErrDraw_agenda : s.useErrDraw.agenda = s.agenda := by
  unfold State.useErrDraw; split <;> rfl

@[simp] theorem useErrDraw_outcomes : s.useErrDraw.outcomes = s.outcomes := by
  unfold State.useErrDraw; split <;> rfl

@[simp] theorem useErrDraw_chan (c' : Nat) : s.useErrDraw.chan c' = s.chan c' := by
  simp [State.chan]

@[simp] theorem useRxDraw_cfg {n : Nat} (w : Content n) : (s.useRxDraw w).cfg = s.cfg := by
  cases w <;> rfl

@[simp] theorem useRxDraw_channels {n : Nat} (w : Content n) : (s.useRxDraw w).channels = s.channels := by
  cases w <;> rfl

@[simp] theorem useRxDraw_hung {n : Nat} (w : Content n) : (s.useRxDraw w).hung = s.hung := by
  cases w <;> rfl

@[simp] theorem useRxDraw_busLog {n : Nat} (w : Content n) : (s.useRxDraw w).busLog = s.busLog := by
  cases w <;> rfl

@[simp] theorem useRxDraw_port {n : Nat} (w : Content n) : (s.useRxDraw w).port = s.port := by
  cases w <;> rfl

@[simp] theorem useRxDraw_cont {n : Nat} (w : Content n) : (s.useRxDraw w).cont = s.cont := by
  cases w <;> rfl

@[simp] theorem useRxDraw_agenda {n : Nat} (w : Content n) : (s.useRxDraw w).agenda = s.agenda := by
  cases w <;> rfl

@[simp] theorem useRxDraw_outcomes {n : Nat} (w : Content n) : (s.useRxDraw w).outcomes = s.outcomes := by
  cases w <;> rfl

@[simp] theorem useRxDraw_errDraws {n : Nat} (w : Content n) : (s.useRxDraw w).errDraws = s.errDraws := by
  cases w <;> rfl

@[simp] theorem useRxDraw_chan {n : Nat} (w : Content n) (c' : Nat) : (s.useRxDraw w).chan c' = s.chan c' := by
  simp [State.chan]

/-- A scripted draw is the head of the script. -/
theorem errDraw_cons {d : Bool} {ds : List Bool} (h : s.errDraws = d :: ds) : s.errDraw = d := by
  simp [State.errDraw, h]

theorem useErrDraw_cons {d : Bool} {ds : List Bool} (h : s.errDraws = d :: ds) :
    s.useErrDraw = { s with errDraws := ds } := by
  simp [State.useErrDraw, h]

@[simp] theorem receivedBytes_image {n : Nat} (b : Image n) : receivedBytes s (.image b) = b := rfl

@[simp] theorem useRxDraw_image {n : Nat} (b : Image n) : s.useRxDraw (.image b) = s := rfl

/-! ### Channels -/

/-- A write of channel `c < N` is read back. -/
@[simp] theorem setChan_chan_same {c : Nat} (h : c < s.N) (ch : Channel) : (s.setChan c ch).chan c = ch := by
  simp [State.chan, State.setChan, List.getD, h]

/-- A write of one channel leaves every other alone. -/
theorem setChan_chan_ne {c c' : Nat} (h : c' ≠ c) (ch : Channel) : (s.setChan c ch).chan c' = s.chan c' := by
  simp [State.chan, State.setChan, List.getD, Ne.symm h]

/-- The channel count never changes by a write. -/
theorem setChan_N (c : Nat) (ch : Channel) : (s.setChan c ch).N = s.N := by
  simp [State.N]

/-- A channel that exists is one of the list. -/
theorem chan_mem {c : Nat} (h : c < s.N) : s.chan c ∈ s.channels := by
  simp [State.chan, List.getD, h]

/-- What holds of every channel and of the new one holds of every channel after a write. -/
theorem forall_mem_setChan {P : Channel → Prop} {c : Nat} {ch : Channel} (h : ∀ x, x ∈ s.channels → P x) (hc : P ch) :
    ∀ x, x ∈ (s.setChan c ch).channels → P x := by
  intro x hx
  rcases List.mem_or_eq_of_mem_set hx with hx | rfl
  · exact h x hx
  · exact hc

@[simp] theorem resetWith_channels (cfg : Config) (n : Nat) :
    (State.resetWith cfg n).channels = List.replicate n Channel.reset := rfl

/-- After reset every channel is at its reset value. -/
@[simp] theorem resetWith_chan (cfg : Config) (n c : Nat) : (State.resetWith cfg n).chan c = Channel.reset := by
  simp only [State.chan, resetWith_channels, List.getD, List.getElem?_replicate]
  split <;> rfl

end Sys2Proof.Machine
end

