-- ==== Sys2Proof/Laws/Ops.lean ====
section
/-! SUPPORT. Once for each shared operation, everything it can do: the admission checks, a write transfer, a combined
transfer, and a part of a pseudo-operation. -/

namespace Sys2Proof.Machine

/-! ### Admission (40_write_ops.md R110) -/

/-- The four checks in their order. -/
theorem admission_eq_admitted {permit : Seq → Bool} {d : Bool} {c : Nat} {s : State} :
    admission permit d c s = .admitted ↔ s.hung = false ∧ c < s.N ∧ permit (s.chan c).seq = true ∧ d = true := by
  unfold admission
  cases hh : s.hung <;> by_cases hc : s.N ≤ c <;> cases hp : permit (s.chan c).seq <;> cases d <;>
    (simp [hc]; try omega)

theorem admission_eq_stuck {permit : Seq → Bool} {d : Bool} {c : Nat} {s : State} :
    admission permit d c s = .stuck ↔ s.hung = true := by
  unfold admission
  cases hh : s.hung <;> by_cases hc : s.N ≤ c <;> cases hp : permit (s.chan c).seq <;> cases d <;> simp [hc]

/-- A refusal names the first check that fails. -/
theorem admission_eq_refuse {permit : Seq → Bool} {d : Bool} {c : Nat} {s : State} {r : Return} :
    admission permit d c s = .refuse r ↔
      s.hung = false ∧
        ((s.N ≤ c ∧ r = .badChannel) ∨
          (c < s.N ∧ permit (s.chan c).seq = false ∧ r = .seqViolation) ∨
          (c < s.N ∧ permit (s.chan c).seq = true ∧ d = false ∧ r = .rangeFault)) := by
  unfold admission
  cases hh : s.hung <;> by_cases hc : s.N ≤ c <;> cases hp : permit (s.chan c).seq <;> cases d <;>
    simp [hc, eq_comm] <;> omega

/-- A refusal is never a success or a fault of the transport. -/
theorem admission_refuse_kind {permit : Seq → Bool} {d : Bool} {c : Nat} {s : State} {r : Return}
    (h : admission permit d c s = .refuse r) : r = .badChannel ∨ r = .seqViolation ∨ r = .rangeFault := by
  rcases (admission_eq_refuse.1 h).2 with ⟨_, h⟩ | ⟨_, _, h⟩ | ⟨_, _, _, h⟩ <;> simp [h]

/-! ### A write operation -/

/-- The record a write operation leaves on the bus. -/
abbrev writeRecord (s : State) (c : Nat) (w : WindowName) (tx : List Byte) (o : XferOutcome) : BusRecord :=
  { address := addr s.cfg c w, length := w.len, tx := some tx, rx := none, outcome := o }

/-- Everything a write operation can do when it answers a next state: a refusal, or one transfer with its outcome. -/
theorem writeOp_next {permit : Seq → Bool} {d : Bool} {c : Nat} {w : WindowName} {tx : List Byte}
    {onOk onLoss : Channel → Channel} {s t : State} (h : writeOp permit d c w tx onOk onLoss s = .next t) :
    (∃ r, admission permit d c s = .refuse r ∧ t = s.answer r) ∨
    (admission permit d c s = .admitted ∧ s.nextOutcome = .ok ∧
      t = ((s.logTransfer (writeRecord s c w tx .ok)).setChan c (onOk (s.chan c))).answer (.ok .done)) ∨
    (admission permit d c s = .admitted ∧ s.nextOutcome = .fault ∧
      t = ((s.logTransfer (writeRecord s c w tx .fault)).setChan c (onLoss (s.chan c))).answer .transportFault) ∨
    (admission permit d c s = .admitted ∧ s.nextOutcome = .hang ∧
      t = ((s.logTransfer (writeRecord s c w tx .hang)).setChan c (onLoss (s.chan c))).hangUp) := by
  unfold writeOp at h
  cases ha : admission permit d c s with
  | stuck => simp [ha] at h
  | refuse r => simp only [ha, Host.Outcome.next.injEq] at h; exact .inl ⟨r, rfl, h.symm⟩
  | admitted =>
    cases ho : s.nextOutcome with
    | ok => exact .inr (.inl ⟨rfl, rfl, by simpa [ha, ho] using h.symm⟩)
    | fault => exact .inr (.inr (.inl ⟨rfl, rfl, by simpa [ha, ho] using h.symm⟩))
    | hang => exact .inr (.inr (.inr ⟨rfl, rfl, by simpa [ha, ho] using h.symm⟩))

/-- A write operation stops exactly when the block is stuck. -/
theorem writeOp_fault {permit : Seq → Bool} {d : Bool} {c : Nat} {w : WindowName} {tx : List Byte}
    {onOk onLoss : Channel → Channel} {s : State} :
    writeOp permit d c w tx onOk onLoss s = .fault .blockHung ↔ s.hung = true := by
  rw [← admission_eq_stuck (permit := permit) (d := d) (c := c)]
  unfold writeOp
  cases ha : admission permit d c s with
  | stuck => simp
  | refuse r => simp
  | admitted => cases ho : s.nextOutcome <;> simp

/-! ### A read operation -/

/-- The record a read operation leaves on the bus. -/
abbrev readRecord (s : State) (c : Nat) (w : WindowName) (tx : List Byte) (rx : Option (List Byte))
    (o : XferOutcome) : BusRecord :=
  { address := addr s.cfg c w, length := w.len, tx := some tx, rx := rx, outcome := o }

/-- Everything a read operation can do when it answers a next state. -/
theorem readOp_next {n : Nat} {permit : Seq → Bool} {c : Nat} {w : WindowName} {tx : List Byte}
    {window : Channel → Content n} {unpack : Image n → Value} {s t : State}
    (h : readOp permit c w tx window unpack s = .next t) :
    (∃ r, admission permit true c s = .refuse r ∧ t = s.answer r) ∨
    (admission permit true c s = .admitted ∧ s.nextOutcome = .ok ∧
      t = ((s.logTransfer (readRecord s c w tx (some (receivedBytes s (window (s.chan c))).toList) .ok)).useRxDraw
          (window (s.chan c))).answer
        (.ok (unpack (receivedBytes s (window (s.chan c)))))) ∨
    (admission permit true c s = .admitted ∧ s.nextOutcome = .fault ∧
      t = (s.logTransfer (readRecord s c w tx none .fault)).answer .transportFault) ∨
    (admission permit true c s = .admitted ∧ s.nextOutcome = .hang ∧
      t = (s.logTransfer (readRecord s c w tx none .hang)).hangUp) := by
  unfold readOp at h
  cases ha : admission permit true c s with
  | stuck => simp [ha] at h
  | refuse r => simp only [ha, Host.Outcome.next.injEq] at h; exact .inl ⟨r, rfl, h.symm⟩
  | admitted =>
    cases ho : s.nextOutcome with
    | ok => exact .inr (.inl ⟨rfl, rfl, by simpa [ha, ho] using h.symm⟩)
    | fault => exact .inr (.inr (.inl ⟨rfl, rfl, by simpa [ha, ho] using h.symm⟩))
    | hang => exact .inr (.inr (.inr ⟨rfl, rfl, by simpa [ha, ho] using h.symm⟩))

/-- A read operation stops exactly when the block is stuck. -/
theorem readOp_fault {n : Nat} {permit : Seq → Bool} {c : Nat} {w : WindowName} {tx : List Byte}
    {window : Channel → Content n} {unpack : Image n → Value} {s : State} :
    readOp permit c w tx window unpack s = .fault .blockHung ↔ s.hung = true := by
  rw [← admission_eq_stuck (permit := permit) (d := true) (c := c)]
  unfold readOp
  cases ha : admission permit true c s with
  | stuck => simp
  | refuse r => simp
  | admitted => cases ho : s.nextOutcome <;> simp

/-! ### STATUS_READ, the constant images and the events -/

/-- Everything STATUS_READ can do (41_read_ops.md R146). -/
theorem execStatusRead_next {c : Nat} {s t : State} (h : execStatusRead c s = .next t) :
    (∃ r, admission permitStatusRead true c s = .refuse r ∧ t = s.answer r) ∨
    (admission permitStatusRead true c s = .admitted ∧ t = s.answer (.ok (.status (s.chan c).err))) := by
  unfold execStatusRead at h
  cases ha : admission permitStatusRead true c s with
  | stuck => simp [ha] at h
  | refuse r => simp only [ha, Host.Outcome.next.injEq] at h; exact .inl ⟨r, rfl, h.symm⟩
  | admitted => simp only [ha, Host.Outcome.next.injEq] at h; exact .inr ⟨rfl, h.symm⟩

theorem transmitOnly_next {w : WindowName} {tx : List Byte} {s t : State} (h : transmitOnly w tx s = .next t) :
    s.hung = false ∧ t = s := by
  unfold transmitOnly at h
  cases hh : s.hung <;> simp_all

theorem execPeriodIrq_next {c : Nat} {corr : CorrImage} {phase : PhaseImage} {s t : State}
    (h : execPeriodIrq c corr phase s = .next t) :
    c < s.N ∧ t = (if needsErrDraw (s.chan c) then s.useErrDraw else s).setChan c
      ((s.chan c).periodEnded corr phase s.errDraw) := by
  unfold execPeriodIrq at h
  by_cases hc : s.N ≤ c
  · simp [hc] at h
  · simp only [hc, if_false, Host.Outcome.next.injEq] at h
    exact ⟨by omega, h.symm⟩

theorem execStrobeFall_next {c : Nat} {s t : State} (h : execStrobeFall c s = .next t) :
    c < s.N ∧ t = s.setChan c (s.chan c).strobed := by
  unfold execStrobeFall at h
  by_cases hc : s.N ≤ c
  · simp [hc] at h
  · simp only [hc, if_false, Host.Outcome.next.injEq] at h
    exact ⟨by omega, h.symm⟩

/-! ### A part of a pseudo-operation (30_encoding.md R97) -/

/-- Everything a part can do: it ran to `u`, and either returned OK and goes on, or ends the pseudo-operation. -/
theorem afterPart_next {o : Host.Outcome State Fault Refusal} {k : Value → State → State} {t : State}
    (h : afterPart o k = .next t) :
    ∃ u, o = .next u ∧
      ((∃ v, u.port = .returned (.ok v) ∧ t = k v u) ∨
        ((∀ v, u.port ≠ .returned (.ok v)) ∧ t = u.continueAt .none)) := by
  cases o with
  | fault f => simp [afterPart] at h
  | refused r => simp [afterPart] at h
  | next u =>
    refine ⟨u, rfl, ?_⟩
    cases hp : u.port with
    | empty => exact .inr ⟨nofun, by simpa [afterPart, hp, State.continueAt] using h.symm⟩
    | returned r =>
      cases r with
      | ok v => exact .inl ⟨v, rfl, by simpa [afterPart, hp] using h.symm⟩
      | transportFault => exact .inr ⟨nofun, by simpa [afterPart, hp, State.continueAt] using h.symm⟩
      | rangeFault => exact .inr ⟨nofun, by simpa [afterPart, hp, State.continueAt] using h.symm⟩
      | seqViolation => exact .inr ⟨nofun, by simpa [afterPart, hp, State.continueAt] using h.symm⟩
      | badChannel => exact .inr ⟨nofun, by simpa [afterPart, hp, State.continueAt] using h.symm⟩

/-- Keeping SERVICE's first result touches nothing but the caller's place. -/
theorem keepCorr_eq (s : State) (c : Nat) (f r : Int) (v : Value) : ∃ k, s.keepCorr c f r v = s.continueAt k := by
  cases v <;> exact ⟨_, rfl⟩

theorem keepPhase_eq (s : State) (c : Nat) (f r : Int) (x : CorrResult) (v : Value) :
    ∃ k, s.keepPhase c f r x v = s.continueAt k := by
  cases v <;> exact ⟨_, rfl⟩

end Sys2Proof.Machine
end

