-- ==== Sys2Proof/Laws/Steps.lean ====
section
/-! SUPPORT. Once for the whole machine, everything an instruction and a step can do: `exec_next` for an instruction,
`resumePart_next` for the next part of a pseudo-operation, `step_next` for a step. Later proofs go through these and
unfold no meaning. -/

namespace Sys2Proof.Machine

/-- What one operation can make of its channel, with the admission that lets it (42_sequencer.md R161). -/
inductive OpChan (ch : Channel) : Channel → Prop
  | same : OpChan ch ch
  | codeLoaded (b : CodeImage) (h : permitCodeLoad ch.seq = true) : OpChan ch (ch.codeLoaded b)
  | codeLost (h : permitCodeLoad ch.seq = true) : OpChan ch ch.codeLost
  | initWritten (x y z : Int) (h : permitInitWrite ch.seq = true) : OpChan ch (ch.initWritten (packInit x y z))
  | initLost (h : permitInitWrite ch.seq = true) : OpChan ch ch.initLost
  | updateWritten (x y : Int) (h : permitUpdateWrite ch.seq = true) : OpChan ch (ch.updateWritten (packUpdate x y))
  | updateLost (h : permitUpdateWrite ch.seq = true) : OpChan ch ch.updateLost

/-- No operation touches the flags, the result windows or the latch log of its channel (42_sequencer.md R163, R164). -/
theorem OpChan.kept {ch ch' : Channel} (h : OpChan ch ch') :
    ch'.err = ch.err ∧ ch'.stale = ch.stale ∧ ch'.corr = ch.corr ∧ ch'.phase = ch.phase ∧ ch'.latch = ch.latch := by
  cases h <;> exact ⟨rfl, rfl, rfl, rfl, rfl⟩

/-- An operation that is one operation and no pseudo-operation, of a channel. -/
def IsPart : Instr → Bool
  | .codeLoad _ _ => true
  | .initWrite _ _ _ _ => true
  | .updateWrite _ _ _ => true
  | .corrRead _ => true
  | .phaseRead _ => true
  | .statusRead _ => true
  | .corrReadTx => false
  | .phaseReadTx => false
  | .periodIrq _ _ _ => false
  | .strobeFall _ => false
  | .reset => false
  | .arm _ _ _ _ _ _ => false
  | .service _ _ _ => false

/-- What one operation of channel `c` can do to the state: it is answered without a transfer, or it attempts one transfer
and is answered, or hangs. -/
inductive OpStep (c : Nat) (s : State) : State → Prop
  | refused (r : Return) (hh : s.hung = false) (hr : r = .badChannel ∨ r = .seqViolation ∨ r = .rangeFault) :
      OpStep c s (s.answer r)
  | status (hh : s.hung = false) (hc : c < s.N) : OpStep c s (s.answer (.ok (.status (s.chan c).err)))
  | transferred (r : BusRecord) (ch : Channel) (n : Nat) (v : Value) (hh : s.hung = false) (hc : c < s.N)
      (hl : r.Legal s.cfg s.N) (hch : OpChan (s.chan c) ch) (ho : s.nextOutcome = .ok) (hr : r.outcome = .ok) :
      OpStep c s { s with channels := s.channels.set c ch, busLog := s.busLog ++ [r], outcomes := s.outcomes.tail,
                          fresh := n, port := .returned (.ok v) }
  | faulted (r : BusRecord) (ch : Channel) (hh : s.hung = false) (hc : c < s.N)
      (hl : r.Legal s.cfg s.N) (hch : OpChan (s.chan c) ch) (ho : s.nextOutcome = .fault) (hr : r.outcome = .fault) :
      OpStep c s { s with channels := s.channels.set c ch, busLog := s.busLog ++ [r], outcomes := s.outcomes.tail,
                          port := .returned .transportFault }
  | hung (r : BusRecord) (ch : Channel) (hh : s.hung = false) (hc : c < s.N)
      (hl : r.Legal s.cfg s.N) (hch : OpChan (s.chan c) ch) (ho : s.nextOutcome = .hang) (hr : r.outcome = .hang) :
      OpStep c s { s with channels := s.channels.set c ch, busLog := s.busLog ++ [r], outcomes := s.outcomes.tail,
                          port := .empty, hung := true }

/-- Writing back what a channel holds changes nothing. -/
theorem set_chan_self {s : State} {c : Nat} (h : c < s.N) : s.channels.set c (s.chan c) = s.channels := by
  refine List.ext_getElem (by simp) fun i h1 h2 => ?_
  rw [List.getElem_set]
  split
  · next e => subst e; simp [State.chan, List.getD, h]
  · rfl

/-- The reserved bits of a packed INIT image are zero. -/
theorem packInit_reserved (x y z : Int) : initReservedZero (packInit x y z) = true := by
  have := packInit_byte0 x y z
  simp only [initReservedZero, decide_eq_true_eq]; omega

/-- The reserved bits of a packed UPDATE image are zero. -/
theorem packUpdate_reserved (x y : Int) : updateReservedZero (packUpdate x y) = true := by
  have := packUpdate_byte0 x y
  simp only [updateReservedZero, decide_eq_true_eq]; omega

/-- A write operation whose records are legal and whose effects are channel steps is an operation step. -/
theorem writeOp_opStep {permit : Seq → Bool} {d : Bool} {c : Nat} {w : WindowName} {tx : List Byte}
    {onOk onLoss : Channel → Channel} {s t : State}
    (hl : ∀ o, c < s.N → d = true → (writeRecord s c w tx o).Legal s.cfg s.N)
    (hok : permit (s.chan c).seq = true → OpChan (s.chan c) (onOk (s.chan c)))
    (hloss : permit (s.chan c).seq = true → OpChan (s.chan c) (onLoss (s.chan c)))
    (h : writeOp permit d c w tx onOk onLoss s = .next t) : OpStep c s t := by
  rcases writeOp_next h with ⟨r, ha, rfl⟩ | ⟨ha, ho, rfl⟩ | ⟨ha, ho, rfl⟩ | ⟨ha, ho, rfl⟩
  · exact .refused r (admission_eq_refuse.1 ha).1 (admission_refuse_kind ha)
  all_goals obtain ⟨hh, hc, hp, hd⟩ := admission_eq_admitted.1 ha
  · exact .transferred _ _ s.fresh _ hh hc (hl _ hc hd) (hok hp) ho rfl
  · exact .faulted _ _ hh hc (hl _ hc hd) (hloss hp) ho rfl
  · exact .hung _ _ hh hc (hl _ hc hd) (hloss hp) ho rfl

/-- A read operation whose records are legal is an operation step that leaves its channel alone. -/
theorem readOp_opStep {n : Nat} {permit : Seq → Bool} {c : Nat} {w : WindowName} {tx : List Byte}
    {window : Channel → Content n} {unpack : Image n → Value} {s t : State}
    (hok : ∀ b : Image n, c < s.N → (readRecord s c w tx (some b.toList) .ok).Legal s.cfg s.N)
    (hno : ∀ o, o ≠ .ok → c < s.N → (readRecord s c w tx none o).Legal s.cfg s.N)
    (h : readOp permit c w tx window unpack s = .next t) : OpStep c s t := by
  rcases readOp_next h with ⟨r, ha, rfl⟩ | ⟨ha, ho, rfl⟩ | ⟨ha, ho, rfl⟩ | ⟨ha, ho, rfl⟩
  · exact .refused r (admission_eq_refuse.1 ha).1 (admission_refuse_kind ha)
  all_goals obtain ⟨hh, hc, -, -⟩ := admission_eq_admitted.1 ha
  · have := OpStep.transferred (s := s) (c := c) _ _
      (s.useRxDraw (window (s.chan c))).fresh (unpack (receivedBytes s (window (s.chan c)))) hh hc
      (hok (receivedBytes s (window (s.chan c))) hc) .same ho rfl
    rw [set_chan_self hc] at this
    cases hw : window (s.chan c) with
    | undef => rw [hw] at this; exact this
    | image b => rw [hw] at this; exact this
  · have := OpStep.faulted (s := s) (c := c) _ _ hh hc (hno .fault (by decide) hc) .same ho rfl
    rwa [set_chan_self hc] at this
  · have := OpStep.hung (s := s) (c := c) _ _ hh hc (hno .hang (by decide) hc) .same ho rfl
    rwa [set_chan_self hc] at this

theorem execCodeLoad_opStep {c : Nat} {prn : Int} {s t : State} (h : execCodeLoad c prn s = .next t) : OpStep c s t :=
  writeOp_opStep (fun _ hc hd => ⟨c, .code, hc, rfl, rfl, rfl, prn.toNat,
    by have := of_decide_eq_true hd; omega, rfl⟩) (.codeLoaded _) .codeLost h

theorem execInitWrite_opStep {c : Nat} {x y z : Int} {s t : State} (h : execInitWrite c x y z s = .next t) :
    OpStep c s t :=
  writeOp_opStep (fun _ hc _ => ⟨c, .init, hc, rfl, rfl, rfl, _, rfl, packInit_reserved x y z⟩)
    (.initWritten x y z) .initLost h

theorem execUpdateWrite_opStep {c : Nat} {x y : Int} {s t : State} (h : execUpdateWrite c x y s = .next t) :
    OpStep c s t :=
  writeOp_opStep (fun _ hc _ => ⟨c, .update, hc, rfl, rfl, rfl, _, rfl, packUpdate_reserved x y⟩)
    (.updateWritten x y) .updateLost h

theorem execCorrRead_opStep {c : Nat} {s t : State} (h : execCorrRead c s = .next t) : OpStep c s t :=
  readOp_opStep (fun b hc => ⟨c, .corr, hc, rfl, rfl, rfl, by rw [if_pos rfl]; exact ⟨b, rfl⟩⟩)
    (fun o ho hc => ⟨c, .corr, hc, rfl, rfl, rfl, by rw [if_neg ho]⟩) h

theorem execPhaseRead_opStep {c : Nat} {s t : State} (h : execPhaseRead c s = .next t) : OpStep c s t :=
  readOp_opStep (fun b hc => ⟨c, .phase, hc, rfl, rfl, rfl, by rw [if_pos rfl]; exact ⟨b, rfl⟩⟩)
    (fun o ho hc => ⟨c, .phase, hc, rfl, rfl, rfl, by rw [if_neg ho]⟩) h

theorem execStatusRead_opStep {c : Nat} {s t : State} (h : execStatusRead c s = .next t) : OpStep c s t := by
  rcases execStatusRead_next h with ⟨r, ha, rfl⟩ | ⟨ha, rfl⟩
  · exact .refused r (admission_eq_refuse.1 ha).1 (admission_refuse_kind ha)
  · exact .status (admission_eq_admitted.1 ha).1 (admission_eq_admitted.1 ha).2.1

/-- Everything one operation can do. -/
theorem part_next {i : Instr} {c : Nat} {s t : State} (hp : IsPart i = true) (hc : i.channel = some c)
    (h : exec i s = .next t) : OpStep c s t := by
  cases i <;> simp only [IsPart, Bool.false_eq_true] at hp <;> obtain rfl : _ = c := Option.some.inj hc
  · exact execCodeLoad_opStep h
  · exact execInitWrite_opStep h
  · exact execUpdateWrite_opStep h
  · exact execCorrRead_opStep h
  · exact execPhaseRead_opStep h
  · exact execStatusRead_opStep h

/-- Everything an instruction can do when it answers a next state: one operation of its channel, with the caller's place
moved if it is a pseudo-operation; the empty transmit half of a read; a period boundary; a strobe; or reset. -/
theorem exec_next {i : Instr} {s t : State} (h : exec i s = .next t) :
    (∃ c u, i.channel = some c ∧ i.isEvent = false ∧ OpStep c s u ∧ (t = u ∨ ∃ k, t = u.continueAt k)) ∨
    ((i = .corrReadTx ∨ i = .phaseReadTx) ∧ s.hung = false ∧ t = s) ∨
    (∃ c corr phase, i = .periodIrq c corr phase ∧ c < s.N ∧
      t = (if needsErrDraw (s.chan c) then s.useErrDraw else s).setChan c
        ((s.chan c).periodEnded corr phase s.errDraw)) ∨
    (∃ c, i = .strobeFall c ∧ c < s.N ∧ t = s.setChan c (s.chan c).strobed) ∨
    (i = .reset ∧ t = { s with channels := s.channels.map fun _ => Channel.reset, hung := false, busLog := [] }) := by
  cases i with
  | codeLoad c _ => exact .inl ⟨c, t, rfl, rfl, part_next rfl rfl h, .inl rfl⟩
  | initWrite c _ _ _ => exact .inl ⟨c, t, rfl, rfl, part_next rfl rfl h, .inl rfl⟩
  | updateWrite c _ _ => exact .inl ⟨c, t, rfl, rfl, part_next rfl rfl h, .inl rfl⟩
  | corrRead c => exact .inl ⟨c, t, rfl, rfl, part_next rfl rfl h, .inl rfl⟩
  | phaseRead c => exact .inl ⟨c, t, rfl, rfl, part_next rfl rfl h, .inl rfl⟩
  | statusRead c => exact .inl ⟨c, t, rfl, rfl, part_next rfl rfl h, .inl rfl⟩
  | corrReadTx => exact .inr (.inl ⟨.inl rfl, transmitOnly_next h⟩)
  | phaseReadTx => exact .inr (.inl ⟨.inr rfl, transmitOnly_next h⟩)
  | periodIrq c corr phase => exact .inr (.inr (.inl ⟨c, corr, phase, rfl, execPeriodIrq_next h⟩))
  | strobeFall c => exact .inr (.inr (.inr (.inl ⟨c, rfl, execStrobeFall_next h⟩)))
  | reset => exact .inr (.inr (.inr (.inr ⟨rfl, (Host.Outcome.next.inj h).symm⟩)))
  | arm c _ _ _ _ _ =>
    obtain ⟨u, hu, ⟨v, -, rfl⟩ | ⟨-, rfl⟩⟩ := afterPart_next h
    · exact .inl ⟨c, u, rfl, rfl, execCodeLoad_opStep hu, .inr ⟨_, rfl⟩⟩
    · exact .inl ⟨c, u, rfl, rfl, execCodeLoad_opStep hu, .inr ⟨_, rfl⟩⟩
  | service c _ _ =>
    obtain ⟨u, hu, ⟨v, -, rfl⟩ | ⟨-, rfl⟩⟩ := afterPart_next h
    · exact .inl ⟨c, u, rfl, rfl, execCorrRead_opStep hu, .inr (keepCorr_eq _ _ _ _ _)⟩
    · exact .inl ⟨c, u, rfl, rfl, execCorrRead_opStep hu, .inr ⟨_, rfl⟩⟩

/-- Everything the next part of a pseudo-operation can do: nothing if there is none; else one operation, after which the
caller's place moves and the port may show the pseudo-operation's own result. -/
theorem resumePart_next {s t : State} (h : resumePart s = .next t) :
    t = s ∨ ∃ c u, OpStep c s u ∧ ((∃ k, t = u.continueAt k) ∨ ∃ v r, u.port = .returned (.ok v) ∧ t = u.finish r) := by
  unfold resumePart at h
  split at h
  · exact .inl (Host.Outcome.next.inj h).symm
  · obtain ⟨u, hu, ⟨v, -, rfl⟩ | ⟨-, rfl⟩⟩ := afterPart_next h
    · exact .inr ⟨_, u, execInitWrite_opStep hu, .inl ⟨_, rfl⟩⟩
    · exact .inr ⟨_, u, execInitWrite_opStep hu, .inl ⟨_, rfl⟩⟩
  · obtain ⟨u, hu, ⟨v, hv, rfl⟩ | ⟨-, rfl⟩⟩ := afterPart_next h
    · exact .inr ⟨_, u, execUpdateWrite_opStep hu, .inr ⟨v, _, hv, rfl⟩⟩
    · exact .inr ⟨_, u, execUpdateWrite_opStep hu, .inl ⟨_, rfl⟩⟩
  · obtain ⟨u, hu, ⟨v, -, rfl⟩ | ⟨-, rfl⟩⟩ := afterPart_next h
    · exact .inr ⟨_, u, execPhaseRead_opStep hu, .inl (keepPhase_eq _ _ _ _ _ _)⟩
    · exact .inr ⟨_, u, execPhaseRead_opStep hu, .inl ⟨_, rfl⟩⟩
  · obtain ⟨u, hu, ⟨v, hv, rfl⟩ | ⟨-, rfl⟩⟩ := afterPart_next h
    · exact .inr ⟨_, u, execUpdateWrite_opStep hu, .inr ⟨v, _, hv, rfl⟩⟩
    · exact .inr ⟨_, u, execUpdateWrite_opStep hu, .inl ⟨_, rfl⟩⟩

/-- A step is a turn in a configuration without aliasing windows. -/
theorem step_runTurn {s t : State} (h : step s = .next t) : addrsDistinct s.cfg s.N = true ∧ runTurn s = .next t := by
  unfold step takeTurn at h
  split at h
  · next hd => exact ⟨hd, h⟩
  · cases h

/-- A step is one instruction, or the next part of a pseudo-operation, taken with some agenda left. -/
theorem step_next {s t : State} (h : step s = .next t) :
    ∃ a, (∃ i, exec i { s with agenda := a } = .next t) ∨ resumePart { s with agenda := a } = .next t := by
  replace h := (step_runTurn h).2
  unfold runTurn at h
  split at h
  · exact ⟨s.agenda, .inr h⟩
  · next rest _ => exact ⟨rest, .inr h⟩
  · next f rest _ =>
    split at h
    · cases h
    · next i _ =>
      split at h
      · exact ⟨rest, .inl ⟨i, h⟩⟩
      · exact ⟨s.agenda, .inr h⟩

/-- The channels of a state whose list is another's with channel `c` replaced. -/
theorem chan_of_set {s t : State} {c : Nat} {ch : Channel} (hc : c < s.N) (h : t.channels = s.channels.set c ch) :
    t.chan c = ch ∧ ∀ c', c' ≠ c → t.chan c' = s.chan c' := by
  refine ⟨by simp [State.chan, h, List.getD, hc], fun c' hne => ?_⟩
  simp [State.chan, h, List.getD, Ne.symm hne]

/-- What an operation step makes of every channel. -/
theorem OpStep.chan {c : Nat} {s t : State} (h : OpStep c s t) :
    OpChan (s.chan c) (t.chan c) ∧ ∀ c', c' ≠ c → t.chan c' = s.chan c' := by
  cases h with
  | refused r hh hr => exact ⟨.same, fun _ _ => rfl⟩
  | status hh hc => exact ⟨.same, fun _ _ => rfl⟩
  | transferred r ch n v hh hc hl hch ho hr =>
    refine And.imp (fun e => ?_) (fun e => e) (chan_of_set (s := s) (ch := ch) hc ?_)
    · rw [e]; exact hch
    · rfl
  | faulted r ch hh hc hl hch ho hr =>
    refine And.imp (fun e => ?_) (fun e => e) (chan_of_set (s := s) (ch := ch) hc ?_)
    · rw [e]; exact hch
    · rfl
  | hung r ch hh hc hl hch ho hr =>
    refine And.imp (fun e => ?_) (fun e => e) (chan_of_set (s := s) (ch := ch) hc ?_)
    · rw [e]; exact hch
    · rfl

/-- What an operation step never touches, in any channel. -/
theorem OpStep.kept {c : Nat} {s t : State} (h : OpStep c s t) (c' : Nat) :
    (t.chan c').err = (s.chan c').err ∧ (t.chan c').stale = (s.chan c').stale ∧ (t.chan c').corr = (s.chan c').corr ∧
    (t.chan c').phase = (s.chan c').phase ∧ (t.chan c').latch = (s.chan c').latch := by
  by_cases e : c' = c
  · subst e; exact h.chan.1.kept
  · rw [h.chan.2 c' e]; exact ⟨rfl, rfl, rfl, rfl, rfl⟩

/-- An operation step keeps the configuration, the channel count, the caller's place and what is scripted for the engine. -/
theorem OpStep.fixed {c : Nat} {s t : State} (h : OpStep c s t) :
    t.cfg = s.cfg ∧ t.N = s.N ∧ t.cont = s.cont ∧ t.agenda = s.agenda ∧ t.errDraws = s.errDraws := by
  cases h <;> simp [State.N]

/-- RESET puts every channel, existing or not, at its reset value. -/
theorem reset_chan (s : State) (c : Nat) :
    State.chan { s with channels := s.channels.map fun _ => Channel.reset, hung := false, busLog := [] } c =
      Channel.reset := by
  simp only [State.chan, List.getD, List.getElem?_map]
  cases s.channels[c]? <;> rfl

/-- What an instruction makes of a channel: reset, an operation of its own, a period boundary, a strobe fall, or nothing. -/
theorem exec_chan {i : Instr} {s t : State} (h : exec i s = .next t) (c : Nat) :
    (i = .reset ∧ t.chan c = Channel.reset) ∨
    (i.channel = some c ∧ i.isEvent = false ∧ OpChan (s.chan c) (t.chan c)) ∨
    (∃ corr phase, i = .periodIrq c corr phase ∧ t.chan c = (s.chan c).periodEnded corr phase s.errDraw) ∨
    (i = .strobeFall c ∧ t.chan c = (s.chan c).strobed) ∨
    ((i.channel ≠ some c) ∧ i ≠ .reset ∧ t.chan c = s.chan c) := by
  rcases exec_next h with ⟨c', u, hi, he, hu, ht⟩ | ⟨hi, -, rfl⟩ | ⟨c', corr, phase, rfl, hc, rfl⟩ | ⟨c', rfl, hc, rfl⟩ |
    ⟨rfl, rfl⟩
  · have ht : t.chan c = u.chan c := by rcases ht with rfl | ⟨k, rfl⟩ <;> rfl
    by_cases e : c = c'
    · subst e; exact .inr (.inl ⟨hi, he, ht ▸ hu.chan.1⟩)
    · refine .inr (.inr (.inr (.inr ⟨by simp [hi, Ne.symm e], ?_, ht.trans (hu.chan.2 c e)⟩)))
      rintro rfl; cases he
  · exact .inr (.inr (.inr (.inr ⟨by rcases hi with rfl | rfl <;> exact nofun,
      by rcases hi with rfl | rfl <;> exact nofun, rfl⟩)))
  · by_cases e : c = c'
    · subst e
      refine .inr (.inr (.inl ⟨corr, phase, rfl, ?_⟩))
      rw [setChan_chan_same]
      split <;> simpa [State.N] using hc
    · refine .inr (.inr (.inr (.inr ⟨by simp [Instr.channel, Ne.symm e], nofun, ?_⟩)))
      rw [setChan_chan_ne _ e]; split <;> simp
  · by_cases e : c = c'
    · subst e; exact .inr (.inr (.inr (.inl ⟨rfl, setChan_chan_same s hc _⟩)))
    · exact .inr (.inr (.inr (.inr ⟨by simp [Instr.channel, Ne.symm e], nofun, setChan_chan_ne s e _⟩)))
  · exact .inl ⟨rfl, reset_chan s c⟩

/-- No instruction changes the configuration or the channel count. -/
theorem exec_fixed {i : Instr} {s t : State} (h : exec i s = .next t) : t.cfg = s.cfg ∧ t.N = s.N := by
  rcases exec_next h with ⟨c, u, -, -, hu, rfl | ⟨k, rfl⟩⟩ | ⟨-, -, rfl⟩ | ⟨c, corr, phase, -, hc, rfl⟩ |
    ⟨c, -, hc, rfl⟩ | ⟨-, rfl⟩
  · exact ⟨hu.fixed.1, hu.fixed.2.1⟩
  · exact ⟨hu.fixed.1, hu.fixed.2.1⟩
  · exact ⟨rfl, rfl⟩
  · split <;> simp [State.N]
  · simp [State.N]
  · simp [State.N]

/-! ### Admitted and refused operations, as equations -/

/-- A refused write operation. -/
theorem writeOp_refuse {permit : Seq → Bool} {d : Bool} {c : Nat} {w : WindowName} {tx : List Byte}
    {onOk onLoss : Channel → Channel} {s : State} {r : Return} (h : admission permit d c s = .refuse r) :
    writeOp permit d c w tx onOk onLoss s = .next (s.answer r) := by
  simp only [writeOp, h]

/-- An admitted write operation whose transfer completes. -/
theorem writeOp_ok {permit : Seq → Bool} {d : Bool} {c : Nat} {w : WindowName} {tx : List Byte}
    {onOk onLoss : Channel → Channel} {s : State} (h : admission permit d c s = .admitted) (ho : s.nextOutcome = .ok) :
    writeOp permit d c w tx onOk onLoss s =
      .next (((s.logTransfer (writeRecord s c w tx .ok)).setChan c (onOk (s.chan c))).answer (.ok .done)) := by
  simp only [writeOp, h, ho]

/-- An admitted write operation whose transfer faults. -/
theorem writeOp_lost {permit : Seq → Bool} {d : Bool} {c : Nat} {w : WindowName} {tx : List Byte}
    {onOk onLoss : Channel → Channel} {s : State} (h : admission permit d c s = .admitted) (ho : s.nextOutcome = .fault) :
    writeOp permit d c w tx onOk onLoss s =
      .next (((s.logTransfer (writeRecord s c w tx .fault)).setChan c (onLoss (s.chan c))).answer .transportFault) := by
  simp only [writeOp, h, ho]

/-- An admitted write operation whose transfer hangs. -/
theorem writeOp_hung {permit : Seq → Bool} {d : Bool} {c : Nat} {w : WindowName} {tx : List Byte}
    {onOk onLoss : Channel → Channel} {s : State} (h : admission permit d c s = .admitted) (ho : s.nextOutcome = .hang) :
    writeOp permit d c w tx onOk onLoss s =
      .next ((s.logTransfer (writeRecord s c w tx .hang)).setChan c (onLoss (s.chan c))).hangUp := by
  simp only [writeOp, h, ho]

/-- A refused read operation. -/
theorem readOp_refuse {n : Nat} {permit : Seq → Bool} {c : Nat} {w : WindowName} {tx : List Byte}
    {window : Channel → Content n} {unpack : Image n → Value} {s : State} {r : Return}
    (h : admission permit true c s = .refuse r) : readOp permit c w tx window unpack s = .next (s.answer r) := by
  simp only [readOp, h]

/-- An admitted read operation of a window that holds `b`. -/
theorem readOp_ok {n : Nat} {permit : Seq → Bool} {c : Nat} {w : WindowName} {tx : List Byte}
    {window : Channel → Content n} {unpack : Image n → Value} {s : State} {b : Image n}
    (h : admission permit true c s = .admitted) (hw : window (s.chan c) = .image b) (ho : s.nextOutcome = .ok) :
    readOp permit c w tx window unpack s =
      .next ((s.logTransfer (readRecord s c w tx (some b.toList) .ok)).answer (.ok (unpack b))) := by
  simp only [readOp, h, ho, hw, receivedBytes_image, useRxDraw_image, sentToReadWindow_eq, if_true]

/-- Everything CODE_LOAD can do (40_write_ops.md R117). -/
theorem execCodeLoad_next {c : Nat} {prn : Int} {s t : State} (h : exec (.codeLoad c prn) s = .next t) :
    (∃ r, admission permitCodeLoad (codeLoadInDomain prn) c s = .refuse r ∧ t = s.answer r) ∨
    (admission permitCodeLoad (codeLoadInDomain prn) c s = .admitted ∧ s.nextOutcome = .ok ∧
      t = ((s.logTransfer (writeRecord s c .code (Config.codeTable prn.toNat).toList .ok)).setChan c
        ((s.chan c).codeLoaded (Config.codeTable prn.toNat))).answer (.ok .done)) ∨
    (admission permitCodeLoad (codeLoadInDomain prn) c s = .admitted ∧ s.nextOutcome = .fault ∧
      t = ((s.logTransfer (writeRecord s c .code (Config.codeTable prn.toNat).toList .fault)).setChan c
        (s.chan c).codeLost).answer .transportFault) ∨
    (admission permitCodeLoad (codeLoadInDomain prn) c s = .admitted ∧ s.nextOutcome = .hang ∧
      t = ((s.logTransfer (writeRecord s c .code (Config.codeTable prn.toNat).toList .hang)).setChan c
        (s.chan c).codeLost).hangUp) :=
  writeOp_next (show execCodeLoad c prn s = .next t from h)

/-- Everything INIT_WRITE can do (R113). -/
theorem execInitWrite_next {c : Nat} {x y z : Int} {s t : State} (h : exec (.initWrite c x y z) s = .next t) :
    (∃ r, admission permitInitWrite (initInDomain s.cfg x y z) c s = .refuse r ∧ t = s.answer r) ∨
    (admission permitInitWrite (initInDomain s.cfg x y z) c s = .admitted ∧ s.nextOutcome = .ok ∧
      t = ((s.logTransfer (writeRecord s c .init (packInit x y z).toList .ok)).setChan c
        ((s.chan c).initWritten (packInit x y z))).answer (.ok .done)) ∨
    (admission permitInitWrite (initInDomain s.cfg x y z) c s = .admitted ∧ s.nextOutcome = .fault ∧
      t = ((s.logTransfer (writeRecord s c .init (packInit x y z).toList .fault)).setChan c
        (s.chan c).initLost).answer .transportFault) ∨
    (admission permitInitWrite (initInDomain s.cfg x y z) c s = .admitted ∧ s.nextOutcome = .hang ∧
      t = ((s.logTransfer (writeRecord s c .init (packInit x y z).toList .hang)).setChan c
        (s.chan c).initLost).hangUp) :=
  writeOp_next (show execInitWrite c x y z s = .next t from h)

/-- Everything UPDATE_WRITE can do (R116). -/
theorem execUpdateWrite_next {c : Nat} {x y : Int} {s t : State} (h : exec (.updateWrite c x y) s = .next t) :
    (∃ r, admission permitUpdateWrite (updateInDomain x y) c s = .refuse r ∧ t = s.answer r) ∨
    (admission permitUpdateWrite (updateInDomain x y) c s = .admitted ∧ s.nextOutcome = .ok ∧
      t = ((s.logTransfer (writeRecord s c .update (packUpdate x y).toList .ok)).setChan c
        ((s.chan c).updateWritten (packUpdate x y))).answer (.ok .done)) ∨
    (admission permitUpdateWrite (updateInDomain x y) c s = .admitted ∧ s.nextOutcome = .fault ∧
      t = ((s.logTransfer (writeRecord s c .update (packUpdate x y).toList .fault)).setChan c
        (s.chan c).updateLost).answer .transportFault) ∨
    (admission permitUpdateWrite (updateInDomain x y) c s = .admitted ∧ s.nextOutcome = .hang ∧
      t = ((s.logTransfer (writeRecord s c .update (packUpdate x y).toList .hang)).setChan c
        (s.chan c).updateLost).hangUp) :=
  writeOp_next (show execUpdateWrite c x y s = .next t from h)

/-- The results CORR_READ can return (41_read_ops.md R142). -/
theorem execCorrRead_next {c : Nat} {s t : State} (h : exec (.corrRead c) s = .next t) :
    t.channels = s.channels ∧
    ∀ v, t.port = .returned (.ok v) → v = .corr (unpackCorr (receivedBytes s (s.chan c).corr)) := by
  rcases readOp_next (show execCorrRead c s = .next t from h) with ⟨r, hr, rfl⟩ | ⟨_, _, rfl⟩ | ⟨_, _, rfl⟩ | ⟨_, _, rfl⟩
  · refine ⟨rfl, fun v hv => ?_⟩
    rcases admission_refuse_kind hr with rfl | rfl | rfl <;> simp at hv
  · refine ⟨by simp, fun v hv => ?_⟩
    simpa [eq_comm] using hv
  · exact ⟨rfl, fun v hv => by simp at hv⟩
  · exact ⟨rfl, fun v hv => by simp at hv⟩

/-- The results PHASE_READ can return (R144). -/
theorem execPhaseRead_next {c : Nat} {s t : State} (h : exec (.phaseRead c) s = .next t) :
    t.channels = s.channels ∧
    ∀ v, t.port = .returned (.ok v) → v = .phase (unpackPhase (receivedBytes s (s.chan c).phase)) := by
  rcases readOp_next (show execPhaseRead c s = .next t from h) with ⟨r, hr, rfl⟩ | ⟨_, _, rfl⟩ | ⟨_, _, rfl⟩ | ⟨_, _, rfl⟩
  · refine ⟨rfl, fun v hv => ?_⟩
    rcases admission_refuse_kind hr with rfl | rfl | rfl <;> simp at hv
  · refine ⟨by simp, fun v hv => ?_⟩
    simpa [eq_comm] using hv
  · exact ⟨rfl, fun v hv => by simp at hv⟩
  · exact ⟨rfl, fun v hv => by simp at hv⟩

/-! ### Runs -/

/-- What every allowed instruction keeps, every run of allowed instructions keeps. -/
theorem runInstrs_keeps {P : State → Prop} {Q : Instr → Prop}
    (keep : ∀ i s t, Q i → P s → exec i s = .next t → P t) {is : List Instr} {s t : State}
    (hq : ∀ i, i ∈ is → Q i) (h : P s) (hr : runInstrs is s = .next t) : P t := by
  induction is generalizing s with
  | nil => rw [← Host.Outcome.next.inj hr]; exact h
  | cons i is ih =>
    simp only [runInstrs] at hr
    cases he : exec i s with
    | next u =>
      rw [he] at hr
      exact ih (fun j hj => hq j (List.mem_cons_of_mem _ hj)) (keep i s u (hq i List.mem_cons_self) h he) hr
    | fault f => rw [he] at hr; cases hr
    | refused r => rw [he] at hr; cases hr

end Sys2Proof.Machine
end

