-- ==== Sys2Proof/Laws/Caller.lean ====
section
/-! SUPPORT. The caller's own fields (the port, the place in a pseudo-operation, the agenda) decide nothing of what an
instruction does to the rest, and a step is an instruction but for them. -/

namespace Sys2Proof.Machine

/-- Two states that differ in the caller's own fields at most. -/
def SameBlock (s t : State) : Prop := t = { s with port := t.port, cont := t.cont, agenda := t.agenda }

theorem SameBlock.refl (s : State) : SameBlock s s := rfl

theorem SameBlock.symm {s t : State} (h : SameBlock s t) : SameBlock t s := by
  unfold SameBlock at *; rw [h]

theorem SameBlock.trans {s t u : State} (h₁ : SameBlock s t) (h₂ : SameBlock t u) : SameBlock s u := by
  unfold SameBlock at *; rw [h₂, h₁]

theorem SameBlock.withAgenda (s : State) (a : List Turn) : SameBlock s { s with agenda := a } := rfl

theorem SameBlock.chan {s t : State} (h : SameBlock s t) (c : Nat) : t.chan c = s.chan c := by
  rw [h]; rfl

/-! ### Operations -/

theorem admission_caller {permit : Seq → Bool} {d : Bool} {c : Nat} {s s' : State} (hs : SameBlock s s') :
    admission permit d c s' = admission permit d c s := by
  rw [hs]; rfl

/-- A write operation returns the same and does the same to the block, whatever the caller's fields. -/
theorem writeOp_caller {permit : Seq → Bool} {d : Bool} {c : Nat} {w : WindowName} {tx : List Byte}
    {onOk onLoss : Channel → Channel} {s s' t : State} (hs : SameBlock s s')
    (h : writeOp permit d c w tx onOk onLoss s = .next t) :
    ∃ t', writeOp permit d c w tx onOk onLoss s' = .next t' ∧ SameBlock t t' ∧ t'.agenda = s'.agenda ∧
      t'.port = t.port := by
  have ha := admission_caller (permit := permit) (d := d) (c := c) hs
  have ho : s'.nextOutcome = s.nextOutcome := by rw [hs]; rfl
  rcases writeOp_next h with ⟨r, hr, rfl⟩ | ⟨hr, hk, rfl⟩ | ⟨hr, hk, rfl⟩ | ⟨hr, hk, rfl⟩
  · refine ⟨_, writeOp_refuse (ha.trans hr), ?_, rfl, rfl⟩; rw [hs]; rfl
  · refine ⟨_, writeOp_ok (ha.trans hr) (ho.trans hk), ?_, rfl, rfl⟩; rw [hs]; rfl
  · refine ⟨_, writeOp_lost (ha.trans hr) (ho.trans hk), ?_, rfl, rfl⟩; rw [hs]; rfl
  · refine ⟨_, writeOp_hung (ha.trans hr) (ho.trans hk), ?_, rfl, rfl⟩; rw [hs]; rfl

/-- The same of a read operation. -/
theorem readOp_caller {n : Nat} {permit : Seq → Bool} {c : Nat} {w : WindowName} {tx : List Byte}
    {window : Channel → Content n} {unpack : Image n → Value} {s s' t : State} (hs : SameBlock s s')
    (h : readOp permit c w tx window unpack s = .next t) :
    ∃ t', readOp permit c w tx window unpack s' = .next t' ∧ SameBlock t t' ∧ t'.agenda = s'.agenda ∧
      t'.port = t.port := by
  have ha := admission_caller (permit := permit) (d := true) (c := c) hs
  have ho : s'.nextOutcome = s.nextOutcome := by rw [hs]; rfl
  have hb : ∀ x : Content n, receivedBytes s' x = receivedBytes s x := by intro x; rw [hs]; cases x <;> rfl
  have hcfg : s'.cfg = s.cfg := by rw [hs]
  rcases readOp_next h with ⟨r, hr, rfl⟩ | ⟨hr, hk, rfl⟩ | ⟨hr, hk, rfl⟩ | ⟨hr, hk, rfl⟩
  · exact ⟨s'.answer r, readOp_refuse (ha.trans hr), by rw [hs]; rfl, rfl, rfl⟩
  all_goals simp only [readOp, ha.trans hr, ho, hk, hb, hcfg, hs.chan]
  · refine ⟨_, rfl, ?_, ?_, rfl⟩
    · cases window (s.chan c) <;> rw [hs] <;> rfl
    · simp
  · exact ⟨_, rfl, by rw [hs]; rfl, rfl, rfl⟩
  · exact ⟨_, rfl, by rw [hs]; rfl, rfl, rfl⟩

/-- A part of a pseudo-operation that then moves the caller's place only. -/
theorem afterPart_caller {o o' : Host.Outcome State Fault Refusal} {k : Value → State → State} {s' t : State}
    (ho : ∀ u, o = .next u → ∃ u', o' = .next u' ∧ SameBlock u u' ∧ u'.agenda = s'.agenda ∧ u'.port = u.port)
    (hk : ∀ v u, ∃ q, k v u = u.continueAt q) (h : afterPart o k = .next t) :
    ∃ t', afterPart o' k = .next t' ∧ SameBlock t t' ∧ t'.agenda = s'.agenda := by
  obtain ⟨u, rfl, hu⟩ := afterPart_next h
  obtain ⟨u', rfl, hs, hag, hp⟩ := ho u rfl
  rcases hu with ⟨v, hv, rfl⟩ | ⟨hv, rfl⟩
  · obtain ⟨q, hq⟩ := hk v u
    obtain ⟨q', hq'⟩ := hk v u'
    refine ⟨u'.continueAt q', by simp [afterPart, hp, hv, hq'], ?_, hag⟩
    rw [hq, hs]; rfl
  · refine ⟨u'.continueAt .none, ?_, by rw [hs]; rfl, hag⟩
    simp only [afterPart]
    split
    · next v hv' => exact absurd (hp ▸ hv') (hv v)
    · rfl

/-- What an instruction does to the block does not depend on the caller's fields, and it leaves the agenda alone. -/
theorem exec_caller {i : Instr} {s s' t : State} (hs : SameBlock s s') (h : exec i s = .next t) :
    ∃ t', exec i s' = .next t' ∧ SameBlock t t' ∧ t'.agenda = s'.agenda := by
  have dropPort : ∀ {o : Host.Outcome State Fault Refusal},
      (∃ t', o = .next t' ∧ SameBlock t t' ∧ t'.agenda = s'.agenda ∧ t'.port = t.port) →
      ∃ t', o = .next t' ∧ SameBlock t t' ∧ t'.agenda = s'.agenda :=
    fun ⟨t', h₁, h₂, h₃, _⟩ => ⟨t', h₁, h₂, h₃⟩
  have hN : s'.N = s.N := by rw [hs]
  cases i with
  | codeLoad c prn => exact dropPort (writeOp_caller hs (show execCodeLoad c prn s = .next t from h))
  | initWrite c x y z =>
    have hc : s'.cfg = s.cfg := by rw [hs]
    have := writeOp_caller hs (show execInitWrite c x y z s = .next t from h)
    rw [← hc] at this
    exact dropPort this
  | updateWrite c x y => exact dropPort (writeOp_caller hs (show execUpdateWrite c x y s = .next t from h))
  | corrRead c => exact dropPort (readOp_caller hs (show execCorrRead c s = .next t from h))
  | phaseRead c => exact dropPort (readOp_caller hs (show execPhaseRead c s = .next t from h))
  | corrReadTx =>
    obtain ⟨hh, rfl⟩ := transmitOnly_next h
    have : s'.hung = false := by rw [hs]; exact hh
    exact ⟨s', by simp [exec, execCorrReadTx, transmitOnly, this], hs, rfl⟩
  | phaseReadTx =>
    obtain ⟨hh, rfl⟩ := transmitOnly_next h
    have : s'.hung = false := by rw [hs]; exact hh
    exact ⟨s', by simp [exec, execPhaseReadTx, transmitOnly, this], hs, rfl⟩
  | statusRead c =>
    have ha := admission_caller (permit := permitStatusRead) (d := true) (c := c) hs
    rcases execStatusRead_next h with ⟨r, hr, rfl⟩ | ⟨hr, rfl⟩
    · exact ⟨s'.answer r, by simp only [exec, execStatusRead, ha.trans hr], by rw [hs]; rfl, rfl⟩
    · exact ⟨s'.answer (.ok (.status (s'.chan c).err)), by simp only [exec, execStatusRead, ha.trans hr],
        by rw [hs]; rfl, rfl⟩
  | periodIrq c corr phase =>
    obtain ⟨hc, rfl⟩ := execPeriodIrq_next h
    refine ⟨(if needsErrDraw (s'.chan c) then s'.useErrDraw else s').setChan c
      ((s'.chan c).periodEnded corr phase s'.errDraw), by simp only [exec, execPeriodIrq, hN, Nat.not_le.2 hc, if_false],
      ?_, ?_⟩
    · rw [hs.chan]
      cases hn : needsErrDraw (s.chan c) <;> cases he : s.errDraws <;> rw [hs] <;>
        simp [SameBlock, State.setChan, State.useErrDraw, State.errDraw, he]
    · split <;> simp
  | strobeFall c =>
    obtain ⟨hc, rfl⟩ := execStrobeFall_next h
    refine ⟨s'.setChan c (s'.chan c).strobed, by simp only [exec, execStrobeFall, hN, Nat.not_le.2 hc, if_false], ?_,
      rfl⟩
    rw [hs.chan, hs]; rfl
  | reset => exact ⟨_, rfl, by rw [← Host.Outcome.next.inj h, hs]; rfl, rfl⟩
  | arm c prn _ _ _ _ =>
    exact afterPart_caller (fun u hu => writeOp_caller hs (show execCodeLoad c prn s = .next u from hu))
      (fun v u => ⟨_, rfl⟩) h
  | service c _ _ =>
    exact afterPart_caller (fun u hu => readOp_caller hs (show execCorrRead c s = .next u from hu))
      (fun v u => keepCorr_eq u _ _ _ v) h

/-- An instruction leaves the agenda alone. -/
theorem exec_agenda {i : Instr} {s t : State} (h : exec i s = .next t) : t.agenda = s.agenda := by
  obtain ⟨t', ht, -, ha⟩ := exec_caller (.refl s) h
  rw [Host.Outcome.next.inj (h.symm.trans ht)]; exact ha

/-- What a run of instructions does to the block does not depend on the caller's fields. -/
theorem runInstrs_caller {is : List Instr} {s s' t : State} (hs : SameBlock s s') (h : runInstrs is s = .next t) :
    ∃ t', runInstrs is s' = .next t' ∧ SameBlock t t' := by
  induction is generalizing s s' with
  | nil => cases h; exact ⟨s', rfl, hs⟩
  | cons i is ih =>
    simp only [runInstrs] at h
    cases hi : exec i s with
    | next u =>
      rw [hi] at h
      obtain ⟨u', hu', hsu, -⟩ := exec_caller hs hi
      obtain ⟨t', ht', hst⟩ := ih hsu h
      exact ⟨t', by simp only [runInstrs, hu', ht'], hst⟩
    | fault f => rw [hi] at h; cases h
    | refused r => rw [hi] at h; cases h

/-! ### Steps -/

/-- A write operation that returns OK returns no value. -/
theorem writeOp_ok_done {permit : Seq → Bool} {d : Bool} {c : Nat} {w : WindowName} {tx : List Byte}
    {onOk onLoss : Channel → Channel} {s t : State} {v : Value} (h : writeOp permit d c w tx onOk onLoss s = .next t)
    (hv : t.port = .returned (.ok v)) : v = .done := by
  rcases writeOp_next h with ⟨r, hr, rfl⟩ | ⟨_, _, rfl⟩ | ⟨_, _, rfl⟩ | ⟨_, _, rfl⟩
  · rcases admission_refuse_kind hr with rfl | rfl | rfl <;> simp at hv
  · simpa [eq_comm] using hv
  · simp at hv
  · simp at hv

/-- A later part of a pseudo-operation is an operation but for the caller's fields. -/
theorem resumePart_exec {s t : State} (h : resumePart s = .next t) :
    t = s ∨ ∃ i u, i.isEvent = false ∧ exec i s = .next u ∧ SameBlock u t ∧ t.agenda = u.agenda := by
  unfold resumePart at h
  split at h
  · exact .inl (Host.Outcome.next.inj h).symm
  · obtain ⟨u, hu, ⟨v, -, rfl⟩ | ⟨-, rfl⟩⟩ := afterPart_next h
    all_goals exact .inr ⟨.initWrite _ _ _ _, u, rfl, hu, rfl, rfl⟩
  · obtain ⟨u, hu, ⟨v, -, rfl⟩ | ⟨-, rfl⟩⟩ := afterPart_next h
    all_goals exact .inr ⟨.updateWrite _ _ _, u, rfl, hu, rfl, rfl⟩
  · obtain ⟨u, hu, ⟨v, -, rfl⟩ | ⟨-, rfl⟩⟩ := afterPart_next h
    · obtain ⟨k, hk⟩ := keepPhase_eq u _ _ _ _ v
      rw [hk]
      exact .inr ⟨.phaseRead _, u, rfl, hu, rfl, rfl⟩
    · exact .inr ⟨.phaseRead _, u, rfl, hu, rfl, rfl⟩
  · obtain ⟨u, hu, ⟨v, -, rfl⟩ | ⟨-, rfl⟩⟩ := afterPart_next h
    all_goals exact .inr ⟨.updateWrite _ _ _, u, rfl, hu, rfl, rfl⟩

/-- A next part taken with an agenda of its own. -/
theorem resumePart_agenda {s t : State} {a : List Turn} (h : resumePart { s with agenda := a } = .next t) :
    t.agenda = a ∧ (SameBlock s t ∨ ∃ i u, i.isEvent = false ∧ exec i s = .next u ∧ SameBlock u t) := by
  rcases resumePart_exec h with rfl | ⟨i, u, hi, hu, hs, hag⟩
  · exact ⟨rfl, .inl rfl⟩
  · obtain ⟨u', hu', hsm, -⟩ := exec_caller (SameBlock.withAgenda s a).symm hu
    exact ⟨hag.trans (exec_agenda hu), .inr ⟨i, u', hi, hu', hsm.symm.trans hs⟩⟩

/-- Everything a step can do: it takes some turns from the head of the agenda and runs at most one instruction, whose events
are the ones taken. -/
theorem step_exec {s t : State} (h : step s = .next t) :
    ∃ used : List Turn, s.agenda = used ++ t.agenda ∧
      ((SameBlock s t ∧ used.filterMap Turn.event = []) ∨
        ∃ i u, exec i s = .next u ∧ SameBlock u t ∧ [i].filter Instr.isEvent = used.filterMap Turn.event) := by
  have part : ∀ (used : List Turn) (a : List Turn), s.agenda = used ++ a → used.filterMap Turn.event = [] →
      resumePart { s with agenda := a } = .next t →
      ∃ used : List Turn, s.agenda = used ++ t.agenda ∧
        ((SameBlock s t ∧ used.filterMap Turn.event = []) ∨
          ∃ i u, exec i s = .next u ∧ SameBlock u t ∧ [i].filter Instr.isEvent = used.filterMap Turn.event) := by
    intro used a hag hu hr
    obtain ⟨ha, hx⟩ := resumePart_agenda hr
    refine ⟨used, ha ▸ hag, ?_⟩
    rcases hx with hx | ⟨i, u, hi, hu', hs⟩
    · exact .inl ⟨hx, hu⟩
    · exact .inr ⟨i, u, hu', hs, by simp [hi, hu]⟩
  replace h := (step_runTurn h).2
  unfold runTurn at h
  split at h
  · exact part [] s.agenda rfl rfl h
  · next rest hag => exact part [.resume] rest hag rfl h
  · next f rest hag =>
    split at h
    · cases h
    · next i hd =>
      split at h
      · obtain ⟨u', hu', hsm, -⟩ := exec_caller (SameBlock.withAgenda s rest).symm h
        refine ⟨[.issue f], by simp [exec_agenda h, hag], .inr ⟨i, u', hu', hsm.symm, ?_⟩⟩
        cases hi : i.isEvent <;> simp [Turn.event, hd, hi]
      · exact part [] s.agenda rfl rfl h

end Sys2Proof.Machine
end

