-- ==== Sys2Proof/Laws/Contract.lean ====
section
/-! SUPPORT. Contract-compliant runs (42_sequencer.md R171): what is remembered covers what the sequencer record shows. -/

namespace Sys2Proof

theorem Instr.isPeriodOf_event {c : Nat} {i : Instr} (h : i.isPeriodOf c = true) :
    i.isEvent = true ∧ i.channel = some c := by
  cases i <;> simp_all [Instr.isPeriodOf, Instr.isEvent, Instr.channel]

theorem Instr.isStrobeOf_event {c : Nat} {i : Instr} (h : i.isStrobeOf c = true) :
    i.isEvent = true ∧ i.channel = some c := by
  cases i <;> simp_all [Instr.isStrobeOf, Instr.isEvent, Instr.channel]

theorem Instr.isLoadOf_channel {c : Nat} {i : Instr} (h : i.isLoadOf c = true) : i.channel = some c := by
  cases i <;> simp_all [Instr.isLoadOf, Instr.channel]

theorem Instr.isUpdateOf_channel {c : Nat} {i : Instr} (h : i.isUpdateOf c = true) : i.channel = some c := by
  cases i <;> simp_all [Instr.isUpdateOf, Instr.channel]

end Sys2Proof

namespace Sys2Proof.Machine

/-- Arming under way and a missing UPDATE are remembered. -/
structure Watch.Covers (w : Watch) (ch : Channel) : Prop where
  arming : ch.seq.state = .idle → ch.seq.armStep ≠ .zero → w.arming = true
  owes : ch.seq.state = .tracking → ch.seq.updDone = false → w.owes = true

theorem Watch.start_covers (ch : Channel) : (Watch.start ch).Covers ch where
  arming h h' := by simp [Watch.start, h, h']
  owes h h' := by simp [Watch.start, h, h']

/-- An operation that leaves less to remember, or the same, stays covered. -/
theorem Watch.Covers.mono {w w' : Watch} {ch ch' : Channel} (h : w.Covers ch)
    (ha : w.arming = true → w'.arming = true) (ho : w.owes = true → w'.owes = true)
    (hs : ch'.seq.state = ch.seq.state) (hd : ch'.seq.updDone = ch.seq.updDone)
    (hz : ch.seq.armStep = .zero → ch'.seq.armStep = .zero) : w'.Covers ch' where
  arming h1 h2 := ha (h.arming (hs ▸ h1) fun e => h2 (hz e))
  owes h1 h2 := ho (h.owes (hs ▸ h1) (hd ▸ h2))

/-- The channel of a state with channel `c` replaced, whatever the port. -/
theorem chan_setChan_logged {s : State} {c : Nat} (hc : c < s.N) (r : BusRecord) (ch : Channel) :
    ((s.logTransfer r).setChan c ch).chan c = ch := setChan_chan_same _ hc _

/-- CODE_LOAD, on its own or as ARM's first part: it returns OK, or `arm_step` is 0 or as before; nothing else of the
sequencer record moves. -/
theorem execCodeLoad_arming {c : Nat} {prn : Int} {s t : State} (h : execCodeLoad c prn s = .next t) :
    (t.chan c).seq.state = (s.chan c).seq.state ∧ (t.chan c).seq.updDone = (s.chan c).seq.updDone ∧
    (t.returnedOk = false → (s.chan c).seq.armStep = .zero → (t.chan c).seq.armStep = .zero) := by
  rcases execCodeLoad_next (show exec (.codeLoad c prn) s = .next t from h) with ⟨r, hr, rfl⟩ | ⟨ha, _, rfl⟩ |
    ⟨ha, _, rfl⟩ | ⟨ha, _, rfl⟩
  · exact ⟨rfl, rfl, fun _ hz => hz⟩
  all_goals
    have hc := (admission_eq_admitted.1 ha).2.1
    simp [chan_setChan_logged hc, Channel.codeLoaded, Channel.codeLost, State.returnedOk]

/-- INIT_WRITE does not begin arming. -/
theorem execInitWrite_arming {c : Nat} {x y z : Int} {s t : State} (h : exec (.initWrite c x y z) s = .next t) :
    (t.chan c).seq.state = (s.chan c).seq.state ∧ (t.chan c).seq.updDone = (s.chan c).seq.updDone ∧
    ((s.chan c).seq.armStep = .zero → (t.chan c).seq.armStep = .zero) := by
  rcases execInitWrite_next h with ⟨r, hr, rfl⟩ | ⟨ha, _, rfl⟩ | ⟨ha, _, rfl⟩ | ⟨ha, _, rfl⟩
  · exact ⟨rfl, rfl, fun hz => hz⟩
  all_goals
    obtain ⟨-, hc, hp, -⟩ := admission_eq_admitted.1 ha
    simp [chan_setChan_logged hc, Channel.initWritten, Channel.initLost]
    intro hz; simp [permitInitWrite, hz] at hp

/-- An UPDATE_WRITE that returns OK leaves the period's UPDATE done and no arming under way; any other changes neither. -/
theorem execUpdateWrite_arming {c : Nat} {x y : Int} {s t : State} (h : exec (.updateWrite c x y) s = .next t) :
    (t.returnedOk = true ∧ (t.chan c).seq.state ≠ .idle ∧ (t.chan c).seq.updDone = true) ∨
    (t.returnedOk = false ∧ (t.chan c).seq.state = (s.chan c).seq.state ∧
      (t.chan c).seq.updDone = (s.chan c).seq.updDone ∧ (t.chan c).seq.armStep = (s.chan c).seq.armStep) := by
  rcases execUpdateWrite_next h with ⟨r, hr, rfl⟩ | ⟨ha, _, rfl⟩ | ⟨ha, _, rfl⟩ | ⟨ha, _, rfl⟩
  · refine .inr ⟨?_, rfl, rfl, rfl⟩
    rcases admission_refuse_kind hr with rfl | rfl | rfl <;> rfl
  all_goals have hc := (admission_eq_admitted.1 ha).2.1
  · refine .inl ⟨rfl, ?_⟩
    simp only [answer_chan, chan_setChan_logged hc, Channel.updateWritten]
    split
    · simp
    · next hi => exact ⟨hi, rfl⟩
  · exact .inr ⟨rfl, by simp [chan_setChan_logged hc, Channel.updateLost]⟩
  · exact .inr ⟨rfl, by simp [chan_setChan_logged hc, Channel.updateLost]⟩

/-- Remembering goes with every instruction. -/
theorem Watch.next_covers {w : Watch} {c : Nat} {i : Instr} {s t : State} (hw : w.Covers (s.chan c))
    (h : exec i s = .next t) : (w.next c i t).Covers (t.chan c) := by
  rcases exec_chan h c with ⟨rfl, e⟩ | ⟨hi, he, -⟩ | ⟨corr, phase, rfl, e⟩ | ⟨rfl, e⟩ | ⟨hi, hr, e⟩
  · rw [e]; exact ⟨fun _ hn => absurd rfl hn, nofun⟩
  · have loaded : ∀ {prn u}, execCodeLoad c prn s = .next u → t.chan c = u.chan c → t.returnedOk = u.returnedOk →
        (if t.returnedOk then { w with arming := true } else w).Covers (t.chan c) := by
      intro prn u hu hch hok
      obtain ⟨h1, h2, h3⟩ := execCodeLoad_arming hu
      rw [hch, hok]
      split
      · exact ⟨fun _ _ => rfl, fun h h' => hw.owes (h1 ▸ h) (h2 ▸ h')⟩
      · next hn => exact hw.mono id id h1 h2 (h3 (by simpa using hn))
    cases i <;> simp only [Instr.isEvent, Bool.true_eq_false] at he <;>
      simp only [Instr.channel, reduceCtorEq, Option.some.injEq] at hi <;> subst hi <;>
      simp only [Watch.next, reduceCtorEq, if_false, Instr.isPeriodOf, Instr.isLoadOf, Instr.isUpdateOf, decide_true,
        Bool.true_and, Bool.false_and, Bool.false_eq_true]
    · exact loaded h rfl rfl
    · obtain ⟨h1, h2, h3⟩ := execInitWrite_arming h
      exact hw.mono id id h1 h2 h3
    · rcases execUpdateWrite_arming h with ⟨ho, h1, h2⟩ | ⟨ho, h1, h2, h3⟩
      · rw [if_pos ho]; exact ⟨fun h => absurd h h1, fun _ h => by simp [h2] at h⟩
      · rw [if_neg (by simp [ho])]; exact hw.mono id id h1 h2 (h3 ▸ id)
    · simpa [State.chan, (execCorrRead_next h).1] using hw
    · simpa [State.chan, (execPhaseRead_next h).1] using hw
    · rcases execStatusRead_next h with ⟨r, -, rfl⟩ | ⟨-, rfl⟩ <;> exact hw
    · obtain ⟨u, hu, ⟨v, -, rfl⟩ | ⟨-, rfl⟩⟩ := afterPart_next h <;> exact loaded hu rfl rfl
    · obtain ⟨u, hu, ⟨v, -, ht⟩ | ⟨-, ht⟩⟩ := afterPart_next h
      · obtain ⟨k, hk⟩ := keepCorr_eq u _ _ _ v
        rw [ht, hk]; simpa [State.chan, (execCorrRead_next hu).1] using hw
      · rw [ht]; simpa [State.chan, (execCorrRead_next hu).1] using hw
  · rw [e]
    simp only [Watch.next, reduceCtorEq, if_false, Instr.isPeriodOf, decide_true, if_true]
    refine ⟨fun hi hz => ?_, fun _ _ => rfl⟩
    cases hq : (s.chan c).seq.state <;> simp [Channel.periodEnded, Channel.newPeriod, hq] at hi hz
    exact hw.arming hq hz
  · rw [e]
    exact hw.mono (by simp [Watch.next, Instr.isPeriodOf, Instr.isLoadOf, Instr.isUpdateOf])
      (by simp [Watch.next, Instr.isPeriodOf, Instr.isLoadOf, Instr.isUpdateOf]) rfl rfl id
  · rw [e]
    have h1 := Bool.eq_false_iff.2 fun h => hi (Instr.isPeriodOf_event h).2
    have h2 := Bool.eq_false_iff.2 fun h => hi (Instr.isLoadOf_channel h)
    have h3 := Bool.eq_false_iff.2 fun h => hi (Instr.isUpdateOf_channel h)
    simpa [Watch.next, hr, h1, h2, h3] using hw

/-- A strobe that falls with nothing to remember is on time. -/
theorem Watch.Covers.strobeOnTime {w : Watch} {c : Nat} {i : Instr} {s : State} (hw : w.Covers (s.chan c))
    (hs : (i.isStrobeOf c && (w.arming || w.owes)) = false) : i.strobeOnTime c s = true := by
  unfold Instr.strobeOnTime
  split
  · next hi =>
    obtain ⟨ha, ho⟩ : w.arming = false ∧ w.owes = false := by simpa [hi] using hs
    split
    · next hq => exact decide_eq_true (Classical.not_not.1 fun hn => by simp [hw.arming hq hn] at ha)
    · rfl
    · next hq => exact Bool.eq_true_of_not_eq_false fun hn => by simp [hw.owes hq hn] at ho
  · rfl

end Sys2Proof.Machine
end

