-- ==== Sys2Proof/Laws/Layout.lean ====
section
/-! SUPPORT. The check of 20_memory.md R52 says what the rule says. -/

namespace Sys2Proof.Machine

theorem mem_windowsOf {n c : Nat} {w : WindowName} : (c, w) ∈ windowsOf n ↔ c < n := by
  cases w <;> simp [windowsOf]

theorem windowsOf_nodup (n : Nat) : (windowsOf n).Nodup :=
  List.Nodup.product List.nodup_range (by decide)

/-- No two windows share an address exactly if `addr` is injective. -/
theorem addrsDistinct_iff {cfg : Config} {n : Nat} : addrsDistinct cfg n = true ↔ AddrInjective cfg n := by
  unfold addrsDistinct AddrInjective
  rw [decide_eq_true_iff, List.nodup_map_iff_inj_on (windowsOf_nodup n)]
  constructor
  · intro h c c' w w' hc hc' he
    exact Prod.mk.inj (h (c, w) (mem_windowsOf.2 hc) (c', w') (mem_windowsOf.2 hc') he)
  · rintro h ⟨c, w⟩ hm ⟨c', w'⟩ hm' he
    exact Prod.ext_iff.2 (h c c' w w' (mem_windowsOf.1 hm) (mem_windowsOf.1 hm') he)

end Sys2Proof.Machine
end

