-- ==== Sys2Proof/Laws/PerInstr.lean ====
section
/-! SUPPORT. Per-instruction family `NamedRoundTrip`: presented by its name, every instruction, with operands in or out of
their domains, decodes to itself (30_encoding.md R94, R96, R98). -/

namespace Sys2Proof.Laws.NamedRoundTrip

open Sys2Proof.Machine

def Statement (i : Instr) : Prop := decode (encodeNamed i) = .ok i

theorem codeLoad (c : Nat) (prn : Int) : Statement (.codeLoad c prn) := rfl
theorem initWrite (c : Nat) (prn cp ph : Int) : Statement (.initWrite c prn cp ph) := rfl
theorem updateWrite (c : Nat) (cf cr : Int) : Statement (.updateWrite c cf cr) := rfl
theorem corrRead (c : Nat) : Statement (.corrRead c) := rfl
theorem corrReadTx : Statement .corrReadTx := rfl
theorem phaseRead (c : Nat) : Statement (.phaseRead c) := rfl
theorem phaseReadTx : Statement .phaseReadTx := rfl
theorem statusRead (c : Nat) : Statement (.statusRead c) := rfl
theorem periodIrq (c : Nat) (corr : CorrImage) (phase : PhaseImage) : Statement (.periodIrq c corr phase) := by
  simp [Statement, encodeNamed, decode, decodeNamed]
theorem strobeFall (c : Nat) : Statement (.strobeFall c) := rfl
theorem reset : Statement .reset := rfl
theorem arm (c : Nat) (prn cp ph cf cr : Int) : Statement (.arm c prn cp ph cf cr) := rfl
theorem service (c : Nat) (cf cr : Int) : Statement (.service c cf cr) := rfl

end Sys2Proof.Laws.NamedRoundTrip
end

