-- ==== Sys2Proof/Tests/Slice0.lean ====
section
/-! SUPPORT. Tests on fixed values: the well-formedness checks, words written out from the spec's layouts, one or two steps
for each instruction with results from 95_test_vectors.md, and a witness for the hypotheses of every statement. -/

namespace Sys2Proof.Tests.Slice0

open Sys2Proof Sys2Proof.Machine

/-! ### Small states -/

/-- Channel 0 is `ch`, channel 1 is at reset, in the sample configuration. -/
def one (ch : Channel) : State := { State.reset with channels := [ch, Channel.reset] }

def loaded : Channel := Channel.reset.codeLoaded (Config.codeTable 1)
def inited : Channel := loaded.initWritten (packInit 1 0 0)
def armed : Channel := inited.updateWritten (packUpdate 0 0)
def corrBytes : CorrImage := #v[0x03, 0xE8, 0x00, 0x12, 0x34, 0xFF, 0xED, 0xCC, 0x01, 0x00, 0x00, 0xFE, 0xFF, 0xFF, 0x00, 0x00,
  0x80, 0x00, 0x80, 0x00]
def phaseBytes : PhaseImage := #v[0x00, 0x00, 0x00, 0x00, 0x00, 0x00, 0x12, 0x34, 0x56]
def tracking : Channel := armed.newPeriod corrBytes phaseBytes
def served : Channel := tracking.updateWritten (packUpdate 1 1)

/-- The next transfer draws `o`. -/
def draws (o : XferOutcome) (s : State) : State := { s with outcomes := [o] }

/-- The block is stuck. -/
def stuck (s : State) : State := { s with hung := true }

/-- `t` after `i` in `s`; `s` itself where `i` gives no next state. -/
def after (i : Instr) (s : State) : State :=
  match exec i s with
  | .next t => t
  | .fault _ => s
  | .refused _ => s

/-- The instruction gives a next state. -/
def runs (i : Instr) (s : State) : Bool :=
  match exec i s with
  | .next _ => true
  | .fault _ => false
  | .refused _ => false

/-- A list of instructions gives a next state. -/
def runsAll (is : List Instr) (s : State) : Bool :=
  match runInstrs is s with
  | .next _ => true
  | .fault _ => false
  | .refused _ => false

theorem runs_next {i : Instr} {s : State} (h : runs i s = true) : exec i s = .next (after i s) := by
  unfold runs at h
  unfold after
  cases he : exec i s <;> simp_all

theorem runsAll_next {is : List Instr} {s : State} (h : runsAll is s = true) : ∃ t, runInstrs is s = .next t := by
  unfold runsAll at h
  cases he : runInstrs is s <;> simp_all

/-! ### Well-formedness: an ill-formed term for each check -/

theorem test_wf_prn_high : (Instr.codeLoad 0 32).wellFormed = false := by decide
theorem test_wf_prn_low : (Instr.initWrite 0 (-1) 0 0).wellFormed = false := by decide
theorem test_wf_carrierPhase_high : (Instr.initWrite 0 0 8388608 0).wellFormed = false := by decide
theorem test_wf_carrierPhase_low : (Instr.arm 0 0 (-8388609) 0 0 0).wellFormed = false := by decide
theorem test_wf_codePhase_high : (Instr.initWrite 0 0 0 16384).wellFormed = false := by decide
theorem test_wf_codePhase_low : (Instr.initWrite 0 0 0 (-1)).wellFormed = false := by decide
theorem test_wf_carrierFreq_high : (Instr.updateWrite 0 32768 0).wellFormed = false := by decide
theorem test_wf_carrierFreq_low : (Instr.service 0 (-32769) 0).wellFormed = false := by decide
theorem test_wf_codePhaseRate_high : (Instr.updateWrite 0 0 0x20000000).wellFormed = false := by decide
theorem test_wf_codePhaseRate_low : (Instr.service 0 0 (-1)).wellFormed = false := by decide
theorem test_wf_bounds : (Instr.arm 0 31 (-8388608) 16383 (-32768) 0x1FFFFFFF).wellFormed = true := by decide

/-! ### Decoding: words written out from the spec's layouts -/

/-- V-I8, field by field: `00000`, CODE_PHASE 0x555, CARR_PHASE 0x123456, PRN 5. -/
theorem test_decode_initWrite :
    decode (.word 48 (0b00000 <<< 43 ||| 0b00010101010101 <<< 29 ||| 0b000100100011010001010110 <<< 5 ||| 0b00101)) =
      .ok (.initWrite 0 5 0x123456 0x555) := by decide

/-- V-I4: a carrier phase of all ones is -1. -/
theorem test_decode_initWrite_negative :
    decode (.image 1 .init .tx [0x00, 0x00, 0x1F, 0xFF, 0xFF, 0xE0]) = .ok (.initWrite 1 0 (-1) 0) := by decide

/-- V-U8 as a table word: bits 44:16 the rate, 15:0 the frequency. -/
theorem test_decode_updateWrite :
    decode (.word 48 (0b10010001101000101011001111000 <<< 16 ||| 0b0001001000110100)) =
      .ok (.updateWrite 0 0x1234 0x12345678) := by decide

/-- V-U7. -/
theorem test_decode_updateWrite_negative :
    decode (.image 0 .update .tx [0x01, 0x00, 0x00, 0x00, 0xFF, 0xFE]) = .ok (.updateWrite 0 (-2) 0x01000000) := by decide

theorem test_decode_corrRead : decode (.word 160 (0x1234 <<< 144 ||| 0xFFEDCC)) = .ok (.corrRead 0) := by decide
theorem test_decode_corrReadTx : decode (.word 160 0) = .ok .corrReadTx := by decide
theorem test_decode_phaseRead : decode (.word 72 1) = .ok (.phaseRead 0) := by decide
theorem test_decode_phaseReadTx : decode (.word 72 0x000022000000000000) = .ok .phaseReadTx := by decide

/-- R83, R86: an image with a reserved bit set is no instruction. -/
theorem test_decode_reserved :
    decode (.image 0 .init .tx [0x08, 0, 0, 0, 0, 0]) = .error (.reservedBits .init) ∧
    decode (.word 48 (1 <<< 45)) = .error (.reservedBits .update) := by decide

/-- R54, R57: another direction, another length, another constant. -/
theorem test_decode_illegal :
    decode (.image 0 .init .rx [0, 0, 0, 0, 0, 0]) = .error (.noSuchTransfer .init .rx) ∧
    decode (.image 0 .update .tx [0, 0, 0, 0, 0]) = .error (.badLength .update) ∧
    decode (.image 0 .phase .tx [0, 0, 0x23, 0, 0, 0, 0, 0, 0]) = .error (.notTheConstant .phase) ∧
    decode (.word 8 0) = .error (.noSuchFormat 8) := by decide

/-- The rows without an image go by their names and the operand order of R96. -/
theorem test_decode_named :
    decode (.named .codeLoad (some 3) [7] []) = .ok (.codeLoad 3 7) ∧
    decode (.named .statusRead (some 2) [] []) = .ok (.statusRead 2) ∧
    decode (.named .strobeFall (some 1) [] []) = .ok (.strobeFall 1) ∧
    decode (.named .reset none [] []) = .ok .reset ∧
    decode (.named .arm (some 0) [5, 0x123456, 0x555, 0x1234, 0x12345678] []) =
      .ok (.arm 0 5 0x123456 0x555 0x1234 0x12345678) ∧
    decode (.named .service (some 0) [-2, 0x01000000] []) = .ok (.service 0 (-2) 0x01000000) ∧
    decode (.named .codeLoad none [7] []) = .error (.badOperands .codeLoad) := by decide

theorem test_decode_periodIrq :
    decode (.named .periodIrq (some 4) [] [corrBytes.toList, phaseBytes.toList]) =
      .ok (.periodIrq 4 corrBytes phaseBytes) := by decide

/-- The numbers of 60_exceptions.md R201. -/
theorem test_return_codes :
    returnCode (.ok .done) = 0 ∧ returnCode .transportFault = 1 ∧ returnCode .rangeFault = 2 ∧
    returnCode .seqViolation = 3 ∧ returnCode .badChannel = 4 := by decide

/-! ### Packing and unpacking -/

/-- V-I9, V-I11, V-I17. -/
theorem test_packInit :
    (packInit 17 (-8388608) 1023).toList = [0x00, 0x7F, 0xF0, 0x00, 0x00, 0x11] ∧
    (packInit 0 0 0x3FFF).toList = [0x07, 0xFF, 0xE0, 0x00, 0x00, 0x00] ∧
    (packInit 3 0x1FFFFFF 0).toList = [0x00, 0x00, 0x1F, 0xFF, 0xFF, 0xE3] := by decide

/-- V-U5, V-U6, V-U12. -/
theorem test_packUpdate :
    (packUpdate (-32768) 0x10000000).toList = [0x10, 0x00, 0x00, 0x00, 0x80, 0x00] ∧
    (packUpdate 32767 0x0ABCDEF1).toList = [0x0A, 0xBC, 0xDE, 0xF1, 0x7F, 0xFF] ∧
    (packUpdate 0 (-1)).toList = [0x1F, 0xFF, 0xFF, 0xFF, 0x00, 0x00] := by decide

/-- V-P5: byte order of both fields. -/
theorem test_unpackPhase :
    unpackPhase #v[0x01, 0x02, 0x03, 0x04, 0x05, 0x06, 0xAB, 0xCD, 0xEF] = ⟨0xABCDEF, 0x010203040506⟩ := by decide

/-- V-C2 on the 32-bit port. -/
theorem test_portLanes :
    portLanes 32 (unpackCorr #v[0xFF, 0xFF, 0x80, 0x00, 0x00, 0x7F, 0xFF, 0xFF, 0x00, 0x00, 0x01, 0xFF, 0xFF, 0xFF, 0xFF,
      0xFF, 0xFE, 0x80, 0x00, 0x01]) =
      [0xFF800001, 0xFFFFFFFE, 0xFFFFFFFF, 0x00000001, 0x007FFFFF, 0xFF800000] := by decide

/-- 95 section 2.5. -/
theorem test_addr :
    addr Config.sample 0 .code = 1004 ∧ addr Config.sample 3 .update = 1031 ∧ addr Config.sample 7 .phase = 1073 := by
  decide

/-! ### One or two steps of each instruction -/

/-- V-Q10: a reload takes INIT back. -/
theorem test_codeLoad : (after (.codeLoad 0 2) (one inited)).port = .returned (.ok .done) ∧
    ((after (.codeLoad 0 2) (one inited)).chan 0).seq = ⟨.idle, .one, false, false⟩ := by decide

/-- V-X7. -/
theorem test_codeLoad_fault :
    (after (.codeLoad 0 1) (draws .fault (one inited))).port = .returned .transportFault ∧
    ((after (.codeLoad 0 1) (draws .fault (one inited))).chan 0).seq.armStep = .zero ∧
    ((after (.codeLoad 0 1) (draws .fault (one inited))).chan 0).code.defined = false := by decide

/-- R113's example, on channel 0. -/
theorem test_initWrite :
    ((after (.initWrite 0 17 (-8388608) 1023) (one loaded)).chan 0).init = .image #v[0x00, 0x7F, 0xF0, 0x00, 0x00, 0x11] ∧
    (after (.initWrite 0 17 (-8388608) 1023) (one loaded)).busLog =
      [⟨1000, 6, some [0x00, 0x7F, 0xF0, 0x00, 0x00, 0x11], none, .ok⟩] := by decide

/-- V-X2, V-X3, V-X5: the order of the checks. -/
theorem test_initWrite_checks :
    (after (.initWrite 2 0 8388608 0) (one loaded)).port = .returned .badChannel ∧
    (after (.initWrite 0 0 8388608 0) State.reset).port = .returned .seqViolation ∧
    (after (.initWrite 0 0 8388608 0) (one loaded)).port = .returned .rangeFault := by decide

/-- V-Q12. -/
theorem test_updateWrite :
    ((after (.updateWrite 0 0 0) (one inited)).chan 0).seq = ⟨.armed, .zero, true, false⟩ := by decide

/-- V-X8. -/
theorem test_updateWrite_fault :
    ((after (.updateWrite 0 0 0) (draws .fault (one tracking))).chan 0).seq = ⟨.tracking, .zero, false, true⟩ ∧
    ((after (.updateWrite 0 0 0) (draws .fault (one tracking))).chan 0).update = .undef := by decide

/-- P1 line 6, which is V-C4. -/
theorem test_corrRead :
    (after (.corrRead 0) (one tracking)).port =
      .returned (.ok (.corr ⟨1000, ⟨32768, 128⟩, ⟨-65537, 65536⟩, ⟨-4660, 4660⟩⟩)) := by decide

/-- V-X9. -/
theorem test_corrRead_fault :
    (after (.corrRead 0) (draws .fault (one tracking))).port = .returned .transportFault ∧
    ((after (.corrRead 0) (draws .fault (one tracking))).chan 0).corr = .image corrBytes := by decide

theorem test_corrReadTx : (after .corrReadTx State.reset) = State.reset := by decide

/-- P1 line 7, with its record. -/
theorem test_phaseRead :
    (after (.phaseRead 0) (one tracking)).port = .returned (.ok (.phase ⟨1193046, 0⟩)) ∧
    (after (.phaseRead 0) (one tracking)).busLog =
      [⟨1003, 9, some [0, 0, 0x22, 0, 0, 0, 0, 0, 0], some [0, 0, 0, 0, 0, 0, 0x12, 0x34, 0x56], .ok⟩] := by decide

/-- V-X11. -/
theorem test_phaseRead_hang :
    (after (.phaseRead 0) (draws .hang (one tracking))).hung = true ∧
    (after (.phaseRead 0) (draws .hang (one tracking))).port = .empty := by decide

theorem test_phaseReadTx : (after .phaseReadTx State.reset) = State.reset := by decide

/-- V-Q6, V-X10. -/
theorem test_statusRead :
    (after (.statusRead 0) State.reset).port = .returned (.ok (.status false)) ∧
    (after (.statusRead 2) State.reset).port = .returned .badChannel := by decide

/-- P2 line 12: `ERR = 1` is a successful result. -/
theorem test_statusRead_err :
    (after (.statusRead 0) (one { tracking with err := true })).port = .returned (.ok (.status true)) := by decide

/-- V-E11. -/
theorem test_periodIrq_missed :
    ((after (.periodIrq 0 corrBytes phaseBytes) (one tracking)).chan 0).err = true := by decide

/-- V-E12 with the draw `d = 0`. -/
theorem test_periodIrq_draw :
    ((after (.periodIrq 0 corrBytes phaseBytes)
      { one { tracking with seq := { tracking.seq with updUnknown := true } } with errDraws := [false] }).chan 0).err =
      false := by decide

/-- V-E9. -/
theorem test_strobeFall_late :
    ((after (.strobeFall 0) (one tracking)).chan 0).stale = true ∧
    ((after (.strobeFall 0) (one tracking)).chan 0).latch.map (fun e => (e.state, e.updDone)) = [(.tracking, false)] := by
  decide

/-- V-E6, the latch entry of a state armed with P2's operands. -/
theorem test_strobeFall_armed :
    ((after (.strobeFall 0) (one armed)).chan 0).latch =
      [⟨.armed, .image #v[0, 0, 0, 0, 0, 1], .image #v[0, 0, 0, 0, 0, 0], true⟩] ∧
    ((after (.strobeFall 0) (one armed)).chan 0).stale = false := by decide

/-- V-E14, from a stuck block. -/
theorem test_reset : (after .reset (stuck (one served))) = State.reset := by decide

/-- ARM's first part, and the refusal that ends it. -/
theorem test_arm :
    (after (.arm 0 5 0x123456 0x555 0x1234 0x12345678) State.reset).cont = .armInit 0 5 0x123456 0x555 0x1234 0x12345678 ∧
    (after (.arm 0 32 0 0 0 0) State.reset).port = .returned .rangeFault ∧
    (after (.arm 0 32 0 0 0 0) State.reset).cont = .none := by decide

/-- SERVICE's first part. -/
theorem test_service :
    (after (.service 0 (-2) 0x01000000) (one tracking)).cont =
      .servicePhase 0 (-2) 0x01000000 ⟨1000, ⟨32768, 128⟩, ⟨-65537, 65536⟩, ⟨-4660, 4660⟩⟩ := by decide

/-- The port after one step. -/
def stepPort (s : State) : Option Port :=
  match step s with
  | .next t => some t.port
  | .fault _ => none
  | .refused _ => none

/-- The port and the caller's place after one later part. -/
def resumed (s : State) : Option (Port × Cont) :=
  match resumePart s with
  | .next t => some (t.port, t.cont)
  | .fault _ => none
  | .refused _ => none

/-- R97: ARM's INIT_WRITE is out of its domain, so ARM returns RANGE_FAULT. -/
theorem test_arm_stops :
    resumed { one loaded with cont := .armInit 0 1 0 2048 0 0 } = some (.returned .rangeFault, .none) := by decide

/-- R97: SERVICE in a period whose UPDATE is done returns the SEQ_VIOLATION of its last part. -/
theorem test_service_stops :
    resumed { one served with cont := .serviceUpdate 0 1 1 (unpackCorr corrBytes) (unpackPhase phaseBytes) } =
      some (.returned .seqViolation, .none) := by decide

/-- The host's hooks: a table word runs as the first instruction after reset. -/
theorem test_fetch :
    decodeTableWord 48 0x00AAA2468AC5 = some (.initWrite 0 5 0x123456 0x555) ∧
    stepPort (State.reset.withFetchWord 48 0x00AAA2468AC5) = some (.returned .seqViolation) := by decide

/-- 95 section 2.5: with `CHANNEL_STRIDE = 4`, `addr(0, CODE) = 1004 = addr(1, INIT)`; such a layout is outside the spec. -/
def aliasing : State := State.resetWith { Config.sample with channelStride := 4 } 2

theorem test_aliasing_refused :
    addr aliasing.cfg 0 .code = 1004 ∧ addr aliasing.cfg 1 .init = 1004 ∧
    step aliasing = .refused .addressesAlias ∧ addrsDistinct { Config.sample with channelStride := 4 } 1 = true :=
  ⟨by decide, by decide, rfl, by decide⟩

/-! ### Witnesses: states and operands that meet the hypotheses of the statements, one for each clause -/

/-- R121: the corners of the domain, for the narrowest and the widest `CODE_PHASE_IN_BITS`. -/
theorem witness_UnpackInvertsPackOnTheDomain :
    Config.sample.WidthsOk ∧ initInDomain Config.sample 31 (-8388608) 2047 = true ∧
    initInDomain Config.sample 0 8388607 0 = true ∧
    Config.WidthsOk { Config.sample with codePhaseInBits := 14 } ∧
    initInDomain { Config.sample with codePhaseInBits := 14 } 31 8388607 16383 = true ∧
    updateInDomain (-32768) 536870911 = true ∧ updateInDomain 32767 0 = true := by decide

theorem witness_PackInitFieldLayout : (0 : Int) ≤ 2047 ∧ (2047 : Int) ≤ 2047 := by decide

theorem witness_RepackingGivesTheSameImage :
    initReservedZero #v[0x07, 0xFF, 0xFF, 0xFF, 0xFF, 0xFF] = true ∧
    updateReservedZero #v[0x1F, 0xFF, 0xFF, 0xFF, 0xFF, 0xFF] = true := by decide

theorem witness_ReservedBitsAreNeverSent :
    exec (.initWrite 0 31 (-1) 2047) (one loaded) = .next (after (.initWrite 0 31 (-1) 2047) (one loaded)) ∧
    (after (.initWrite 0 31 (-1) 2047) (one loaded)).busLog ≠ [] ∧
    exec (.updateWrite 0 (-1) 0x1FFFFFFF) (one inited) =
      .next (after (.updateWrite 0 (-1) 0x1FFFFFFF) (one inited)) ∧
    (after (.updateWrite 0 (-1) 0x1FFFFFFF) (one inited)).busLog ≠ [] :=
  ⟨runs_next (by decide), by decide, runs_next (by decide), by decide⟩

theorem witness_TapFieldsAreSignExtended :
    (0xFFFFFF : Nat) < 2 ^ 24 ∧ (0 : Nat) < 2 ^ 24 ∧ 24 ≤ Config.hostW { Config.sample with hostW := 24 } ∧
    (#v[0xFF, 0xFF, 0, 0, 0, 0, 0, 0, 0, 0, 0, 0, 0, 0, 0, 0, 0, 0, 0, 0] : CorrImage)[0] = 0xFF := by decide

theorem witness_DecodeOfEncodeIsTheInstruction :
    (Instr.initWrite 9 31 (-8388608) 16383).wellFormed = true ∧ (Instr.codeLoad 0 31).wellFormed = true ∧
    (Instr.service 0 (-32768) 0x1FFFFFFF).wellFormed = true := by decide

theorem witness_OnlyTheFiveTransfersDecode :
    decode (.image 3 .init .tx [0x07, 0, 0, 0, 0, 0]) = .ok (.initWrite 3 0 0 14336) ∧
    decode (.image 3 .update .tx [0x1F, 0, 0, 0, 0, 0]) = .ok (.updateWrite 3 0 0x1F000000) ∧
    decode (.image 3 .corr .rx corrBytes.toList) = .ok (.corrRead 3) ∧
    decode (.image 3 .corr .tx (List.replicate 20 0)) = .ok .corrReadTx ∧
    decode (.image 3 .phase .rx phaseBytes.toList) = .ok (.phaseRead 3) ∧
    decode (.image 3 .phase .tx phaseProbe.toList) = .ok .phaseReadTx := by decide

/-- The small states have the sample layout and two channels. -/
theorem sample_injective : AddrInjective Config.sample 2 := addrsDistinct_iff.1 (by decide)

/-- An event is taken in the middle of a pseudo-operation; an operation waits for its end. -/
theorem witness_StepRunsTheDecodedInstruction :
    (AddrInjective State.reset.cfg State.reset.N ∧ ¬ AddrInjective aliasing.cfg aliasing.N) ∧
    decode (encodeNamed (.strobeFall 0)) = .ok (.strobeFall 0) ∧ (Instr.strobeFall 0).isEvent = true ∧
    decode (encodeNamed (.corrRead 0)) = .ok (.corrRead 0) ∧ (Instr.corrRead 0).isEvent = false ∧
    decode (.word 8 0) = .error (.noSuchFormat 8) ∧
    (after (.service 0 1 1) (one tracking)).cont ≠ .none ∧ State.reset.agenda = [] ∧ State.reset.cont = .none ∧
    decodeTableWord 72 (0x22 <<< 48) = some .phaseReadTx :=
  ⟨⟨sample_injective, mt addrsDistinct_iff.2 (by decide)⟩, by decide⟩

/-- The clauses of R117: `c = N` and `c = N - 1`, `prn` at both ends and beyond, the two outcomes. -/
theorem witness_CodeLoadResult :
    State.reset.hung = false ∧ State.reset.N ≤ 2 ∧ 1 < State.reset.N ∧ ((one armed).chan 0).seq.state ≠ .idle ∧
    (State.reset.chan 1).seq.state = .idle ∧ ¬(0 ≤ (32 : Int) ∧ (32 : Int) ≤ 31) ∧ State.reset.nextOutcome = .ok ∧
    (draws .fault State.reset).nextOutcome = .fault ∧ runs (.codeLoad 1 31) State.reset = true := by decide

/-- The clauses of R113. -/
theorem witness_InitWriteResult :
    (one loaded).hung = false ∧ (one loaded).N ≤ 2 ∧ 0 < (one loaded).N ∧
    ((one loaded).chan 0).seq.state = .idle ∧ ((one loaded).chan 0).seq.armStep = .one ∧
    ((one inited).chan 0).seq.armStep = .two ∧ ((one loaded).chan 1).seq.armStep = .zero ∧
    initInDomain (one loaded).cfg 31 8388607 2047 = true ∧ initInDomain (one loaded).cfg 31 8388607 2048 = false ∧
    (one loaded).nextOutcome = .ok ∧ (draws .fault (one loaded)).nextOutcome = .fault := by decide

/-- The clauses of R116. -/
theorem witness_UpdateWriteResult :
    (one inited).hung = false ∧ (one inited).N ≤ 2 ∧ 0 < (one inited).N ∧
    ((one inited).chan 0).seq.state = .idle ∧ ((one inited).chan 0).seq.armStep = .two ∧
    ((one tracking).chan 0).seq.state = .tracking ∧ ((one tracking).chan 0).seq.updDone = false ∧
    ((one served).chan 0).seq.updDone = true ∧ updateInDomain (-32768) 536870911 = true ∧
    updateInDomain 32768 0 = false ∧ (one inited).nextOutcome = .ok ∧
    (draws .fault (one tracking)).nextOutcome = .fault := by decide

/-- The clauses of R142 and R144; the one of an `undef` window in a state no run reaches. -/
theorem witness_CorrReadResult :
    (one tracking).hung = false ∧ (one tracking).N ≤ 2 ∧ 0 < (one tracking).N ∧
    ((one armed).chan 0).seq.state ≠ .tracking ∧ ((one tracking).chan 0).seq.state = .tracking ∧
    ((one tracking).chan 0).corr = .image corrBytes ∧ ((one { tracking with corr := .undef }).chan 0).corr = .undef ∧
    (one tracking).nextOutcome = .ok ∧ (draws .fault (one tracking)).nextOutcome = .fault := by decide

theorem witness_PhaseReadResult :
    (one tracking).hung = false ∧ (one tracking).N ≤ 2 ∧ 0 < (one tracking).N ∧
    ((one armed).chan 0).seq.state ≠ .tracking ∧ ((one tracking).chan 0).seq.state = .tracking ∧
    ((one tracking).chan 0).phase = .image phaseBytes ∧ ((one { tracking with phase := .undef }).chan 0).phase = .undef ∧
    (one tracking).nextOutcome = .ok ∧ (draws .fault (one tracking)).nextOutcome = .fault := by decide

theorem witness_StatusReadResult :
    State.reset.hung = false ∧ 1 < State.reset.N ∧ State.reset.N ≤ 2 ∧ (stuck State.reset).hung = true := by decide

theorem witness_TransmitImagesChangeNothing : State.reset.hung = false := by decide

/-- The clauses of R163. -/
theorem witness_PeriodIrqEffect :
    1 < State.reset.N ∧ (State.reset.chan 1).seq.state = .idle ∧ ((one armed).chan 0).seq.state = .armed ∧
    ((one served).chan 0).seq.state = .tracking ∧ ((one served).chan 0).seq.updDone = true ∧
    ((one tracking).chan 0).seq.updDone = false ∧ ((one tracking).chan 0).seq.updUnknown = false ∧
    ((one tracking.updateLost).chan 0).seq.state = .tracking ∧ ((one tracking.updateLost).chan 0).seq.updDone = false ∧
    ((one tracking.updateLost).chan 0).seq.updUnknown = true := by decide

/-- The clauses of R164. -/
theorem witness_StrobeFallEffect :
    1 < State.reset.N ∧ (State.reset.chan 1).seq.state = .idle ∧ (State.reset.chan 1).seq.armStep = .zero ∧
    ((one loaded).chan 0).seq.state = .idle ∧ ((one loaded).chan 0).seq.armStep ≠ .zero ∧
    ((one armed).chan 0).seq.state = .armed ∧ ((one served).chan 0).seq.updDone = true ∧
    ((one tracking).chan 0).seq.updDone = false := by decide

theorem witness_ResetEffect : 1 < State.reset.N := by decide
theorem witness_ResetStateValues : (0 : Nat) < 1 := by decide

/-- ARM's first part, and one that CODE_LOAD's refusal ends. -/
theorem witness_ArmStartsWithCodeLoad :
    State.reset.hung = false ∧ 1 < State.reset.N ∧ (State.reset.chan 1).seq.state = .idle ∧ State.reset.nextOutcome = .ok ∧
    runs (.codeLoad 1 31) State.reset = true ∧
    runs (.codeLoad 1 32) State.reset = true ∧ (after (.codeLoad 1 32) State.reset).port ≠ .returned (.ok .done) := by
  decide

theorem witness_ArmTakesThreeStepsToArmed :
    ∃ s : State, AddrInjective s.cfg s.N ∧ s.hung = false ∧ 1 < s.N ∧ s.cont = .none ∧
      s.agenda = [.issue (encodeNamed (.arm 1 31 (-8388608) 2047 32767 0x1FFFFFFF))] ∧
      (s.chan 1).seq.state = .idle ∧ codeLoadInDomain 31 = true ∧ initInDomain s.cfg 31 (-8388608) 2047 = true ∧
      updateInDomain 32767 0x1FFFFFFF = true ∧ ∀ k, k < 3 → s.outcomes.getD k .ok = .ok :=
  ⟨{ State.reset with agenda := [.issue (encodeNamed (.arm 1 31 (-8388608) 2047 32767 0x1FFFFFFF))] },
    sample_injective, by decide, by decide, rfl, rfl, by decide, by decide, by decide, by decide, by decide⟩

theorem witness_ServiceStartsWithCorrRead :
    (one tracking).hung = false ∧ 0 < (one tracking).N ∧ ((one tracking).chan 0).seq.state = .tracking ∧
    ((one tracking).chan 0).corr = .image corrBytes ∧ (one tracking).nextOutcome = .ok ∧
    runs (.corrRead 0) (one { tracking with corr := .undef }) = true ∧
    (∃ v, (after (.corrRead 0) (one { tracking with corr := .undef })).port = .returned (.ok v)) ∧
    runs (.corrRead 0) (one armed) = true ∧ (after (.corrRead 0) (one armed)).port = .returned .seqViolation :=
  ⟨by decide, by decide, by decide, by decide, by decide, by decide, ⟨_, rfl⟩, by decide, by decide⟩

theorem witness_ServiceReturnsBothResults :
    ∃ s : State, AddrInjective s.cfg s.N ∧ s.hung = false ∧ 0 < s.N ∧ s.cont = .none ∧
      s.agenda = [.issue (encodeNamed (.service 0 (-32768) 0))] ∧
      (s.chan 0).seq.state = .tracking ∧ (s.chan 0).seq.updDone = false ∧ (s.chan 0).corr = .image corrBytes ∧
      (s.chan 0).phase = .image phaseBytes ∧ updateInDomain (-32768) 0 = true ∧
      ∀ k, k < 3 → s.outcomes.getD k .ok = .ok :=
  ⟨{ one tracking with agenda := [.issue (encodeNamed (.service 0 (-32768) 0))] },
    sample_injective, by decide, by decide, rfl, rfl, by decide, by decide, by decide, by decide, by decide,
    by decide⟩

/-- For each constructor of `Cont` a part that returns OK and one that does not: an operand out of its domain, a transport
that faults, one that hangs, a period whose UPDATE is done. -/
theorem witness_LaterPartsRunTheirOperation :
    let part := fun (k : Cont) (s : State) => { s with cont := k }
    let corr := unpackCorr corrBytes
    let phase := unpackPhase phaseBytes
    (part (.armInit 0 1 0 0 0 0) (one loaded)).hung = false ∧
    runs (.initWrite 0 1 0 0) (part (.armInit 0 1 0 0 0 0) (one loaded)) = true ∧
    (after (.initWrite 0 1 0 0) (one loaded)).port = .returned (.ok .done) ∧
    runs (.initWrite 0 1 0 2048) (part (.armInit 0 1 0 2048 0 0) (one loaded)) = true ∧
    (after (.initWrite 0 1 0 2048) (one loaded)).port = .returned .rangeFault ∧
    runs (.updateWrite 0 0 0) (part (.armUpdate 0 0 0) (one inited)) = true ∧
    (after (.updateWrite 0 0 0) (one inited)).port = .returned (.ok .done) ∧
    runs (.updateWrite 0 0 0) (part (.armUpdate 0 0 0) (draws .fault (one inited))) = true ∧
    (after (.updateWrite 0 0 0) (draws .fault (one inited))).port = .returned .transportFault ∧
    runs (.phaseRead 0) (part (.servicePhase 0 1 1 corr) (one tracking)) = true ∧
    (after (.phaseRead 0) (one tracking)).port = .returned (.ok (.phase phase)) ∧
    runs (.phaseRead 0) (part (.servicePhase 0 1 1 corr) (draws .hang (one tracking))) = true ∧
    (after (.phaseRead 0) (draws .hang (one tracking))).port = .empty ∧
    runs (.updateWrite 0 1 1) (part (.serviceUpdate 0 1 1 corr phase) (one tracking)) = true ∧
    runs (.updateWrite 0 1 1) (part (.serviceUpdate 0 1 1 corr phase) (one served)) = true ∧
    (after (.updateWrite 0 1 1) (one served)).port = .returned .seqViolation ∧
    (part (.armUpdate 0 0 0) (stuck (one inited))).hung = true := by decide

theorem witness_BadChannelIsRefused : State.reset.N ≤ 2 ∧ State.reset.hung = false := by decide

/-- The six columns of the table. -/
theorem witness_AdmissionTable :
    (one tracking).hung = false ∧ 0 < (one tracking).N ∧ (State.reset.chan 0).seq = ⟨.idle, .zero, false, false⟩ ∧
    ((one loaded).chan 0).seq = ⟨.idle, .one, false, false⟩ ∧ ((one inited).chan 0).seq = ⟨.idle, .two, false, false⟩ ∧
    ((one armed).chan 0).seq = ⟨.armed, .zero, true, false⟩ ∧
    ((one tracking).chan 0).seq = ⟨.tracking, .zero, false, false⟩ ∧
    ((one served).chan 0).seq = ⟨.tracking, .zero, true, false⟩ := by decide

/-- Each clause of the order of checks, with INIT_WRITE. -/
theorem witness_ChecksInFixedOrder :
    (stuck (one loaded)).hung = true ∧ (one loaded).hung = false ∧ (one loaded).N ≤ 2 ∧ 0 < (one loaded).N ∧
    permitInitWrite ((one armed).chan 0).seq = false ∧ permitInitWrite ((one loaded).chan 0).seq = true ∧
    initInDomain (one loaded).cfg 32 0 0 = false ∧ initInDomain (one loaded).cfg 31 0 0 = true ∧
    (draws .hang (one loaded)).nextOutcome = .hang := by decide

/-- One refusal of each kind. -/
theorem witness_RefusedOperationChangesNothing :
    runs (.statusRead 2) State.reset = true ∧ (after (.statusRead 2) State.reset).port = .returned .badChannel ∧
    runs (.corrRead 0) State.reset = true ∧ (after (.corrRead 0) State.reset).port = .returned .seqViolation ∧
    runs (.arm 0 (-1) 0 0 0 0) State.reset = true ∧
    (after (.arm 0 (-1) 0 0 0 0) State.reset).port = .returned .rangeFault ∧
    (Instr.arm 0 (-1) 0 0 0 0).isEvent = false ∧ (Instr.arm 0 (-1) 0 0 0 0).channel ≠ none := by decide

theorem witness_TransportFaultExactlyOnFault :
    runs (.corrRead 0) (draws .fault (one tracking)) = true ∧ (Instr.corrRead 0).isEvent = false ∧
    (Instr.corrRead 0).channel ≠ none ∧
    (after (.corrRead 0) (draws .fault (one tracking))).port = .returned .transportFault := by decide

/-- Each clause of R61. -/
theorem witness_HangLeavesTheBlockStuck :
    (draws .hang (one tracking)).hung = false ∧ 0 < (draws .hang (one tracking)).N ∧
    (draws .hang (one tracking)).nextOutcome = .hang ∧ ((one inited).chan 0).seq.state = .idle ∧
    codeLoadInDomain 31 = true ∧ ((one inited).chan 0).seq.armStep ≠ .zero ∧
    initInDomain (one inited).cfg 0 (-8388608) 0 = true ∧ ((one inited).chan 0).seq.armStep = .two ∧
    updateInDomain 0 0 = true ∧ ((one tracking).chan 0).seq.state = .tracking ∧
    ((one tracking).chan 0).seq.updDone = false := by decide

/-- A stuck block through which both engine events run; an existing channel's event, and RESET. -/
theorem witness_StuckBlockOnlySeesEvents :
    (stuck (one tracking)).hung = true ∧ Instr.reset ∉ [Instr.strobeFall 0, .periodIrq 0 corrBytes phaseBytes] ∧
    runsAll [.strobeFall 0, .periodIrq 0 corrBytes phaseBytes] (stuck (one tracking)) = true ∧
    (Instr.corrRead 0).isEvent = false ∧ (Instr.strobeFall 1).channel = some 1 ∧ 1 < (stuck (one tracking)).N ∧
    (Instr.reset).isEvent = true ∧ (Instr.reset).channel = none := by decide

/-- A transfer, an event, a status read and a refusal. -/
theorem witness_AtMostOneTransferAStep :
    runs (.corrRead 0) (one tracking) = true ∧ (after (.corrRead 0) (one tracking)).busLog ≠ [] ∧
    runs (.strobeFall 1) (one tracking) = true ∧ runs (.statusRead 0) (one tracking) = true ∧
    runs (.codeLoad 0 0) (one tracking) = true ∧
    (after (.codeLoad 0 0) (one tracking)).port = .returned .seqViolation := by decide

/-- A legal state from which a step makes a transfer. -/
theorem witness_EveryStepKeepsTheBusLogLegal :
    ∃ s : State, s.BusInv ∧ (∃ t, step s = .next t ∧ t.busLog.length = 1) :=
  ⟨{ State.reset with agenda := [.issue (encodeNamed (.codeLoad 1 31))] },
    ⟨by simp [State.reset, State.resetWith], by simp [State.reset, State.resetWith],
      by simp [State.reset, State.resetWith]⟩,
    after (.codeLoad 1 31) State.reset, rfl, rfl⟩

theorem armed_inv : armed.Inv := by
  constructor <;> simp [armed, inited, loaded, Channel.updateWritten, Channel.initWritten, Channel.codeLoaded,
    Channel.reset, Seq.reset, Content.defined, packInit_reserved, packUpdate_reserved]

/-- A started channel meets the invariant, and a step from it goes on. -/
theorem witness_EveryStepKeepsTheSequencerInvariant :
    ∃ s : State, s.SeqInv ∧ (s.chan 0).seq.state = .armed ∧
      ∃ t, step s = .next t ∧ (t.chan 0).seq.state = .tracking := by
  refine ⟨{ one armed with agenda := [.issue (encodeNamed (.periodIrq 0 corrBytes phaseBytes))] }, ?_, rfl,
    { after (.periodIrq 0 corrBytes phaseBytes) (one armed) with agenda := [] }, rfl, rfl⟩
  intro ch h
  rcases List.mem_cons.1 h with rfl | h
  · exact armed_inv
  · rw [List.mem_singleton.1 h]
    constructor <;> simp [Channel.reset, Seq.reset, Content.defined]

theorem witness_ConfigurationNeverChanges :
    stepPort { State.reset with agenda := [.issue (encodeNamed (.statusRead 1))] } ≠ none := by decide

/-- `ERR` set by a missed update, and kept by an event that could. -/
theorem witness_ErrIsStickyAndSetByAMissedUpdate :
    runs (.periodIrq 0 corrBytes phaseBytes) (one tracking) = true ∧ ((one tracking).chan 0).err = false ∧
    ((after (.periodIrq 0 corrBytes phaseBytes) (one tracking)).chan 0).err = true ∧
    runs (.periodIrq 0 corrBytes phaseBytes) (one { served with err := true }) = true := by decide

theorem witness_StaleIsStickyAndSetByALateStrobe :
    runs (.strobeFall 0) (one loaded) = true ∧ ((one loaded).chan 0).stale = false ∧
    ((after (.strobeFall 0) (one loaded)).chan 0).stale = true ∧
    ((after (.strobeFall 0) (one tracking)).chan 0).stale = true ∧
    runs (.strobeFall 0) (one { armed with stale := true }) = true := by decide

theorem witness_OnlyResetReturnsToIdle :
    runs (.codeLoad 0 1) (one tracking) = true ∧ ((one tracking).chan 0).seq.state = .tracking ∧
    runs (.periodIrq 0 corrBytes phaseBytes) (one armed) = true ∧ ((one armed).chan 0).seq.state = .armed ∧
    runs .reset (one tracking) = true := by decide

theorem witness_OtherChannelsAreUntouched :
    (Instr.codeLoad 1 31).channel = some 1 ∧ (0 : Nat) ≠ 1 ∧ runs (.codeLoad 1 31) (one tracking) = true := by decide

/-- Two states that differ in channel 1 and in the bus log, and agree on channel 0. -/
theorem witness_ResultsDependOnTheirOwnChannelOnly :
    ∃ s₁ s₂ t₁ : State, s₁ ≠ s₂ ∧ (Instr.corrRead 0).channel = some 0 ∧ s₁.chan 0 = s₂.chan 0 ∧ s₁.N = s₂.N ∧
      s₁.cfg = s₂.cfg ∧ s₁.hung = s₂.hung ∧ s₁.port = s₂.port ∧ s₁.cont = s₂.cont ∧ s₁.outcomes = s₂.outcomes ∧
      s₁.errDraws = s₂.errDraws ∧ s₁.fresh = s₂.fresh ∧ exec (.corrRead 0) s₁ = .next t₁ :=
  ⟨one tracking, { one tracking with channels := [tracking, { Channel.reset with err := true }] }, _,
    fun h => absurd (congrArg (fun s : State => (s.chan 1).err) h) (by decide),
    rfl, rfl, rfl, rfl, rfl, rfl, rfl, rfl, rfl, rfl, runs_next (by decide)⟩

theorem witness_ReadsChangeNoChannel :
    runs (.corrRead 0) (one tracking) = true ∧ runs (.phaseRead 0) (one tracking) = true ∧
    runs (.statusRead 0) (one tracking) = true := by decide

theorem witness_WritesTouchTheirWindowOnly :
    runs (.codeLoad 0 0) (one loaded) = true ∧ runs (.initWrite 0 0 0 0) (one loaded) = true ∧
    runs (.updateWrite 0 0 0) (one tracking) = true := by decide

theorem witness_EventsTouchTheirChannelOnly :
    runs (.periodIrq 0 corrBytes phaseBytes) (one tracking) = true ∧ runs (.strobeFall 0) (one tracking) = true := by
  decide

/-- A run of two periods that meets every premise, and, from a half-armed channel, one that ends arming. Two interrupts in a
row are compliant but neither alternate nor meet the interrupt deadline (log entry 10); a strobe while arming, a strobe
before the period's UPDATE and a transfer that faults are each not compliant. -/
theorem witness_RunsOnTimeStayClean :
    let period := Instr.periodIrq 0 corrBytes phaseBytes
    let is := [Instr.strobeFall 0, period, .updateWrite 0 1 1, .strobeFall 0, period]
    let arming := [Instr.updateWrite 0 1 1, .strobeFall 0, period]
    let twoPeriods := [Instr.strobeFall 0, period, period]
    (runsAll is (one armed) = true ∧ ((one armed).chan 0).stale = false ∧ ((one armed).chan 0).err = false ∧
      compliantRun 0 is (one armed) = true ∧ altRun 0 is (one armed) = true ∧
      periodsOnTimeRun 0 is (one armed) = true ∧ onTimeRun 0 is (one armed) = true) ∧
    (((one armed).chan 0).Inv ∧ ∀ e, e ∈ ((one armed).chan 0).latch → e.Complete) ∧
    (runsAll arming (one inited) = true ∧ compliantRun 0 arming (one inited) = true ∧
      altRun 0 arming (one inited) = true) ∧
    (compliantRun 0 twoPeriods (one armed) = true ∧ altRun 0 twoPeriods (one armed) = false ∧
      periodsOnTimeRun 0 twoPeriods (one armed) = false) ∧
    compliantRun 0 [.strobeFall 0] (one inited) = false ∧
    compliantRun 0 [period, .strobeFall 0] (one armed) = false ∧
    compliantRun 0 [.corrRead 0] (draws .fault (one tracking)) = false := by
  refine ⟨by decide, ⟨armed_inv, nofun⟩, by decide, by decide, by decide, by decide, by decide⟩

theorem witness_OneUpdateBetweenPeriodBoundaries :
    let is := [Instr.corrRead 0, .strobeFall 0, .codeLoad 1 3]
    0 < (one served).N ∧ ((one served).chan 0).seq.state = .tracking ∧ ((one served).chan 0).seq.updDone = true ∧
    ((one armed).chan 0).seq.state = .armed ∧ (∀ i, i ∈ is → i.isPeriodOf 0 = false ∧ i ≠ .reset) ∧
    runsAll is (one served) = true ∧ runsAll is (one armed) = true := by decide

theorem witness_ReadsRepeatUntilTheNextPeriod :
    let is := [Instr.corrRead 0, .updateWrite 0 1 1, .strobeFall 0]
    ((one tracking).chan 0).corr = .image corrBytes ∧ ((one tracking).chan 0).phase = .image phaseBytes ∧
    (∀ i, i ∈ is → i.isPeriodOf 0 = false ∧ i ≠ .reset) ∧ runsAll is (one tracking) = true ∧
    runsAll (is ++ [.corrRead 0]) (one tracking) = true ∧ runsAll (is ++ [.phaseRead 0]) (one tracking) = true := by
  decide

theorem witness_FirstLatchHoldsTheArmingImages :
    let is := [Instr.strobeFall 0, .periodIrq 0 corrBytes phaseBytes, .strobeFall 0]
    ((one armed).chan 0).seq.state = .armed ∧ ((one armed).chan 0).latch = [] ∧ Instr.reset ∉ is ∧
    alternates 0 true is = true ∧ runsAll is (one armed) = true ∧
    ((after (.strobeFall 0) (one armed)).chan 0).latch.head? ≠ none := by decide

theorem witness_HZeroPhaseReadsGiveZeroCodePhase :
    HZero phaseBytes ∧ ((one armed).chan 0).seq.state ≠ .idle ∧
    runs (.periodIrq 0 corrBytes phaseBytes) (one armed) = true ∧
    (after (.phaseRead 0) (after (.periodIrq 0 corrBytes phaseBytes) (one armed))).port =
      .returned (.ok (.phase ⟨1193046, 0⟩)) :=
  ⟨⟨rfl, rfl, rfl, rfl, rfl, rfl⟩, by decide, by decide, by decide⟩

theorem witness_TheTwoDeadlinesAreDistinct :
    (one tracking).hung = false ∧ 0 < (one tracking).N ∧ ((one tracking).chan 0).seq.state = .tracking ∧
    ((one tracking).chan 0).seq.updDone = false ∧ ((one tracking).chan 0).seq.updUnknown = false ∧
    updateInDomain (-32768) 536870911 = true ∧ (one tracking).nextOutcome = .ok := by decide

theorem witness_RunsWithoutHangEndInAFinalState :
    (draws .fault (one tracking)).hung = false ∧ XferOutcome.hang ∉ (draws .fault (one tracking)).outcomes ∧
    runsAll [.corrRead 0, .corrRead 0, .reset] (draws .fault (one tracking)) = true := by decide

/-- Three steps: SERVICE is issued, an event comes between its parts, and the next part is taken. -/
theorem witness_RunsOfStepsAreRunsOfInstructions :
    ∃ t, Sys2Proof.core.run 3 { one tracking with agenda := [.issue (.named .service (some 0) [1, 1] []),
      .issue (.named .strobeFall (some 0) [] []), .resume] } = .next t ∧
      t.cont = .serviceUpdate 0 1 1 (unpackCorr corrBytes) (unpackPhase phaseBytes) ∧ t.agenda = [] :=
  ⟨_, rfl, by decide, by decide⟩

theorem witness_SmallDistinctOffsetsGiveDistinctAddresses :
    (∀ w, offsetOf Config.sample w < Config.sample.channelStride) ∧
    (∀ w w', offsetOf Config.sample w = offsetOf Config.sample w' → w = w') :=
  ⟨fun w => by cases w <;> decide, fun w w' => by cases w <;> cases w' <;> decide⟩

end Sys2Proof.Tests.Slice0
end

section
/-! Family `00_scope.md`, statements O14, O42 and O60: what a step takes from the agenda, what it leaves fixed, and runs of
steps as runs of instructions. -/

namespace Sys2Proof.Machine

/-! ### One turn, by what stands at the head of the agenda (R11, R97) -/

theorem Cont.isNone_iff {k : Cont} : k.isNone = true ↔ k = .none := by
  cases k <;> simp [Cont.isNone]

/-- With nothing under way there is no next part to take. -/
theorem resumePart_of_cont_none {s : State} (hk : s.cont = .none) : resumePart s = .next s := by
  simp only [resumePart, hk]

/-- With an empty agenda the caller goes on. -/
theorem runTurn_nil {s : State} (ha : s.agenda = []) : runTurn s = resumePart s := by
  simp only [runTurn, ha]

/-- A resume turn is used up by the caller's going on. -/
theorem runTurn_resume {s : State} {rest : List Turn} (ha : s.agenda = .resume :: rest) :
    runTurn s = resumePart { s with agenda := rest } := by
  simp only [runTurn, ha]

/-- A frame that does not decode is refused by name. -/
theorem runTurn_undecodable {s : State} {f : Frame} {rest : List Turn} {e : DecodeError}
    (ha : s.agenda = .issue f :: rest) (hd : decode f = .error e) : runTurn s = .refused (.undecodable e) := by
  simp only [runTurn, ha, hd]

/-- An event always happens, and an operation is issued by a caller that is free. -/
theorem runTurn_issue {s : State} {f : Frame} {rest : List Turn} {i : Instr} (ha : s.agenda = .issue f :: rest)
    (hd : decode f = .ok i) (hi : i.isEvent = true ∨ s.cont = .none) :
    runTurn s = exec i { s with agenda := rest } := by
  have free : (i.isEvent || s.cont.isNone) = true := by simpa [Cont.isNone_iff] using hi
  simp only [runTurn, ha, hd, free, if_true]

/-- An operation waits while a pseudo-operation is under way: its next part goes first. -/
theorem runTurn_issue_waits {s : State} {f : Frame} {rest : List Turn} {i : Instr} (ha : s.agenda = .issue f :: rest)
    (hd : decode f = .ok i) (hi : i.isEvent = false) (hk : s.cont ≠ .none) : runTurn s = resumePart s := by
  have busy : (i.isEvent || s.cont.isNone) = false := by
    rw [hi, Bool.false_or, Bool.eq_false_iff]; exact mt Cont.isNone_iff.1 hk
  simp only [runTurn, ha, hd, busy, Bool.false_eq_true, if_false]

/-! ### One step (R52) -/

/-- In a layout with distinct addresses a step is a turn. -/
theorem step_of_addrInjective {s : State} (hinj : AddrInjective s.cfg s.N) : step s = runTurn s :=
  if_pos (addrsDistinct_iff.2 hinj)

/-- In a layout in which two windows share an address no step is taken. -/
theorem step_of_alias {s : State} (halias : ¬ AddrInjective s.cfg s.N) : step s = .refused .addressesAlias :=
  if_neg (mt addrsDistinct_iff.1 halias)

theorem decodeTableWord_eq_some {nbits w : Nat} {i : Instr} :
    decodeTableWord nbits w = some i ↔ decode (.word nbits w) = .ok i := by
  unfold decodeTableWord
  cases decode (.word nbits w) <;> simp [Except.toOption]

/-- A table word placed at the head of the agenda of a freed caller is what the next turn runs. -/
theorem runTurn_withFetchWord {nbits w : Nat} {i : Instr} (s : State) (hd : decodeTableWord nbits w = some i) :
    runTurn (s.withFetchWord nbits w) = exec i { s with cont := .none } :=
  runTurn_issue (s := s.withFetchWord nbits w) rfl (decodeTableWord_eq_some.1 hd) (.inr rfl)

/-- Settles O14: a step is a turn exactly in the layouts of R52, and each clause is the turn with that head. -/
theorem stepRunsTheDecodedInstruction : Obligations.StepRunsTheDecodedInstruction := by
  intro s
  refine ⟨step_of_alias, fun hinj => ?_⟩
  rw [step_of_addrInjective hinj]
  refine ⟨fun f rest i => runTurn_issue, fun f rest i => runTurn_issue_waits, fun f rest e => runTurn_undecodable,
    fun rest => runTurn_resume, runTurn_nil, fun ha hk => ?_, fun nbits w i hd => ?_⟩
  · exact (runTurn_nil ha).trans (resumePart_of_cont_none hk)
  · exact (step_of_addrInjective (s := s.withFetchWord nbits w) hinj).trans (runTurn_withFetchWord s hd)

/-! ### The configuration (R11, R45) -/

/-- The caller's own fields hold neither the configuration nor the channels. -/
theorem SameBlock.fixed {s t : State} (h : SameBlock s t) : t.cfg = s.cfg ∧ t.N = s.N := by
  rw [h]; exact ⟨rfl, rfl⟩

/-- No step changes the configuration or the channel count. -/
theorem step_fixed {s t : State} (h : step s = .next t) : t.cfg = s.cfg ∧ t.N = s.N := by
  obtain ⟨-, -, ⟨hsame, -⟩ | ⟨i, u, hu, hsame, -⟩⟩ := step_exec h
  · exact hsame.fixed
  · obtain ⟨hcfg, hN⟩ := exec_fixed hu
    exact ⟨hsame.fixed.1.trans hcfg, hsame.fixed.2.trans hN⟩

/-- Settles O42: a step is taken in a layout that passes the check of R52 only, and keeps all that the check reads. -/
theorem configurationNeverChanges : Obligations.ConfigurationNeverChanges := by
  intro s t h
  obtain ⟨hcfg, hN⟩ := step_fixed h
  have hinj : AddrInjective s.cfg s.N := addrsDistinct_iff.1 (step_runTurn h).1
  exact ⟨hcfg, hN, hinj, by rwa [hcfg, hN]⟩

/-! ### Runs of steps -/

/-- A run of `k + 1` steps is a step and a run of `k` steps from where it leads. -/
theorem coreRun_succ_eq_next {M : Host.Core} {k : Nat} {s t : M.State} :
    M.run (k + 1) s = .next t ↔ ∃ u, M.step s = .next u ∧ M.run k u = .next t := by
  simp only [Host.Core.run]
  cases M.step s <;> simp

/-- An instruction, and a run from a state like the one it leads to, are one run. -/
theorem runInstrs_cons_of_sameBlock {i : Instr} {is : List Instr} {s u s' t : State} (hi : exec i s = .next u)
    (hs : SameBlock u s') (h : runInstrs is s' = .next t) :
    ∃ t', runInstrs (i :: is) s = .next t' ∧ SameBlock t t' := by
  simpa only [runInstrs, hi] using runInstrs_caller hs.symm h

/-- Settles O60, by induction on the number of steps: each step is at most one instruction but for the caller's fields
(`step_exec`), and these decide nothing of what the instructions after it do to the block (`runInstrs_caller`). -/
theorem runsOfStepsAreRunsOfInstructions : Obligations.RunsOfStepsAreRunsOfInstructions := by
  intro k
  induction k with
  | zero =>
    intro s t h
    cases h
    exact ⟨[], [], s, le_rfl, rfl, rfl, rfl, rfl⟩
  | succ k ih =>
    intro s t h
    obtain ⟨s', hstep, hrun⟩ := coreRun_succ_eq_next.1 h
    obtain ⟨is, later, u, hlen, hu, hut, hlater, hevents⟩ := ih s' t hrun
    obtain ⟨used, hused, hone⟩ := step_exec hstep
    have hagenda : s.agenda = (used ++ later) ++ t.agenda := by rw [hused, hlater, List.append_assoc]
    rcases hone with ⟨hsame, hnone⟩ | ⟨i, v, hi, hsame, hevent⟩
    · obtain ⟨u', hu', huu'⟩ := runInstrs_caller hsame.symm hu
      exact ⟨is, used ++ later, u', by omega, hu', huu'.symm.trans hut, hagenda, by
        rw [List.filterMap_append, hnone, hevents, List.nil_append]⟩
    · obtain ⟨u', hu', huu'⟩ := runInstrs_cons_of_sameBlock hi hsame hu
      exact ⟨i :: is, used ++ later, u', by simpa using hlen, hu', huu'.symm.trans hut, hagenda, by
        rw [List.filterMap_append, ← hevent, ← hevents, ← List.filter_append, List.singleton_append]⟩

end Sys2Proof.Machine
end

section
/-! Family `10_state.md`, statements O25, O36, O38 to O41, O43, O44 and O47: the reset state, the invariants of the bus log
and of a channel, the stuck block, the two sticky flags, and what an instruction's result depends on. -/

namespace Sys2Proof.Machine

/-! ### From instructions to steps -/

/-- What does not depend on the caller's fields and every instruction keeps, every step keeps. -/
theorem step_keeps {P : State → Prop} (caller : ∀ {s t}, SameBlock s t → P s → P t)
    (instr : ∀ {i s t}, exec i s = .next t → P s → P t) {s t : State} (h : step s = .next t) (hs : P s) : P t := by
  obtain ⟨-, -, ⟨hsame, -⟩ | ⟨i, u, hu, hsame, -⟩⟩ := step_exec h
  · exact caller hsame hs
  · exact caller hsame (instr hu hs)

/-! ### The bus log (R31, R54, R71) -/

/-- What one operation does to the bus: it starts in a block that is not stuck, and makes no transfer, or a legal one that
leaves the block stuck exactly if it hung. -/
theorem OpStep.bus {c : Nat} {s t : State} (h : OpStep c s t) :
    s.hung = false ∧
      ((t.hung = false ∧ t.busLog = s.busLog) ∨
        ∃ r : BusRecord, r.Legal s.cfg s.N ∧ t.busLog = s.busLog ++ [r] ∧ (t.hung = true ↔ r.outcome = .hang)) := by
  cases h with
  | refused r hh hr => exact ⟨hh, .inl ⟨hh, rfl⟩⟩
  | status hh hc => exact ⟨hh, .inl ⟨hh, rfl⟩⟩
  | transferred r ch n v hh hc hl hch ho hr => exact ⟨hh, .inr ⟨r, hl, rfl, by simp [hh, hr]⟩⟩
  | faulted r ch hh hc hl hch ho hr => exact ⟨hh, .inr ⟨r, hl, rfl, by simp [hh, hr]⟩⟩
  | hung r ch hh hc hl hch ho hr => exact ⟨hh, .inr ⟨r, hl, rfl, by simp [hr]⟩⟩

/-- The invariant of the bus reads the configuration, the channel count, `HUNG` and the log only. -/
theorem State.BusInv.congr {s t : State} (hs : s.BusInv) (hcfg : t.cfg = s.cfg) (hN : t.N = s.N)
    (hh : t.hung = s.hung) (hlog : t.busLog = s.busLog) : t.BusInv where
  legal := by rw [hcfg, hN, hlog]; exact hs.legal
  hung_iff := by rw [hh, hlog]; exact hs.hung_iff
  only_last := by rw [hlog]; exact hs.only_last

/-- The caller's own fields do not matter to the bus. -/
theorem State.BusInv.sameBlock {s t : State} (hst : SameBlock s t) (hs : s.BusInv) : t.BusInv := by
  rw [hst]; exact hs.congr rfl rfl rfl rfl

/-- An empty log of a block that is not stuck is legal. -/
theorem busInv_of_empty {s : State} (hh : s.hung = false) (hlog : s.busLog = []) : s.BusInv where
  legal := by simp [hlog]
  hung_iff := by simp [hh, hlog]
  only_last := by simp [hlog]

/-- In a block that is not stuck no transfer has hung: an earlier one never has, and the last would have left it stuck. -/
theorem State.BusInv.no_hang {s : State} (hs : s.BusInv) (hh : s.hung = false) {r : BusRecord} (hr : r ∈ s.busLog) :
    r.outcome ≠ .hang := by
  intro hang
  obtain ⟨init, last, hlog⟩ := (List.eq_nil_or_concat' s.busLog).resolve_left (List.ne_nil_of_mem hr)
  rcases List.mem_append.1 (hlog ▸ hr) with hinit | hlast
  · exact hs.only_last r (by simpa [hlog] using hinit) hang
  · obtain rfl := List.mem_singleton.1 hlast
    simpa [hh] using hs.hung_iff.2 ⟨r, by simp [hlog], hang⟩

/-- A block that is not stuck may append one legal record, and is stuck afterwards exactly if that transfer hung. -/
theorem State.BusInv.append {s t : State} {r : BusRecord} (hs : s.BusInv) (hh : s.hung = false) (hcfg : t.cfg = s.cfg)
    (hN : t.N = s.N) (hr : r.Legal s.cfg s.N) (hlog : t.busLog = s.busLog ++ [r])
    (hung : t.hung = true ↔ r.outcome = .hang) : t.BusInv where
  legal x hx := by
    rw [hcfg, hN]
    rcases List.mem_append.1 (hlog ▸ hx) with hx | hx
    · exact hs.legal x hx
    · rwa [List.mem_singleton.1 hx]
  hung_iff := by simp [hlog, hung]
  only_last x hx := hs.no_hang hh (by simpa [hlog] using hx)

/-- One operation keeps the bus log legal. -/
theorem OpStep.keeps_busInv {c : Nat} {s t : State} (h : OpStep c s t) (hs : s.BusInv) : t.BusInv := by
  obtain ⟨hcfg, hN, -⟩ := h.fixed
  obtain ⟨hh, ⟨hh', hlog⟩ | ⟨r, hr, hlog, hung⟩⟩ := h.bus
  · exact hs.congr hcfg hN (hh'.trans hh.symm) hlog
  · exact hs.append hh hcfg hN hr hlog hung

/-- Every instruction keeps the bus log legal: an operation by its one transfer, RESET by emptying the log, the rest by
leaving the bus alone. -/
theorem exec_keeps_busInv {i : Instr} {s t : State} (h : exec i s = .next t) (hs : s.BusInv) : t.BusInv := by
  obtain ⟨hcfg, hN⟩ := exec_fixed h
  rcases exec_next h with ⟨c, u, -, -, hu, rfl | ⟨k, rfl⟩⟩ | ⟨-, -, rfl⟩ | ⟨c, corr, phase, -, -, rfl⟩ | ⟨c, -, -, rfl⟩ |
    ⟨-, rfl⟩
  · exact hu.keeps_busInv hs
  · exact (hu.keeps_busInv hs).sameBlock rfl
  · exact hs
  · exact hs.congr hcfg hN (by split <;> simp) (by split <;> simp)
  · exact hs.congr hcfg hN rfl rfl
  · exact busInv_of_empty rfl rfl

/-- Settles O38: a step is at most one instruction but for the caller's fields, and each keeps the bus log legal. -/
theorem everyStepKeepsTheBusLogLegal : Obligations.EveryStepKeepsTheBusLogLegal :=
  fun _ _ hs h => step_keeps State.BusInv.sameBlock exec_keeps_busInv h hs

/-- Settles O39: the log of reset is empty and the block is not stuck. -/
theorem resetBusLogIsLegal : Obligations.ResetBusLogIsLegal :=
  fun _ _ => busInv_of_empty rfl rfl

/-! ### The invariant of a channel (R25 to R28, R41, R162) -/

theorem reset_inv : Channel.reset.Inv := by
  constructor <;> simp [Channel.reset, Seq.reset, Content.defined]

/-- All channels meet the invariant exactly if `chan` gives one that does at every index, in range or not. -/
theorem seqInv_iff_chan {s : State} : s.SeqInv ↔ ∀ c, (s.chan c).Inv := by
  constructor
  · intro h c
    by_cases hc : c < s.N
    · exact h _ (chan_mem s hc)
    · have out : s.chan c = Channel.reset := by simp [State.chan, List.getD, Nat.not_lt.1 hc]
      rw [out]; exact reset_inv
  · intro h ch hmem
    obtain ⟨c, hc, rfl⟩ := List.getElem_of_mem hmem
    simpa [State.chan, List.getD, hc] using h c

theorem permitCodeLoad_iff {q : Seq} : permitCodeLoad q = true ↔ q.state = .idle := by simp [permitCodeLoad]

theorem permitInitWrite_iff {q : Seq} : permitInitWrite q = true ↔ q.state = .idle ∧ q.armStep ≠ .zero := by
  cases hq : q.armStep <;> simp [permitInitWrite, hq]

theorem permitUpdateWrite_iff {q : Seq} :
    permitUpdateWrite q = true ↔
      (q.state = .idle ∧ q.armStep = .two) ∨ (q.state = .tracking ∧ q.updDone = false) := by
  simp [permitUpdateWrite]

/-- An UPDATE is admitted only while none is done: in `Idle` there is none, and in `Tracking` the period owes it. -/
theorem Channel.Inv.owes_update {ch : Channel} (hi : ch.Inv) (hp : permitUpdateWrite ch.seq = true) :
    ch.seq.updDone = false := by
  rcases permitUpdateWrite_iff.1 hp with ⟨idle, -⟩ | ⟨-, owed⟩
  · exact hi.idle_not_done idle
  · exact owed

/-- An UPDATE in `Idle` arms the channel. -/
theorem updateWritten_of_idle {ch : Channel} (idle : ch.seq.state = .idle) (b : UpdateImage) :
    ch.updateWritten b = { ch with
      update := .image b
      seq := { state := .armed, armStep := .zero, updDone := true, updUnknown := false } } := by
  simp [Channel.updateWritten, idle]

/-- An UPDATE of a started channel leaves its state. -/
theorem updateWritten_of_started {ch : Channel} (started : ch.seq.state ≠ .idle) (b : UpdateImage) :
    ch.updateWritten b = { ch with
      update := .image b
      seq := { ch.seq with updDone := true, updUnknown := false } } := by
  simp [Channel.updateWritten, started]

theorem Channel.Inv.codeLoaded {ch : Channel} (hi : ch.Inv) (hp : permitCodeLoad ch.seq = true) (b : CodeImage) :
    (ch.codeLoaded b).Inv :=
  { hi with
    idle_code := fun _ _ => rfl
    idle_init := fun _ => nofun
    started_step := fun started => absurd (permitCodeLoad_iff.1 hp) started
    started_code := fun _ => rfl }

theorem Channel.Inv.codeLost {ch : Channel} (hi : ch.Inv) (hp : permitCodeLoad ch.seq = true) : ch.codeLost.Inv :=
  { hi with
    idle_code := fun _ begun => absurd rfl begun
    idle_init := fun _ => nofun
    started_step := fun _ => rfl
    started_code := fun started => absurd (permitCodeLoad_iff.1 hp) started }

/-- INIT_WRITE is admitted over a loaded code only, so `arm_step = 2` has both windows behind it. -/
theorem Channel.Inv.initWritten {ch : Channel} (hi : ch.Inv) (hp : permitInitWrite ch.seq = true) {b : InitImage}
    (hb : initReservedZero b = true) : (ch.initWritten b).Inv :=
  have ⟨idle, begun⟩ := permitInitWrite_iff.1 hp
  { hi with
    idle_code := fun _ _ => hi.idle_code idle begun
    idle_init := fun _ _ => rfl
    started_step := fun started => absurd idle started
    started_init := fun _ => rfl
    init_reserved := fun _ e => Content.image.inj e ▸ hb }

theorem Channel.Inv.initLost {ch : Channel} (hi : ch.Inv) (hp : permitInitWrite ch.seq = true) : ch.initLost.Inv :=
  have ⟨idle, begun⟩ := permitInitWrite_iff.1 hp
  { hi with
    idle_code := fun _ _ => hi.idle_code idle begun
    idle_init := fun _ => nofun
    started_step := fun started => absurd idle started
    started_init := fun started => absurd idle started
    init_reserved := nofun }

/-- An UPDATE arms a channel over the windows `arm_step = 2` stands for (R162), and serves the period of a tracking one. -/
theorem Channel.Inv.updateWritten {ch : Channel} (hi : ch.Inv) (hp : permitUpdateWrite ch.seq = true) {b : UpdateImage}
    (hb : updateReservedZero b = true) : (ch.updateWritten b).Inv := by
  rcases permitUpdateWrite_iff.1 hp with ⟨idle, ready⟩ | ⟨tracking, -⟩
  · rw [updateWritten_of_idle idle]
    exact
      { hi with
        idle_not_done := nofun
        idle_code := nofun
        idle_init := nofun
        started_step := fun _ => rfl
        started_code := fun _ => hi.idle_code idle (by simp [ready])
        started_init := fun _ => hi.idle_init idle ready
        armed_done := fun _ => rfl
        done_known := fun _ => rfl
        done_update := fun _ => rfl
        tracking_corr := by simp [hi.tracking_corr, idle]
        tracking_phase := by simp [hi.tracking_phase, idle]
        err_tracking := fun err => by simp [hi.err_tracking err] at idle
        update_reserved := fun _ e => Content.image.inj e ▸ hb
        idle_latch := nofun }
  · have started : ch.seq.state ≠ .idle := by simp [tracking]
    rw [updateWritten_of_started started]
    exact
      { hi with
        idle_not_done := fun idle => absurd idle started
        armed_done := fun _ => rfl
        done_known := fun _ => rfl
        done_update := fun _ => rfl
        update_reserved := fun _ e => Content.image.inj e ▸ hb }

theorem Channel.Inv.updateLost {ch : Channel} (hi : ch.Inv) (hp : permitUpdateWrite ch.seq = true) : ch.updateLost.Inv :=
  have not_done : ¬ ch.seq.updDone = true := by simp [hi.owes_update hp]
  { hi with
    done_known := fun done => absurd done not_done
    done_update := fun done => absurd done not_done
    update_reserved := nofun }

/-- Every operation keeps its channel's invariant, by the admission that lets it. -/
theorem OpChan.keeps_inv {ch ch' : Channel} (h : OpChan ch ch') (hi : ch.Inv) : ch'.Inv := by
  cases h with
  | same => exact hi
  | codeLoaded b hp => exact hi.codeLoaded hp b
  | codeLost hp => exact hi.codeLost hp
  | initWritten x y z hp => exact hi.initWritten hp (packInit_reserved x y z)
  | initLost hp => exact hi.initLost hp
  | updateWritten x y hp => exact hi.updateWritten hp (packUpdate_reserved x y)
  | updateLost hp => exact hi.updateLost hp

/-- A started channel opens a new period with whatever `ERR`: it is in `Tracking` now. -/
theorem Channel.Inv.newPeriod {ch : Channel} (hi : ch.Inv) (started : ch.seq.state ≠ .idle) (corr : CorrImage)
    (phase : PhaseImage) (err : Bool) : Channel.Inv { ch.newPeriod corr phase with err := err } :=
  { hi with
    idle_not_done := nofun
    idle_code := nofun
    idle_init := nofun
    started_step := fun _ => hi.started_step started
    started_code := fun _ => hi.started_code started
    started_init := fun _ => hi.started_init started
    armed_done := nofun
    done_known := nofun
    done_update := nofun
    tracking_corr := rfl
    tracking_phase := rfl
    err_tracking := fun _ => rfl
    idle_latch := nofun }

theorem Channel.Inv.periodEnded {ch : Channel} (hi : ch.Inv) (corr : CorrImage) (phase : PhaseImage) (d : Bool) :
    (ch.periodEnded corr phase d).Inv := by
  unfold Channel.periodEnded
  split
  · exact hi
  · next armed => exact hi.newPeriod (by simp [armed]) corr phase ch.err
  · next tracking => exact hi.newPeriod (by simp [tracking]) corr phase (errAfterPeriod ch d)

/-- What a strobe latches of a channel is well formed. -/
theorem Channel.Inv.latchAfterStrobe_ok {ch : Channel} (hi : ch.Inv) {e : LatchEntry} (he : e ∈ latchAfterStrobe ch) :
    e.Ok := by
  unfold latchAfterStrobe at he
  split at he
  · exact hi.latch_ok e he
  · next armed =>
    rcases List.mem_append.1 he with he | he
    · exact hi.latch_ok e he
    · rw [List.mem_singleton.1 he]
      exact ⟨nofun, hi.started_init (by simp [armed]), fun _ => rfl, fun _ => hi.done_update (hi.armed_done armed)⟩
  · next tracking =>
    rcases List.mem_append.1 he with he | he
    · exact hi.latch_ok e he
    · rw [List.mem_singleton.1 he]
      exact ⟨nofun, hi.started_init (by simp [tracking]), nofun, hi.done_update⟩

theorem Channel.Inv.strobed {ch : Channel} (hi : ch.Inv) : ch.strobed.Inv :=
  { hi with
    idle_latch := fun idle => by
      have idle : ch.seq.state = .idle := idle
      simpa [Channel.strobed, latchAfterStrobe, idle] using hi.idle_latch idle
    latch_ok := fun _ => hi.latchAfterStrobe_ok }

/-- Every instruction keeps the invariant of every channel. -/
theorem exec_keeps_seqInv {i : Instr} {s t : State} (h : exec i s = .next t) (hs : s.SeqInv) : t.SeqInv := by
  rw [seqInv_iff_chan] at hs ⊢
  intro c
  rcases exec_chan h c with ⟨-, e⟩ | ⟨-, -, hop⟩ | ⟨corr, phase, -, e⟩ | ⟨-, e⟩ | ⟨-, -, e⟩
  · rw [e]; exact reset_inv
  · exact hop.keeps_inv (hs c)
  · rw [e]; exact (hs c).periodEnded corr phase s.errDraw
  · rw [e]; exact (hs c).strobed
  · rw [e]; exact hs c

/-- The caller's own fields do not matter to the channels. -/
theorem State.SeqInv.sameBlock {s t : State} (hst : SameBlock s t) (hs : s.SeqInv) : t.SeqInv := by
  rw [hst]; exact hs

/-- Settles O40: a step is at most one instruction but for the caller's fields, and each keeps every channel's invariant. -/
theorem everyStepKeepsTheSequencerInvariant : Obligations.EveryStepKeepsTheSequencerInvariant :=
  fun _ _ hs h => step_keeps State.SeqInv.sameBlock exec_keeps_seqInv h hs

/-- Settles O41: every channel of the reset state is at its reset value. -/
theorem resetMeetsTheSequencerInvariant : Obligations.ResetMeetsTheSequencerInvariant := by
  intro cfg n
  rw [seqInv_iff_chan]
  intro c
  rw [resetWith_chan]
  exact reset_inv

/-- Settles O25: `N` by the length of the channel list, each channel by its reset value. -/
theorem resetStateValues : Obligations.ResetStateValues := by
  intro cfg n s
  refine ⟨List.length_replicate, rfl, rfl, rfl, fun c _ => ?_⟩
  simp only [s, resetWith_chan]
  exact ⟨rfl, rfl, rfl, rfl, rfl, rfl, rfl, rfl, rfl, rfl, rfl, rfl⟩

/-! ### The sticky flags (R29, R30) -/

/-- The end of a period moves `ERR` in `Tracking` only (R163). -/
theorem periodEnded_err (ch : Channel) (corr : CorrImage) (phase : PhaseImage) (d : Bool) :
    (ch.periodEnded corr phase d).err = if ch.seq.state = .tracking then errAfterPeriod ch d else ch.err := by
  cases hq : ch.seq.state <;> simp [Channel.periodEnded, Channel.newPeriod, hq]

/-- The end of a period leaves `STALE` alone. -/
theorem periodEnded_stale (ch : Channel) (corr : CorrImage) (phase : PhaseImage) (d : Bool) :
    (ch.periodEnded corr phase d).stale = ch.stale := by
  cases hq : ch.seq.state <;> simp [Channel.periodEnded, Channel.newPeriod, hq]

/-- The end of a period never clears `ERR`. -/
theorem periodEnded_err_of_err {ch : Channel} (err : ch.err = true) (corr : CorrImage) (phase : PhaseImage) (d : Bool) :
    (ch.periodEnded corr phase d).err = true := by
  rw [periodEnded_err, errAfterPeriod, err]
  simp

/-- The end of a period sets `ERR` only if the period's UPDATE is missing. -/
theorem missed_update_of_periodEnded_err {ch : Channel} {corr : CorrImage} {phase : PhaseImage} {d : Bool}
    (clear : ch.err = false) (set : (ch.periodEnded corr phase d).err = true) :
    ch.seq.state = .tracking ∧ ch.seq.updDone = false := by
  rw [periodEnded_err] at set
  split at set
  · next tracking =>
    refine ⟨tracking, Bool.eq_false_iff.2 fun done => ?_⟩
    simp [errAfterPeriod, done, clear] at set
  · simp [clear] at set

/-- A strobe fall never clears `STALE`. -/
theorem staleAfterStrobe_of_stale {ch : Channel} (stale : ch.stale = true) : staleAfterStrobe ch = true := by
  cases hq : ch.seq.state <;> simp [staleAfterStrobe, hq, stale]

/-- A strobe fall sets `STALE` only if the arming is half done or the period's UPDATE is missing (R164). -/
theorem late_of_staleAfterStrobe {ch : Channel} (clear : ch.stale = false) (set : staleAfterStrobe ch = true) :
    (ch.seq.state = .idle ∧ ch.seq.armStep ≠ .zero) ∨ (ch.seq.state = .tracking ∧ ch.seq.updDone = false) := by
  cases hq : ch.seq.state <;> simp_all [staleAfterStrobe]

/-- An instruction that leaves a flag as it is neither clears nor sets it. -/
theorem sticky_of_eq {old new : Bool} {P Q : Prop} (kept : new = old) :
    (old = true → P → new = true) ∧ (old = false → new = true → Q) := by
  subst kept
  exact ⟨fun set _ => set, fun clear set => absurd set (Bool.eq_false_iff.1 clear)⟩

/-- Settles O43: of all an instruction can make of a channel, only the end of its period and RESET move `ERR`. -/
theorem errIsStickyAndSetByAMissedUpdate : Obligations.ErrIsStickyAndSetByAMissedUpdate := by
  intro i s t c h
  rcases exec_chan h c with ⟨rfl, e⟩ | ⟨-, -, hop⟩ | ⟨corr, phase, rfl, e⟩ | ⟨-, e⟩ | ⟨-, -, e⟩
  · rw [e]; exact ⟨fun _ hne => absurd rfl hne, fun _ => nofun⟩
  · obtain ⟨herr, -⟩ := hop.kept
    exact sticky_of_eq herr
  · rw [e]
    exact ⟨fun err _ => periodEnded_err_of_err err corr phase _,
      fun clear set => ⟨by simp [Instr.isPeriodOf], missed_update_of_periodEnded_err clear set⟩⟩
  · exact sticky_of_eq (by rw [e, Channel.strobed])
  · exact sticky_of_eq (congrArg Channel.err e)

/-- Settles O44: of all an instruction can make of a channel, only a strobe fall on it and RESET move `STALE`. -/
theorem staleIsStickyAndSetByALateStrobe : Obligations.StaleIsStickyAndSetByALateStrobe := by
  intro i s t c h
  rcases exec_chan h c with ⟨rfl, e⟩ | ⟨-, -, hop⟩ | ⟨corr, phase, -, e⟩ | ⟨rfl, e⟩ | ⟨-, -, e⟩
  · rw [e]; exact ⟨fun _ hne => absurd rfl hne, fun _ => nofun⟩
  · obtain ⟨-, hstale, -⟩ := hop.kept
    exact sticky_of_eq hstale
  · exact sticky_of_eq (by rw [e, periodEnded_stale])
  · rw [e]
    exact ⟨fun stale _ => staleAfterStrobe_of_stale stale,
      fun clear set => ⟨by simp [Instr.isStrobeOf], late_of_staleAfterStrobe clear set⟩⟩
  · exact sticky_of_eq (congrArg Channel.stale e)

/-! ### The stuck block (R31, R217) -/

theorem execStatusRead_of_hung {c : Nat} {s : State} (hh : s.hung = true) :
    execStatusRead c s = .fault .blockHung := by
  simp only [execStatusRead, admission_eq_stuck.2 hh]

theorem transmitOnly_of_hung {w : WindowName} {tx : List Byte} {s : State} (hh : s.hung = true) :
    transmitOnly w tx s = .fault .blockHung := by
  simp only [transmitOnly, hh, if_true]

/-- A pseudo-operation stops with the fault of its part. -/
theorem afterPart_fault {o : Host.Outcome State Fault Refusal} {k : Value → State → State} {f : Fault}
    (ho : o = .fault f) : afterPart o k = .fault f := by
  rw [ho]; rfl

/-- No operation has a step in a stuck block. -/
theorem exec_of_hung {i : Instr} {s : State} (hh : s.hung = true) (hi : i.isEvent = false) :
    exec i s = .fault .blockHung := by
  cases i with
  | codeLoad c prn => exact show execCodeLoad c prn s = _ from writeOp_fault.2 hh
  | initWrite c prn carrierPhase codePhase =>
    exact show execInitWrite c prn carrierPhase codePhase s = _ from writeOp_fault.2 hh
  | updateWrite c carrierFreq codePhaseRate =>
    exact show execUpdateWrite c carrierFreq codePhaseRate s = _ from writeOp_fault.2 hh
  | corrRead c => exact show execCorrRead c s = _ from readOp_fault.2 hh
  | corrReadTx => exact transmitOnly_of_hung hh
  | phaseRead c => exact show execPhaseRead c s = _ from readOp_fault.2 hh
  | phaseReadTx => exact transmitOnly_of_hung hh
  | statusRead c => exact execStatusRead_of_hung hh
  | periodIrq c corr phase => cases hi
  | strobeFall c => cases hi
  | reset => cases hi
  | arm c prn carrierPhase codePhase carrierFreq codePhaseRate => exact afterPart_fault (writeOp_fault.2 hh)
  | service c carrierFreq codePhaseRate => exact afterPart_fault (readOp_fault.2 hh)

/-- PERIOD_IRQ of a channel that exists always happens (R163). -/
theorem execPeriodIrq_of_lt {c : Nat} {corr : CorrImage} {phase : PhaseImage} {s : State} (hc : c < s.N) :
    execPeriodIrq c corr phase s = .next ((if needsErrDraw (s.chan c) then s.useErrDraw else s).setChan c
      ((s.chan c).periodEnded corr phase s.errDraw)) :=
  if_neg (Nat.not_le.2 hc)

/-- STROBE_FALL of a channel that exists always happens (R164). -/
theorem execStrobeFall_of_lt {c : Nat} {s : State} (hc : c < s.N) :
    execStrobeFall c s = .next (s.setChan c (s.chan c).strobed) :=
  if_neg (Nat.not_le.2 hc)

/-- An engine event leaves `HUNG`, the bus log and the port alone. -/
theorem event_keeps_block {i : Instr} {s t : State} (hi : i.isEvent = true) (hr : i ≠ .reset) (h : exec i s = .next t) :
    t.hung = s.hung ∧ t.busLog = s.busLog ∧ t.port = s.port := by
  rcases exec_next h with ⟨c, u, -, he, -⟩ | ⟨rfl | rfl, -⟩ | ⟨c, corr, phase, -, -, rfl⟩ | ⟨c, -, -, rfl⟩ | ⟨hreset, -⟩
  · simp [hi] at he
  · cases hi
  · cases hi
  · split <;> simp
  · exact ⟨rfl, rfl, rfl⟩
  · exact absurd hreset hr

/-- A run of `i :: is` is `i` and a run of `is` from where it leads. -/
theorem runInstrs_cons_eq_next {i : Instr} {is : List Instr} {s t : State} :
    runInstrs (i :: is) s = .next t ↔ ∃ u, exec i s = .next u ∧ runInstrs is u = .next t := by
  simp only [runInstrs]
  cases exec i s <;> simp

/-- A run without RESET in a stuck block is a run of engine events, none of which moves `HUNG`, the bus log or the port. -/
theorem runInstrs_of_hung {is : List Instr} {s t : State} (hh : s.hung = true) (hr : .reset ∉ is)
    (h : runInstrs is s = .next t) :
    t.hung = true ∧ t.busLog = s.busLog ∧ t.port = s.port ∧ ∀ i, i ∈ is → i.isEvent = true := by
  induction is generalizing s with
  | nil => cases h; exact ⟨hh, rfl, rfl, nofun⟩
  | cons i is ih =>
    obtain ⟨u, hi, hrun⟩ := runInstrs_cons_eq_next.1 h
    obtain ⟨hne, hrest⟩ := not_or.1 (mt List.mem_cons.2 hr)
    have event : i.isEvent = true := Bool.eq_true_of_not_eq_false fun he => by simp [exec_of_hung hh he] at hi
    obtain ⟨hhu, hlog, hport⟩ := event_keeps_block event (Ne.symm hne) hi
    obtain ⟨hht, hlog', hport', events⟩ := ih (hhu.trans hh) hrest hrun
    exact ⟨hht, hlog'.trans hlog, hport'.trans hport, List.forall_mem_cons.2 ⟨event, events⟩⟩

/-- An event of a channel that exists, and RESET, has a step. -/
theorem event_has_step {i : Instr} {s : State} (hi : i.isEvent = true) (hc : ∀ c, i.channel = some c → c < s.N) :
    ∃ t, exec i s = .next t := by
  cases i with
  | periodIrq c corr phase => exact ⟨_, execPeriodIrq_of_lt (hc c rfl)⟩
  | strobeFall c => exact ⟨_, execStrobeFall_of_lt (hc c rfl)⟩
  | reset => exact ⟨_, rfl⟩
  | _ => cases hi

/-- Settles O36: a stuck block stops every operation and no event, and only RESET clears `HUNG`. -/
theorem stuckBlockOnlySeesEvents : Obligations.StuckBlockOnlySeesEvents := by
  refine ⟨fun is s t => runInstrs_of_hung, fun i s => exec_of_hung, fun i s hh hi hc => ?_⟩
  obtain ⟨t, ht⟩ := event_has_step hi hc
  refine ⟨t, ht, ?_⟩
  by_cases hr : i = .reset
  · subst hr; cases ht; simp
  · simp [(event_keeps_block hi hr ht).1, hh, hr]

/-! ### Noninterference between channels (R20, R170) -/

/-- Two states agree on channel `c` and on all that is no channel's: only the other channels, the bus log and the agenda may
differ. -/
structure AgreeOn (c : Nat) (s t : State) : Prop where
  chan : t.chan c = s.chan c
  N : t.N = s.N
  cfg : t.cfg = s.cfg
  hung : t.hung = s.hung
  port : t.port = s.port
  cont : t.cont = s.cont
  outcomes : t.outcomes = s.outcomes
  errDraws : t.errDraws = s.errDraws
  fresh : t.fresh = s.fresh

namespace AgreeOn

variable {c : Nat} {s t : State}

/-! What is read of two such states is the same. -/

theorem admission (h : AgreeOn c s t) (permit : Seq → Bool) (d : Bool) :
    Machine.admission permit d c t = Machine.admission permit d c s := by
  simp only [Machine.admission, h.hung, h.N, h.chan]

theorem nextOutcome (h : AgreeOn c s t) : t.nextOutcome = s.nextOutcome := by
  simp only [State.nextOutcome, h.outcomes]

theorem receivedBytes (h : AgreeOn c s t) {n : Nat} (w : Content n) :
    Machine.receivedBytes t w = Machine.receivedBytes s w := by
  cases w <;> simp only [Machine.receivedBytes, h.fresh]

theorem errDraw (h : AgreeOn c s t) : t.errDraw = s.errDraw := by
  simp only [State.errDraw, h.errDraws, h.fresh]

/-! The same update of both leaves two such states; the records appended to the two logs may differ. -/

theorem setChan (h : AgreeOn c s t) (hc : c < s.N) (ch : Channel) : AgreeOn c (s.setChan c ch) (t.setChan c ch) :=
  { h with
    chan := by rw [setChan_chan_same s hc, setChan_chan_same t (h.N.symm ▸ hc)]
    N := by simpa only [setChan_N] using h.N }

theorem answer (h : AgreeOn c s t) (r : Return) : AgreeOn c (s.answer r) (t.answer r) := { h with port := rfl }

theorem hangUp (h : AgreeOn c s t) : AgreeOn c s.hangUp t.hangUp := { h with hung := rfl, port := rfl }

theorem logTransfer (h : AgreeOn c s t) (r r' : BusRecord) : AgreeOn c (s.logTransfer r) (t.logTransfer r') :=
  { h with outcomes := congrArg List.tail h.outcomes }

theorem continueAt (h : AgreeOn c s t) (k : Cont) : AgreeOn c (s.continueAt k) (t.continueAt k) := { h with cont := rfl }

theorem keepCorr (h : AgreeOn c s t) (c' : Nat) (f r : Int) (v : Value) :
    AgreeOn c (s.keepCorr c' f r v) (t.keepCorr c' f r v) := by
  cases v <;> exact h.continueAt _

theorem useRxDraw (h : AgreeOn c s t) {n : Nat} (w : Content n) : AgreeOn c (s.useRxDraw w) (t.useRxDraw w) := by
  cases w with
  | undef => exact { h with fresh := congrArg (· + 1) h.fresh }
  | image b => exact h

theorem useErrDraw (h : AgreeOn c s t) : AgreeOn c s.useErrDraw t.useErrDraw := by
  cases hd : s.errDraws with
  | nil =>
    simp only [State.useErrDraw, h.errDraws, hd]
    exact { h with errDraws := rfl, fresh := congrArg (· + 1) h.fresh }
  | cons d ds =>
    rw [useErrDraw_cons s hd, useErrDraw_cons t (h.errDraws.trans hd)]
    exact { h with errDraws := rfl }

end AgreeOn

/-- Whatever next state `o` answers, `o'` answers one that agrees with it on channel `c`. -/
def Follows (c : Nat) (o o' : Host.Outcome State Fault Refusal) : Prop :=
  ∀ t, o = .next t → ∃ t', o' = .next t' ∧ AgreeOn c t t'

/-- An admitted read operation whose transfer completes, whatever its window holds. -/
theorem readOp_complete {n : Nat} {permit : Seq → Bool} {c : Nat} {w : WindowName} {tx : List Byte}
    {window : Channel → Content n} {unpack : Image n → Value} {s : State}
    (h : admission permit true c s = .admitted) (ho : s.nextOutcome = .ok) :
    readOp permit c w tx window unpack s =
      .next (((s.logTransfer (readRecord s c w tx (some (receivedBytes s (window (s.chan c))).toList) .ok)).useRxDraw
          (window (s.chan c))).answer
        (.ok (unpack (receivedBytes s (window (s.chan c)))))) := by
  simp only [readOp, h, ho, sentToReadWindow_eq, if_true]

/-- An admitted read operation whose transfer faults. -/
theorem readOp_lost {n : Nat} {permit : Seq → Bool} {c : Nat} {w : WindowName} {tx : List Byte}
    {window : Channel → Content n} {unpack : Image n → Value} {s : State}
    (h : admission permit true c s = .admitted) (ho : s.nextOutcome = .fault) :
    readOp permit c w tx window unpack s =
      .next ((s.logTransfer (readRecord s c w tx none .fault)).answer .transportFault) := by
  simp only [readOp, h, ho, sentToReadWindow_eq, reduceCtorEq, if_false]

/-- An admitted read operation whose transfer hangs. -/
theorem readOp_hung {n : Nat} {permit : Seq → Bool} {c : Nat} {w : WindowName} {tx : List Byte}
    {window : Channel → Content n} {unpack : Image n → Value} {s : State}
    (h : admission permit true c s = .admitted) (ho : s.nextOutcome = .hang) :
    readOp permit c w tx window unpack s = .next (s.logTransfer (readRecord s c w tx none .hang)).hangUp := by
  simp only [readOp, h, ho, sentToReadWindow_eq, reduceCtorEq, if_false]

theorem writeOp_follows {permit : Seq → Bool} {d : Bool} {c : Nat} {w : WindowName} {tx : List Byte}
    {onOk onLoss : Channel → Channel} {s s' : State} (hs : AgreeOn c s s') :
    Follows c (writeOp permit d c w tx onOk onLoss s) (writeOp permit d c w tx onOk onLoss s') := by
  intro t h
  rcases writeOp_next h with ⟨r, ha, rfl⟩ | ⟨ha, ho, rfl⟩ | ⟨ha, ho, rfl⟩ | ⟨ha, ho, rfl⟩
  · exact ⟨_, writeOp_refuse ((hs.admission permit d).trans ha), hs.answer r⟩
  all_goals
    have hc := (admission_eq_admitted.1 ha).2.1
    rw [← hs.admission] at ha
    rw [← hs.nextOutcome] at ho
    rw [← hs.chan]
  · exact ⟨_, writeOp_ok ha ho, ((hs.logTransfer _ _).setChan hc _).answer _⟩
  · exact ⟨_, writeOp_lost ha ho, ((hs.logTransfer _ _).setChan hc _).answer _⟩
  · exact ⟨_, writeOp_hung ha ho, ((hs.logTransfer _ _).setChan hc _).hangUp⟩

theorem readOp_follows {n : Nat} {permit : Seq → Bool} {c : Nat} {w : WindowName} {tx : List Byte}
    {window : Channel → Content n} {unpack : Image n → Value} {s s' : State} (hs : AgreeOn c s s') :
    Follows c (readOp permit c w tx window unpack s) (readOp permit c w tx window unpack s') := by
  intro t h
  rcases readOp_next h with ⟨r, ha, rfl⟩ | ⟨ha, ho, rfl⟩ | ⟨ha, ho, rfl⟩ | ⟨ha, ho, rfl⟩
  · exact ⟨_, readOp_refuse ((hs.admission permit true).trans ha), hs.answer r⟩
  all_goals
    rw [← hs.admission] at ha
    rw [← hs.nextOutcome] at ho
  · refine ⟨_, readOp_complete ha ho, ?_⟩
    rw [hs.chan, hs.receivedBytes]
    exact ((hs.logTransfer _ _).useRxDraw _).answer _
  · exact ⟨_, readOp_lost ha ho, (hs.logTransfer _ _).answer _⟩
  · exact ⟨_, readOp_hung ha ho, (hs.logTransfer _ _).hangUp⟩

theorem execStatusRead_follows {c : Nat} {s s' : State} (hs : AgreeOn c s s') :
    Follows c (execStatusRead c s) (execStatusRead c s') := by
  intro t h
  rcases execStatusRead_next h with ⟨r, ha, rfl⟩ | ⟨ha, rfl⟩
  · exact ⟨s'.answer r, by simp only [execStatusRead, hs.admission, ha], hs.answer r⟩
  · exact ⟨_, by simp only [execStatusRead, hs.admission, ha, hs.chan], hs.answer _⟩

theorem execPeriodIrq_follows {c : Nat} {corr : CorrImage} {phase : PhaseImage} {s s' : State} (hs : AgreeOn c s s') :
    Follows c (execPeriodIrq c corr phase s) (execPeriodIrq c corr phase s') := by
  intro t h
  obtain ⟨hc, rfl⟩ := execPeriodIrq_next h
  refine ⟨_, execPeriodIrq_of_lt (hs.N.symm ▸ hc), ?_⟩
  rw [hs.chan, hs.errDraw]
  split
  · exact hs.useErrDraw.setChan (by simpa [State.N] using hc) _
  · exact hs.setChan hc _

theorem execStrobeFall_follows {c : Nat} {s s' : State} (hs : AgreeOn c s s') :
    Follows c (execStrobeFall c s) (execStrobeFall c s') := by
  intro t h
  obtain ⟨hc, rfl⟩ := execStrobeFall_next h
  refine ⟨_, execStrobeFall_of_lt (hs.N.symm ▸ hc), ?_⟩
  rw [hs.chan]
  exact hs.setChan hc _

/-- A part that returned OK: the pseudo-operation goes on. -/
theorem afterPart_of_ok {k : Value → State → State} {u : State} {v : Value} (hv : u.port = .returned (.ok v)) :
    afterPart (.next u) k = .next (k v u) := by
  simp only [afterPart, hv]

/-- A part that returned no OK: the pseudo-operation is over. -/
theorem afterPart_of_stop {k : Value → State → State} {u : State} (hv : ∀ v, u.port ≠ .returned (.ok v)) :
    afterPart (.next u) k = .next (u.continueAt .none) := by
  simp only [afterPart, State.continueAt]

/-- A pseudo-operation's first part shows the same on both ports, so both go on or both are over. -/
theorem afterPart_follows {c : Nat} {o o' : Host.Outcome State Fault Refusal} {k : Value → State → State}
    (ho : Follows c o o') (hk : ∀ v u u', AgreeOn c u u' → AgreeOn c (k v u) (k v u')) :
    Follows c (afterPart o k) (afterPart o' k) := by
  intro t h
  obtain ⟨u, hu, hgo⟩ := afterPart_next h
  obtain ⟨u', rfl, hs⟩ := ho u hu
  rcases hgo with ⟨v, hv, rfl⟩ | ⟨hv, rfl⟩
  · exact ⟨_, afterPart_of_ok (hs.port.trans hv), hk v u u' hs⟩
  · exact ⟨_, afterPart_of_stop (hs.port ▸ hv), hs.continueAt .none⟩

/-- An instruction of channel `c` does the same in two states that agree on it. -/
theorem exec_follows {i : Instr} {c : Nat} {s s' : State} (hi : i.channel = some c) (hs : AgreeOn c s s') :
    Follows c (exec i s) (exec i s') := by
  cases i <;> simp only [Instr.channel, reduceCtorEq, Option.some.injEq] at hi <;> subst hi
  case codeLoad c prn => exact show Follows c (execCodeLoad c prn s) (execCodeLoad c prn s') from writeOp_follows hs
  case initWrite =>
    simp only [exec, execInitWrite, hs.cfg]
    exact writeOp_follows hs
  case updateWrite c x y =>
    exact show Follows c (execUpdateWrite c x y s) (execUpdateWrite c x y s') from writeOp_follows hs
  case corrRead c => exact show Follows c (execCorrRead c s) (execCorrRead c s') from readOp_follows hs
  case phaseRead c => exact show Follows c (execPhaseRead c s) (execPhaseRead c s') from readOp_follows hs
  case statusRead => exact execStatusRead_follows hs
  case periodIrq => exact execPeriodIrq_follows hs
  case strobeFall => exact execStrobeFall_follows hs
  case arm => exact afterPart_follows (writeOp_follows hs) fun _ _ _ h => h.continueAt _
  case service => exact afterPart_follows (readOp_follows hs) fun v _ _ h => h.keepCorr _ _ _ v

/-- Settles O47: agreement on channel `c` and on all that is no channel's is kept by every instruction of `c`. -/
theorem resultsDependOnTheirOwnChannelOnly : Obligations.ResultsDependOnTheirOwnChannelOnly := by
  intro i c s₁ s₂ t₁ hi hchan hN hcfg hhung hport hcont houtcomes herrDraws hfresh h
  have agree : AgreeOn c s₁ s₂ :=
    ⟨hchan.symm, hN.symm, hcfg.symm, hhung.symm, hport.symm, hcont.symm, houtcomes.symm, herrDraws.symm, hfresh.symm⟩
  obtain ⟨t₂, ht₂, a⟩ := exec_follows hi agree t₁ h
  exact ⟨t₂, ht₂, a.port, a.chan, a.hung, a.cont, a.outcomes, a.errDraws, a.fresh, a.cfg, a.N⟩

end Sys2Proof.Machine
end

section
/-! Family `20_memory.md`, statements O13, O21, O35, O37, O48, O49 and O58: window addresses, the images that decode, the
transfers of an instruction, and the frames of the reads and writes. -/

namespace Sys2Proof.Machine

/-! ### The transmit halves alone (R59) -/

/-- In a block that is not stuck, bytes sent to a read window change nothing. -/
theorem transmitOnly_of_not_hung {w : WindowName} {tx : List Byte} {s : State} (hh : s.hung = false) :
    transmitOnly w tx s = .next s := by
  simp only [transmitOnly, hh, Bool.false_eq_true, if_false, sentToReadWindow_eq]

/-- Settles O21: both rows are a transmit half alone. -/
theorem transmitImagesChangeNothing : Obligations.TransmitImagesChangeNothing :=
  fun _ hh => ⟨transmitOnly_of_not_hung hh, transmitOnly_of_not_hung hh⟩

/-! ### Addresses (R51, R52) -/

/-- A multiple of the stride and an offset below it are read back from their sum. -/
theorem stride_offset_inj {stride c c' off off' : Nat} (hoff : off < stride) (hoff' : off' < stride)
    (h : c * stride + off = c' * stride + off') : c = c' ∧ off = off' := by
  have offsets : off = off' := by
    simpa [Nat.mul_add_mod', Nat.mod_eq_of_lt hoff, Nat.mod_eq_of_lt hoff'] using congrArg (· % stride) h
  refine ⟨Nat.eq_of_mul_eq_mul_right (Nat.zero_lt_of_lt hoff) ?_, offsets⟩
  omega

/-- Settles O58: an address less the base is a multiple of the stride and an offset below it. -/
theorem smallDistinctOffsetsGiveDistinctAddresses : Obligations.SmallDistinctOffsetsGiveDistinctAddresses := by
  intro cfg n small distinct c c' w w' _ _ h
  have split : c * cfg.channelStride + offsetOf cfg w = c' * cfg.channelStride + offsetOf cfg w' := by
    simp only [addr] at h
    omega
  obtain ⟨hc, hoff⟩ := stride_offset_inj (small w) (small w') split
  exact ⟨hc, distinct w w' hoff⟩

/-! ### The images that decode (R54, R57, R83, R86) -/

/-- A number below `2^k` shares no bit with a multiple of `2^k`. -/
theorem and_mul_two_pow_of_lt {x k : Nat} (hx : x < 2 ^ k) (m : Nat) : x &&& 2 ^ k * m = 0 := by
  refine Nat.eq_of_testBit_eq fun i => ?_
  rw [Nat.testBit_and, Nat.testBit_two_pow_mul, Nat.zero_testBit]
  by_cases hi : k ≤ i
  · rw [Nat.testBit_lt_two_pow (hx.trans_le (Nat.pow_le_pow_right (by decide) hi)), Bool.false_and]
  · simp [hi]

theorem and_F8_of_lt {b : Byte} (h : b.toNat < 8) : b &&& 0xF8 = 0 :=
  BitVec.eq_of_toNat_eq (and_mul_two_pow_of_lt (k := 3) h 31)

theorem and_E0_of_lt {b : Byte} (h : b.toNat < 32) : b &&& 0xE0 = 0 :=
  BitVec.eq_of_toNat_eq (and_mul_two_pow_of_lt (k := 5) h 7)

/-- The first byte of an image is the first of the bytes it was made of. -/
theorem getD_zero_of_toImage {n : Nat} (hn : 0 < n) {bytes : List Byte} {b : Image n} (h : toImage n bytes = some b) :
    bytes.getD 0 0 = b[0] := by
  rw [← toImage_eq_some h]
  simp [List.getD, hn]

/-- An image found in `CODE_TABLE` is one of its 32 entries (R91). -/
theorem prnOfCode_eq_some {b : CodeImage} {prn : Nat} (h : prnOfCode b = some prn) :
    prn < 32 ∧ Config.codeTable prn = b :=
  ⟨List.mem_range.1 (List.mem_of_find?_eq_some h), by simpa using List.find?_some h⟩

theorem decodeImage_init_eq_ok {c : Nat} {bytes : List Byte} {i : Instr} (h : decodeImage c .init .tx bytes = .ok i) :
    bytes.length = 6 ∧ bytes.getD 0 0 &&& 0xF8 = 0 ∧ ∃ x y z, i = .initWrite c x y z := by
  simp only [decodeImage] at h
  split at h
  · cases h
  next b hb =>
    split at h
    · next reserved =>
      refine ⟨toImage_length hb, ?_, _, _, _, (Except.ok.inj h).symm⟩
      rw [getD_zero_of_toImage (by decide) hb]
      exact and_F8_of_lt (of_decide_eq_true reserved)
    · cases h

theorem decodeImage_update_eq_ok {c : Nat} {bytes : List Byte} {i : Instr}
    (h : decodeImage c .update .tx bytes = .ok i) :
    bytes.length = 6 ∧ bytes.getD 0 0 &&& 0xE0 = 0 ∧ ∃ x y, i = .updateWrite c x y := by
  simp only [decodeImage] at h
  split at h
  · cases h
  next b hb =>
    split at h
    · next reserved =>
      refine ⟨toImage_length hb, ?_, _, _, (Except.ok.inj h).symm⟩
      rw [getD_zero_of_toImage (by decide) hb]
      exact and_E0_of_lt (of_decide_eq_true reserved)
    · cases h

theorem decodeImage_code_eq_ok {c : Nat} {bytes : List Byte} {i : Instr} (h : decodeImage c .code .tx bytes = .ok i) :
    bytes.length = 128 ∧ ∃ prn : Nat, prn < 32 ∧ bytes = (Config.codeTable prn).toList ∧ i = .codeLoad c prn := by
  simp only [decodeImage] at h
  split at h
  · cases h
  next b hb =>
    split at h
    · next prn hprn =>
      obtain ⟨hlt, rfl⟩ := prnOfCode_eq_some hprn
      exact ⟨toImage_length hb, prn, hlt, (toImage_eq_some hb).symm, (Except.ok.inj h).symm⟩
    · cases h

/-- A check that passes shows its condition and its instruction. -/
theorem of_ite_eq_ok {p : Prop} [Decidable p] {j i : Instr} {e : DecodeError}
    (h : (if p then .ok j else .error e : Except DecodeError Instr) = .ok i) : p ∧ i = j := by
  split at h
  · next hp => exact ⟨hp, (Except.ok.inj h).symm⟩
  · cases h

/-- Settles O13: the decoder window by window, in each direction. -/
theorem onlyTheFiveTransfersDecode : Obligations.OnlyTheFiveTransfersDecode := by
  intro c w d bytes i h
  change decodeImage c w d bytes = .ok i at h
  cases w <;> cases d
  case init.tx =>
    obtain ⟨hlen, reserved, hi⟩ := decodeImage_init_eq_ok h
    exact ⟨hlen, .inl ⟨rfl, rfl, reserved, hi⟩⟩
  case update.tx =>
    obtain ⟨hlen, reserved, hi⟩ := decodeImage_update_eq_ok h
    exact ⟨hlen, .inr (.inl ⟨rfl, rfl, reserved, hi⟩)⟩
  case code.tx =>
    obtain ⟨hlen, entry⟩ := decodeImage_code_eq_ok h
    exact ⟨hlen, .inr (.inr (.inl ⟨rfl, rfl, entry⟩))⟩
  case corr.rx =>
    obtain ⟨hlen, hi⟩ := of_ite_eq_ok h
    exact ⟨hlen, .inr (.inr (.inr (.inl ⟨rfl, rfl, hi⟩)))⟩
  case corr.tx =>
    obtain ⟨rfl, hi⟩ := of_ite_eq_ok h
    exact ⟨rfl, .inr (.inr (.inr (.inr (.inl ⟨rfl, rfl, rfl, hi⟩))))⟩
  case phase.rx =>
    obtain ⟨hlen, hi⟩ := of_ite_eq_ok h
    exact ⟨hlen, .inr (.inr (.inr (.inr (.inr (.inl ⟨rfl, rfl, hi⟩)))))⟩
  case phase.tx =>
    obtain ⟨rfl, hi⟩ := of_ite_eq_ok h
    exact ⟨rfl, .inr (.inr (.inr (.inr (.inr (.inr ⟨rfl, rfl, rfl, hi⟩)))))⟩
  case init.rx => cases h
  case update.rx => cases h
  case code.rx => cases h

/-! ### The transfers of an instruction (R71, R110) -/

/-- One operation makes at most one transfer. -/
theorem OpStep.busLog {c : Nat} {s t : State} (h : OpStep c s t) :
    t.busLog = s.busLog ∨ ∃ r, t.busLog = s.busLog ++ [r] :=
  h.bus.2.imp And.right fun ⟨r, _, hlog, _⟩ => ⟨r, hlog⟩

/-- The bus log of an operation grows at its end. -/
theorem OpStep.busLog_grows {c : Nat} {s t : State} (h : OpStep c s t) : s.busLog <+: t.busLog := by
  rcases h.busLog with hlog | ⟨r, hlog⟩
  · rw [hlog]
  · exact ⟨[r], hlog.symm⟩

/-- An operation answered by one of the checks before the transfer makes none. -/
theorem OpStep.busLog_of_refused {c : Nat} {s t : State} (h : OpStep c s t)
    (hp : t.port = .returned .badChannel ∨ t.port = .returned .seqViolation ∨ t.port = .returned .rangeFault) :
    t.busLog = s.busLog := by
  cases h with
  | refused | status => rfl
  | transferred | faulted | hung => simp at hp

/-- An instruction of channel `c` that is no event runs one operation of `c` and shows its log and port: ARM and SERVICE
move the caller's place besides. -/
theorem exec_opStep {i : Instr} {c : Nat} {s t : State} (hi : i.isEvent = false) (hc : i.channel = some c)
    (h : exec i s = .next t) : ∃ u, OpStep c s u ∧ t.busLog = u.busLog ∧ t.port = u.port := by
  rcases exec_next h with ⟨c', u, hc', -, hu, ht⟩ | ⟨rfl | rfl, -⟩ | ⟨_, _, _, rfl, -⟩ | ⟨_, rfl, -⟩ | ⟨rfl, -⟩
  · obtain rfl : c' = c := Option.some.inj (hc'.symm.trans hc)
    refine ⟨u, hu, ?_⟩
    rcases ht with rfl | ⟨k, rfl⟩ <;> exact ⟨rfl, rfl⟩
  all_goals simp [Instr.channel, Instr.isEvent] at hc hi

/-- STATUS_READ makes no transfer (R146). -/
theorem execStatusRead_frame {c : Nat} {s t : State} (h : exec (.statusRead c) s = .next t) :
    t.channels = s.channels ∧ t.busLog = s.busLog := by
  rcases execStatusRead_next h with ⟨r, -, rfl⟩ | ⟨-, rfl⟩ <;> exact ⟨rfl, rfl⟩

/-- Every instruction but RESET makes at most one transfer. -/
theorem exec_busLog {i : Instr} {s t : State} (hr : i ≠ .reset) (h : exec i s = .next t) :
    t.busLog = s.busLog ∨ ∃ r, t.busLog = s.busLog ++ [r] := by
  rcases exec_next h with ⟨c, u, -, -, hu, rfl | ⟨k, rfl⟩⟩ | ⟨-, -, rfl⟩ | ⟨_, _, _, rfl, -⟩ | ⟨_, rfl, -⟩ | ⟨reset, -⟩
  · exact hu.busLog
  · exact hu.busLog
  · exact .inl rfl
  · exact .inl (event_keeps_block rfl hr h).2.1
  · exact .inl (event_keeps_block rfl hr h).2.1
  · exact absurd reset hr

/-- Settles O37: an operation makes at most one transfer, and none if a check answers it; the rest makes none. -/
theorem atMostOneTransferAStep : Obligations.AtMostOneTransferAStep := by
  refine ⟨fun i s t => exec_busLog, fun i s t hi h => ?_, fun i s t hi hc h hp => ?_⟩
  · rcases hi with ⟨event, hr⟩ | ⟨c, rfl⟩
    · exact (event_keeps_block event hr h).2.1
    · exact (execStatusRead_frame h).2
  · obtain ⟨c, hc⟩ := Option.ne_none_iff_exists'.1 hc
    obtain ⟨u, hu, hlog, hport⟩ := exec_opStep hi hc h
    rw [hlog]
    exact hu.busLog_of_refused (hport ▸ hp)

/-! ### The frame of the reads (R59, R142, R144, R146) -/

/-- Settles O48: each read is one operation, and none of them writes a channel. -/
theorem readsChangeNoChannel : Obligations.ReadsChangeNoChannel := by
  intro i s t c hi h
  have frame : OpStep c s t ∧ t.channels = s.channels := by
    rcases hi with rfl | rfl | rfl
    · exact ⟨part_next rfl rfl h, (execCorrRead_next h).1⟩
    · exact ⟨part_next rfl rfl h, (execPhaseRead_next h).1⟩
    · exact ⟨part_next rfl rfl h, (execStatusRead_frame h).1⟩
  obtain ⟨hop, hchannels⟩ := frame
  obtain ⟨hcfg, -, hcont, hagenda, hdraws⟩ := hop.fixed
  exact ⟨hchannels, hcfg, hcont, hagenda, hdraws, hop.busLog_grows⟩

/-! ### The frame of the writes (R58, R60, R113, R116, R117) -/

/-- From `ch` to `ch'` no write window but `w` changes. -/
def WritesOnly (w : WindowName) (ch ch' : Channel) : Prop :=
  (w ≠ .code → ch'.code = ch.code) ∧ (w ≠ .init → ch'.init = ch.init) ∧ (w ≠ .update → ch'.update = ch.update)

/-- From `ch` to `ch'` nothing of the sequencer record changes but `arm_step`. -/
def MovesArmStepOnly (ch ch' : Channel) : Prop := ch'.seq = { ch.seq with armStep := ch'.seq.armStep }

/-- What holds of a channel as it is and after both effects of a write operation holds of it after the operation. -/
theorem writeOp_chan {permit : Seq → Bool} {d : Bool} {c : Nat} {w : WindowName} {tx : List Byte}
    {onOk onLoss : Channel → Channel} {s t : State} (h : writeOp permit d c w tx onOk onLoss s = .next t)
    {P : Channel → Prop} (same : P (s.chan c)) (ok : P (onOk (s.chan c))) (loss : P (onLoss (s.chan c))) :
    P (t.chan c) := by
  rcases writeOp_next h with ⟨r, -, rfl⟩ | ⟨ha, -, rfl⟩ | ⟨ha, -, rfl⟩ | ⟨ha, -, rfl⟩
  · exact same
  all_goals have hc := (admission_eq_admitted.1 ha).2.1
  · rwa [answer_chan, setChan_chan_same (s.logTransfer _) hc]
  · rwa [answer_chan, setChan_chan_same (s.logTransfer _) hc]
  · rwa [hangUp_chan, setChan_chan_same (s.logTransfer _) hc]

/-- A write operation takes no free value. -/
theorem writeOp_fresh {permit : Seq → Bool} {d : Bool} {c : Nat} {w : WindowName} {tx : List Byte}
    {onOk onLoss : Channel → Channel} {s t : State} (h : writeOp permit d c w tx onOk onLoss s = .next t) :
    t.fresh = s.fresh := by
  rcases writeOp_next h with ⟨r, -, rfl⟩ | ⟨-, -, rfl⟩ | ⟨-, -, rfl⟩ | ⟨-, -, rfl⟩ <;> rfl

/-- What a write of window `w` of channel `c` leaves alone: the conclusion of `Obligations.WritesTouchTheirWindowOnly`. -/
def WriteFrame (w : WindowName) (c : Nat) (s t : State) : Prop :=
  (w ≠ .code → (t.chan c).code = (s.chan c).code) ∧ (w ≠ .init → (t.chan c).init = (s.chan c).init) ∧
  (w ≠ .update → (t.chan c).update = (s.chan c).update) ∧ (t.chan c).corr = (s.chan c).corr ∧
  (t.chan c).phase = (s.chan c).phase ∧ (t.chan c).err = (s.chan c).err ∧
  (t.chan c).stale = (s.chan c).stale ∧ (t.chan c).latch = (s.chan c).latch ∧
  (∀ c', c' ≠ c → t.chan c' = s.chan c') ∧ t.N = s.N ∧ t.cfg = s.cfg ∧ t.cont = s.cont ∧ t.agenda = s.agenda ∧
  t.errDraws = s.errDraws ∧ t.fresh = s.fresh ∧ s.busLog <+: t.busLog

/-- An operation that takes no free value and writes no window but `w` has the frame of a write. -/
theorem OpStep.writeFrame {w : WindowName} {c : Nat} {s t : State} (h : OpStep c s t) (hfresh : t.fresh = s.fresh)
    (hw : WritesOnly w (s.chan c) (t.chan c)) : WriteFrame w c s t := by
  obtain ⟨hcode, hinit, hupdate⟩ := hw
  obtain ⟨herr, hstale, hcorr, hphase, hlatch⟩ := h.kept c
  obtain ⟨hcfg, hN, hcont, hagenda, hdraws⟩ := h.fixed
  exact ⟨hcode, hinit, hupdate, hcorr, hphase, herr, hstale, hlatch, h.chan.2, hN, hcfg, hcont, hagenda, hdraws, hfresh,
    h.busLog_grows⟩

theorem execCodeLoad_frame {c : Nat} {prn : Int} {s t : State} (h : execCodeLoad c prn s = .next t) :
    WriteFrame .code c s t ∧ MovesArmStepOnly (s.chan c) (t.chan c) :=
  ⟨(execCodeLoad_opStep h).writeFrame (writeOp_fresh h) <|
      writeOp_chan h (P := WritesOnly .code (s.chan c)) ⟨fun _ => rfl, fun _ => rfl, fun _ => rfl⟩
        ⟨absurd rfl, fun _ => rfl, fun _ => rfl⟩ ⟨absurd rfl, fun _ => rfl, fun _ => rfl⟩,
    writeOp_chan h (P := MovesArmStepOnly (s.chan c)) rfl rfl rfl⟩

theorem execInitWrite_frame {c : Nat} {x y z : Int} {s t : State} (h : execInitWrite c x y z s = .next t) :
    WriteFrame .init c s t ∧ MovesArmStepOnly (s.chan c) (t.chan c) :=
  ⟨(execInitWrite_opStep h).writeFrame (writeOp_fresh h) <|
      writeOp_chan h (P := WritesOnly .init (s.chan c)) ⟨fun _ => rfl, fun _ => rfl, fun _ => rfl⟩
        ⟨fun _ => rfl, absurd rfl, fun _ => rfl⟩ ⟨fun _ => rfl, absurd rfl, fun _ => rfl⟩,
    writeOp_chan h (P := MovesArmStepOnly (s.chan c)) rfl rfl rfl⟩

theorem execUpdateWrite_frame {c : Nat} {x y : Int} {s t : State} (h : execUpdateWrite c x y s = .next t) :
    WriteFrame .update c s t :=
  (execUpdateWrite_opStep h).writeFrame (writeOp_fresh h) <|
    writeOp_chan h (P := WritesOnly .update (s.chan c)) ⟨fun _ => rfl, fun _ => rfl, fun _ => rfl⟩
      ⟨fun _ => rfl, fun _ => rfl, absurd rfl⟩ ⟨fun _ => rfl, fun _ => rfl, absurd rfl⟩

/-- Settles O49: each write is one operation whose effects on its channel are those of its own window. -/
theorem writesTouchTheirWindowOnly : Obligations.WritesTouchTheirWindowOnly := by
  intro i s t c h kept onlyStep
  refine ⟨?_, ?_, ?_⟩
  · rintro prn rfl
    exact execCodeLoad_frame h
  · rintro x y z rfl
    exact execInitWrite_frame h
  · rintro x y rfl
    exact execUpdateWrite_frame h

/-! ### A transfer that hangs (R31, R61) -/

/-- The block hung in a transfer from `s` and is stuck in `t`, with channel `c` as `ch` (R61): the conclusion of
`Obligations.HangLeavesTheBlockStuck`. -/
def StuckAfter (s : State) (c : Nat) (ch : Channel) (t : State) : Prop :=
  t.hung = true ∧ t.port = .empty ∧ t.channels = s.channels.set c ch ∧ t.cfg = s.cfg ∧
  t.outcomes = s.outcomes.tail ∧ (∃ r, t.busLog = s.busLog ++ [r] ∧ r.outcome = .hang ∧ r.rx = none) ∧
  t.isFinal = false ∧ ∀ j : Instr, j.isEvent = false → exec j t = .fault .blockHung

/-- A transfer whose record shows a hang, with nothing received, leaves the block stuck. -/
theorem stuckAfter_hangUp {s : State} {c : Nat} {ch : Channel} {r : BusRecord} (ho : r.outcome = .hang)
    (hrx : r.rx = none) : StuckAfter s c ch ((s.logTransfer r).setChan c ch).hangUp :=
  ⟨rfl, rfl, rfl, rfl, rfl, ⟨r, rfl, ho, hrx⟩, rfl, fun _ => exec_of_hung rfl⟩

/-- An admitted write operation that hangs loses its window, as under a fault. -/
theorem writeOp_stuckAfter {permit : Seq → Bool} {d : Bool} {c : Nat} {w : WindowName} {tx : List Byte}
    {onOk onLoss : Channel → Channel} {s : State} (ha : admission permit d c s = .admitted)
    (ho : s.nextOutcome = .hang) :
    ∃ t, writeOp permit d c w tx onOk onLoss s = .next t ∧ StuckAfter s c (onLoss (s.chan c)) t :=
  ⟨_, writeOp_hung ha ho, stuckAfter_hangUp rfl rfl⟩

/-- Writing back the channel that stands there changes nothing. -/
theorem setChan_chan_self {s : State} {c : Nat} (hc : c < s.N) : s.setChan c (s.chan c) = s := by
  rw [State.setChan, set_chan_self hc]

/-- An admitted read operation that hangs leaves its channel alone. -/
theorem readOp_stuckAfter {n : Nat} {permit : Seq → Bool} {c : Nat} {w : WindowName} {tx : List Byte}
    {window : Channel → Content n} {unpack : Image n → Value} {s : State} (ha : admission permit true c s = .admitted)
    (ho : s.nextOutcome = .hang) :
    ∃ t, readOp permit c w tx window unpack s = .next t ∧ StuckAfter s c (s.chan c) t := by
  have hc := (admission_eq_admitted.1 ha).2.1
  refine ⟨_, readOp_hung ha ho, ?_⟩
  rw [← setChan_chan_self (s := s.logTransfer _) hc]
  exact stuckAfter_hangUp rfl rfl

/-- Settles O35: each of the five operations is admitted, and its transfer hangs. -/
theorem hangLeavesTheBlockStuck : Obligations.HangLeavesTheBlockStuck := by
  intro s c hh hc ho ch stuck
  refine ⟨fun prn idle dom => ?_, fun x y z idle step dom => ?_, fun x y owed dom => ?_, fun tracking => ?_,
    fun tracking => ?_⟩
  · exact show ∃ t, execCodeLoad c prn s = .next t ∧ StuckAfter s c ch.codeLost t from
      writeOp_stuckAfter (admission_eq_admitted.2 ⟨hh, hc, permitCodeLoad_iff.2 idle, dom⟩) ho
  · exact show ∃ t, execInitWrite c x y z s = .next t ∧ StuckAfter s c ch.initLost t from
      writeOp_stuckAfter (admission_eq_admitted.2 ⟨hh, hc, permitInitWrite_iff.2 ⟨idle, step⟩, dom⟩) ho
  · exact show ∃ t, execUpdateWrite c x y s = .next t ∧ StuckAfter s c ch.updateLost t from
      writeOp_stuckAfter (admission_eq_admitted.2 ⟨hh, hc, permitUpdateWrite_iff.2 owed, dom⟩) ho
  · exact show ∃ t, execCorrRead c s = .next t ∧ StuckAfter s c ch t from
      readOp_stuckAfter (admission_eq_admitted.2 ⟨hh, hc, decide_eq_true tracking, rfl⟩) ho
  · exact show ∃ t, execPhaseRead c s = .next t ∧ StuckAfter s c ch t from
      readOp_stuckAfter (admission_eq_admitted.2 ⟨hh, hc, decide_eq_true tracking, rfl⟩) ho

end Sys2Proof.Machine
end

section
/-! Family `30_encoding.md`, statements O1, O2, O7, O9, O10, O12 and O59: the fields of the wire images, the round trip of
the decoder, and the later parts of the pseudo-operations. -/

namespace Sys2Proof.Machine

/-! ### Fields of an image value (R7) -/

/-- A field of width `w` is read back from a value written out as what lies above it, the field, and what lies
below it. -/
theorem bits_of_split {v above f below hi lo w : Nat} (hw : hi + 1 = lo + w)
    (hv : v = (above * 2 ^ w + f) * 2 ^ lo + below) (hbelow : below < 2 ^ lo) (hf : f < 2 ^ w) : bits v hi lo = f := by
  have shifted : v / 2 ^ lo = above * 2 ^ w + f := by
    rw [hv, Nat.mul_comm, Nat.mul_add_div (Nat.two_pow_pos lo), Nat.div_eq_of_lt hbelow, Nat.add_zero]
  rw [bits, shifted, hw, Nat.add_sub_cancel_left, Nat.mul_add_mod', Nat.mod_eq_of_lt hf]

/-- The same of the topmost field, with nothing above it. -/
theorem bits_of_top {v f below hi lo w : Nat} (hw : hi + 1 = lo + w) (hv : v = f * 2 ^ lo + below)
    (hbelow : below < 2 ^ lo) (hf : f < 2 ^ w) : bits v hi lo = f :=
  bits_of_split (above := 0) hw (by rwa [Nat.zero_mul, Nat.zero_add]) hbelow hf

/-- A field above all of a value's bits is zero. -/
theorem bits_of_lt {v lo : Nat} (hi : Nat) (hv : v < 2 ^ lo) : bits v hi lo = 0 := by
  rw [bits, Nat.div_eq_of_lt hv, Nat.zero_mod]

/-- A field is below two to its width. -/
theorem bits_lt (v hi lo : Nat) : bits v hi lo < 2 ^ (hi + 1 - lo) := Nat.mod_lt _ (Nat.two_pow_pos _)

/-- An image value has eight bits a byte. -/
theorem imageValue_lt (l : List Byte) : imageValue l < 2 ^ (8 * l.length) := by
  induction l using List.reverseRecOn with
  | nil => decide
  | append_singleton l b ih =>
    have := b.isLt
    rw [imageValue_append, List.length_append, List.length_singleton, Nat.mul_add, Nat.pow_add]
    omega

/-- The image value of two byte strings, one after the other. -/
theorem imageValue_append_list (l l' : List Byte) :
    imageValue (l ++ l') = imageValue l * 2 ^ (8 * l'.length) + imageValue l' := by
  induction l' using List.reverseRecOn with
  | nil => simp [imageValue]
  | append_singleton l' b ih =>
    rw [← List.append_assoc, imageValue_append, ih, imageValue_append, List.length_append, List.length_singleton,
      Nat.mul_add, Nat.pow_add]
    ring

/-- Consecutive bytes of an image are a field of its value: the `m` bytes from `k` on. -/
theorem bits_imageValue_slice {l : List Byte} {hi lo : Nat} (k m : Nat) (hlo : lo + 8 * (k + m) = 8 * l.length)
    (hhi : hi + 1 = lo + 8 * m) : bits (imageValue l) hi lo = imageValue ((l.drop k).take m) := by
  have split : l = l.take k ++ ((l.drop k).take m ++ l.drop (k + m)) := by
    rw [← List.drop_drop, List.take_append_drop, List.take_append_drop]
  have hmid : ((l.drop k).take m).length = m := by simp; omega
  have hpost : 8 * (l.drop (k + m)).length = lo := by simp; omega
  refine bits_of_split (above := imageValue (l.take k)) (below := imageValue (l.drop (k + m))) hhi ?_ ?_ ?_
  · conv_lhs => rw [split]
    rw [imageValue_append_list, imageValue_append_list, List.length_append, hmid, Nat.mul_add, hpost, Nat.pow_add]
    ring
  · exact hpost ▸ imageValue_lt _
  · exact (imageValue_lt _).trans_eq (by rw [hmid])

/-- Consecutive bytes of an image, one byte at the end. -/
theorem imageValue_slice_succ {n : Nat} (b : Image n) {k m : Nat} (h : k + m < n) :
    imageValue ((b.toList.drop k).take (m + 1)) = imageValue ((b.toList.drop k).take m) * 256 + b[k + m].toNat := by
  have hm : m < (b.toList.drop k).length := by rw [List.length_drop, Vector.length_toList]; omega
  rw [List.take_succ_eq_append_getElem hm, imageValue_append, List.getElem_drop, Vector.getElem_toList]

@[simp] theorem imageValue_nil : imageValue [] = 0 := rfl

/-- Byte `k` of an image, as a field of its value (R7). -/
theorem bits_byte {n : Nat} (b : Image n) {k : Nat} (hk : k < n) :
    bits (imageValue b.toList) (8 * (n - 1 - k) + 7) (8 * (n - 1 - k)) = b[k].toNat := by
  rw [bits_imageValue_slice k 1 (by rw [Vector.length_toList]; omega) (by omega), imageValue_slice_succ b hk]
  simp

/-- Three bytes of an image from `k` on, most significant first, are a field of its value. -/
theorem bits_be24 {n : Nat} (b : Image n) {hi lo : Nat} (k : Nat) (hlo : lo + 8 * (k + 3) = 8 * n)
    (hhi : hi + 1 = lo + 24) : bits (imageValue b.toList) hi lo = be24 b[k] b[k + 1] b[k + 2] := by
  rw [bits_imageValue_slice k 3 (by rwa [Vector.length_toList]) hhi, imageValue_slice_succ b (by omega),
    imageValue_slice_succ b (by omega), imageValue_slice_succ b (by omega)]
  simp only [List.take_zero, imageValue_nil, Nat.add_zero, be24]
  omega

/-! ### The write images (R82, R85) -/

theorem twos_lt (k : Nat) (x : Int) : twos k x < 2 ^ k := by
  have hpos : (0 : Int) < 2 ^ k := by positivity
  have := Int.emod_lt_of_pos x hpos
  rw [twos, Int.toNat_lt (Int.emod_nonneg _ hpos.ne')]
  exact_mod_cast this

theorem twos_cast (k : Nat) (x : Int) : (twos k x : Int) = x % 2 ^ k :=
  Int.toNat_of_nonneg (Int.emod_nonneg _ (by positivity))

/-- `twos_k` keeps the integers that a `k`-bit unsigned field holds. -/
theorem twos_of_nonneg {k : Nat} {x : Int} (h0 : 0 ≤ x) (h1 : x ≤ 2 ^ k - 1) : (twos k x : Int) = x := by
  rw [twos_cast, Int.emod_eq_of_lt h0 (by omega)]

/-- R82: the closed form of the INIT image. CODE_PHASE stands in three bytes and CARR_PHASE in four. -/
theorem imageValue_packInit (prn cp code : Int) :
    imageValue (packInit prn cp code).toList = twos 14 code * 2 ^ 29 + twos 24 cp * 2 ^ 5 + twos 5 prn := by
  have hcode : twos 14 code =
      (code / 2048 % 8).toNat * 2 ^ 11 + (code / 8 % 256).toNat * 2 ^ 3 + (code % 8).toNat := by
    simp only [twos]; omega
  have hcp : twos 24 cp =
      (cp / 524288 % 32).toNat * 2 ^ 19 + (cp / 2048 % 256).toNat * 2 ^ 11 + (cp / 8 % 256).toNat * 2 ^ 3 +
        (cp % 8).toNat := by
    simp only [twos]; omega
  have hprn : twos 5 prn = (prn % 32).toNat := rfl
  rw [imageValue_six, packInit_byte0, packInit_byte1, packInit_byte2, packInit_byte3, packInit_byte4, packInit_byte5,
    hcode, hcp, hprn]
  ring

/-- R85: the closed form of the UPDATE image. The rate stands in four bytes and the frequency in two. -/
theorem imageValue_packUpdate (cf cr : Int) :
    imageValue (packUpdate cf cr).toList = twos 29 cr * 2 ^ 16 + twos 16 cf := by
  have hcr : twos 29 cr =
      (cr / 16777216 % 32).toNat * 2 ^ 24 + (cr / 65536 % 256).toNat * 2 ^ 16 + (cr / 256 % 256).toNat * 2 ^ 8 +
        (cr % 256).toNat := by
    simp only [twos]; omega
  have hcf : twos 16 cf = (cf / 256 % 256).toNat * 2 ^ 8 + (cf % 256).toNat := by
    simp only [twos]; omega
  rw [imageValue_six, packUpdate_byte0, packUpdate_byte1, packUpdate_byte2, packUpdate_byte3, packUpdate_byte4,
    packUpdate_byte5, hcr, hcf]
  ring

/-- R82: the reserved bits and the three fields of the INIT image. -/
theorem packInit_fields (prn cp code : Int) :
    let img := imageValue (packInit prn cp code).toList
    bits img 47 43 = 0 ∧ bits img 42 29 = twos 14 code ∧ bits img 28 5 = twos 24 cp ∧ bits img 4 0 = twos 5 prn := by
  intro img
  have closed : img = twos 14 code * 2 ^ 29 + twos 24 cp * 2 ^ 5 + twos 5 prn := imageValue_packInit prn cp code
  have hcode := twos_lt 14 code
  have hcp := twos_lt 24 cp
  have hprn := twos_lt 5 prn
  refine ⟨bits_of_lt 47 ?_, bits_of_top (w := 14) rfl (closed.trans (Nat.add_assoc _ _ _)) ?_ hcode,
    bits_of_split (w := 24) (above := twos 14 code) (below := twos 5 prn) rfl ?_ hprn hcp,
    bits_of_split (w := 5) (above := twos 14 code * 2 ^ 24 + twos 24 cp) (below := 0) rfl ?_ (by decide) hprn⟩
  all_goals omega

/-- R85: the reserved bits and the two fields of the UPDATE image. -/
theorem packUpdate_fields (cf cr : Int) :
    let img := imageValue (packUpdate cf cr).toList
    bits img 47 45 = 0 ∧ bits img 44 16 = twos 29 cr ∧ bits img 15 0 = twos 16 cf := by
  intro img
  have closed : img = twos 29 cr * 2 ^ 16 + twos 16 cf := imageValue_packUpdate cf cr
  have hcr := twos_lt 29 cr
  have hcf := twos_lt 16 cf
  refine ⟨bits_of_lt 47 ?_, bits_of_top (w := 29) rfl closed hcf hcr,
    bits_of_split (w := 16) (above := twos 29 cr) (below := 0) rfl ?_ (by decide) hcf⟩
  all_goals omega

/-- Settles O1: the closed form, and the fields read back from it. -/
theorem packInitFieldLayout : Obligations.PackInitFieldLayout := by
  intro prn cp code img
  obtain ⟨reserved, hcode, hcp, hprn⟩ := packInit_fields prn cp code
  refine ⟨?_, reserved, hcode, hcp, hprn, fun k hk => (bits_byte _ hk).symm, fun h0 h1 => ?_⟩
  · rw [← twos_cast, ← twos_cast, ← twos_cast]
    exact_mod_cast imageValue_packInit prn cp code
  · have top : (code / 2048 % 8).toNat = 0 := by omega
    exact BitVec.eq_of_toNat_eq ((packInit_byte0 prn cp code).trans top)

/-- Settles O2: the closed form, the fields read back from it, and the largest rate as one case of them. -/
theorem packUpdateFieldLayout : Obligations.PackUpdateFieldLayout := by
  refine ⟨?_, fun cf => ⟨rfl, ?_⟩⟩
  · intro cf cr img
    obtain ⟨reserved, hcr, hcf⟩ := packUpdate_fields cf cr
    refine ⟨?_, reserved, hcr, hcf, fun k hk => (bits_byte _ hk).symm⟩
    rw [← twos_cast, ← twos_cast]
    exact_mod_cast imageValue_packUpdate cf cr
  · obtain ⟨-, rate, -⟩ := packUpdate_fields cf 0x1FFFFFFF
    simp only [unpackUpdate, rate]
    exact twos_of_nonneg (by decide) (by decide)

/-! ### The read images (R87 to R90) -/

/-- R87: the sample count is the first two bytes of the CORR image. -/
theorem unpackCorr_sampleCount (b : CorrImage) : (unpackCorr b).sampleCount = bits (imageValue b.toList) 159 144 := by
  rw [bits_imageValue_slice 0 2 (by rw [Vector.length_toList]) rfl]
  simp only [imageValue_slice_succ, Nat.reduceAdd, Nat.reduceLT, List.take_zero, imageValue_nil, unpackCorr]
  omega

/-- Settles O7: each field is consecutive bytes of the image, by the byte offsets of `UNPACK_CORR`. -/
theorem corrImageLayout : Obligations.CorrImageLayout := by
  intro b img r
  have field {hi lo : Nat} (k : Nat) (hlo : lo + 8 * (k + 3) = 160) (hhi : hi + 1 = lo + 24) :
      signed 24 (be24 b[k] b[k + 1] b[k + 2]) = signed 24 (bits img hi lo) :=
    congrArg (signed 24) (bits_be24 b k hlo hhi).symm
  refine ⟨unpackCorr_sampleCount b, field 2 rfl rfl, field 5 rfl rfl, field 8 rfl rfl, field 11 rfl rfl, field 14 rfl rfl, field 17 rfl rfl,
    fun t => ?_⟩
  match t with
  | 0 | 1 | 2 => simp [corrTap, r, unpackCorr, unpackTap]

/-- R89: CODE_PHASE is the first six bytes of the PHASE image. -/
theorem unpackPhase_codePhase (b : PhaseImage) : (unpackPhase b).codePhase = bits (imageValue b.toList) 71 24 := by
  rw [bits_imageValue_slice 0 6 (by rw [Vector.length_toList]) rfl]
  simp only [imageValue_slice_succ, Nat.reduceAdd, Nat.reduceLT, List.take_zero, imageValue_nil, unpackPhase]
  omega

/-- R89: CARR_PHASE is the last three bytes of the PHASE image. -/
theorem unpackPhase_carrierPhase (b : PhaseImage) : (unpackPhase b).carrierPhase = bits (imageValue b.toList) 23 0 := by
  rw [bits_be24 b 6 rfl rfl]
  simp only [unpackPhase, be24, Nat.reduceAdd]
  omega

/-- Settles O9: both fields are unsigned image bits. -/
theorem phaseImageLayout : Obligations.PhaseImageLayout := by
  refine ⟨?_, rfl⟩
  intro b img
  rw [unpackPhase_codePhase, unpackPhase_carrierPhase]
  exact ⟨rfl, rfl, bits_lt img 71 24, bits_lt img 23 0⟩

/-- Settles O10: the probe is a constant. -/
theorem phaseProbeBytes : Obligations.PhaseProbeBytes := ⟨rfl, rfl⟩

/-! ### Decoding the encoding (R94, R96, R121) -/

/-- What the inverse of `PACK_INIT` makes of every triple of integers. -/
theorem unpackInit_packInit (prn cp code : Int) :
    unpackInit (packInit prn cp code) = ⟨twos 5 prn, signed 24 (twos 24 cp), twos 14 code⟩ := by
  obtain ⟨-, hcode, hcp, hprn⟩ := packInit_fields prn cp code
  simp only [unpackInit, hcode, hcp, hprn]

/-- What the inverse of `PACK_UPDATE` makes of every pair of integers. -/
theorem unpackUpdate_packUpdate (cf cr : Int) :
    unpackUpdate (packUpdate cf cr) = ⟨signed 16 (twos 16 cf), twos 29 cr⟩ := by
  obtain ⟨-, hcr, hcf⟩ := packUpdate_fields cf cr
  simp only [unpackUpdate, hcr, hcf]

/-- R121: the round trip of INIT on operands that fit their fields. -/
theorem unpackInit_packInit_of_fits {prn cp code : Int} (hprn : prnFits prn = true) (hcp : carrierPhaseFits cp = true)
    (hcode : codePhaseFits code = true) : unpackInit (packInit prn cp code) = ⟨prn, cp, code⟩ := by
  obtain ⟨hp0, hp1⟩ := of_decide_eq_true hprn
  obtain ⟨hc0, hc1⟩ := of_decide_eq_true hcp
  obtain ⟨hd0, hd1⟩ := of_decide_eq_true hcode
  rw [unpackInit_packInit, twos_of_nonneg hp0 hp1, signed_twos 24 (by decide) cp hc0 (Int.lt_of_le_sub_one hc1),
    twos_of_nonneg hd0 hd1]

/-- R121: the round trip of UPDATE on operands that fit their fields. -/
theorem unpackUpdate_packUpdate_of_fits {cf cr : Int} (hcf : carrierFreqFits cf = true)
    (hcr : codePhaseRateFits cr = true) : unpackUpdate (packUpdate cf cr) = ⟨cf, cr⟩ := by
  obtain ⟨hf0, hf1⟩ := of_decide_eq_true hcf
  obtain ⟨hr0, hr1⟩ := of_decide_eq_true hcr
  rw [unpackUpdate_packUpdate, signed_twos 16 (by decide) cf hf0 (Int.lt_of_le_sub_one hf1), twos_of_nonneg hr0 hr1]

/-- An INIT image with reserved bits zero decodes to its fields (R83). -/
theorem decodeImage_init (c : Nat) {b : InitImage} (reserved : initReservedZero b = true) :
    decodeImage c .init .tx b.toList =
      .ok (.initWrite c (unpackInit b).prn (unpackInit b).carrierPhase (unpackInit b).codePhase) := by
  simp only [decodeImage, toImage_toList, reserved, if_true]

/-- An UPDATE image with reserved bits zero decodes to its fields (R86). -/
theorem decodeImage_update (c : Nat) {b : UpdateImage} (reserved : updateReservedZero b = true) :
    decodeImage c .update .tx b.toList =
      .ok (.updateWrite c (unpackUpdate b).carrierFreq (unpackUpdate b).codePhaseRate) := by
  simp only [decodeImage, toImage_toList, reserved, if_true]

/-- Settles O12: INIT_WRITE and UPDATE_WRITE by the round trip of their images, the reads and their transmit halves by
the decoder's check of length or constant, the others by their names. -/
theorem decodeOfEncodeIsTheInstruction : Obligations.DecodeOfEncodeIsTheInstruction := by
  intro i wf
  cases i with
  | initWrite c prn cp code =>
    simp only [Instr.wellFormed, Bool.and_eq_true] at wf
    obtain ⟨⟨hprn, hcp⟩, hcode⟩ := wf
    refine (decodeImage_init c (packInit_reserved prn cp code)).trans ?_
    rw [unpackInit_packInit_of_fits hprn hcp hcode]
  | updateWrite c cf cr =>
    simp only [Instr.wellFormed, Bool.and_eq_true] at wf
    obtain ⟨hcf, hcr⟩ := wf
    refine (decodeImage_update c (packUpdate_reserved cf cr)).trans ?_
    rw [unpackUpdate_packUpdate_of_fits hcf hcr]
  | corrRead c => rfl
  | phaseRead c => rfl
  | corrReadTx => rfl
  | phaseReadTx => rfl
  | codeLoad c prn => exact Laws.NamedRoundTrip.codeLoad c prn
  | statusRead c => exact Laws.NamedRoundTrip.statusRead c
  | periodIrq c corr phase => exact Laws.NamedRoundTrip.periodIrq c corr phase
  | strobeFall c => exact Laws.NamedRoundTrip.strobeFall c
  | reset => exact Laws.NamedRoundTrip.reset
  | arm c prn cp code cf cr => exact Laws.NamedRoundTrip.arm c prn cp code cf cr
  | service c cf cr => exact Laws.NamedRoundTrip.service c cf cr

/-! ### In a block that is not stuck every operation has a step (R110) -/

theorem writeOp_has_step {permit : Seq → Bool} {d : Bool} {c : Nat} {w : WindowName} {tx : List Byte}
    {onOk onLoss : Channel → Channel} {s : State} (hh : s.hung = false) :
    ∃ t, writeOp permit d c w tx onOk onLoss s = .next t := by
  cases ha : admission permit d c s with
  | stuck => simp [admission_eq_stuck.1 ha] at hh
  | refuse r => exact ⟨_, writeOp_refuse ha⟩
  | admitted =>
    cases ho : s.nextOutcome with
    | ok => exact ⟨_, writeOp_ok ha ho⟩
    | fault => exact ⟨_, writeOp_lost ha ho⟩
    | hang => exact ⟨_, writeOp_hung ha ho⟩

theorem readOp_has_step {n : Nat} {permit : Seq → Bool} {c : Nat} {w : WindowName} {tx : List Byte}
    {window : Channel → Content n} {unpack : Image n → Value} {s : State} (hh : s.hung = false) :
    ∃ t, readOp permit c w tx window unpack s = .next t := by
  cases ha : admission permit true c s with
  | stuck => simp [admission_eq_stuck.1 ha] at hh
  | refuse r => exact ⟨_, readOp_refuse ha⟩
  | admitted =>
    simp only [readOp, ha]
    cases s.nextOutcome <;> exact ⟨_, rfl⟩

theorem execStatusRead_has_step {c : Nat} {s : State} (hh : s.hung = false) : ∃ t, execStatusRead c s = .next t := by
  cases ha : admission permitStatusRead true c s with
  | stuck => simp [admission_eq_stuck.1 ha] at hh
  | refuse r => exact ⟨s.answer r, by simp only [execStatusRead, ha]⟩
  | admitted => exact ⟨s.answer (.ok (.status (s.chan c).err)), by simp only [execStatusRead, ha]⟩

/-- A part that ran to `u` either returned OK, and the pseudo-operation goes on, or ends it there. -/
theorem afterPart_of_next {o : Host.Outcome State Fault Refusal} {k : Value → State → State} {u : State}
    (ho : o = .next u) :
    (∃ v, u.port = .returned (.ok v) ∧ afterPart o k = .next (k v u)) ∨
      ((∀ v, u.port ≠ .returned (.ok v)) ∧ afterPart o k = .next { u with cont := .none }) := by
  subst ho
  by_cases hok : ∃ v, u.port = .returned (.ok v)
  · obtain ⟨v, hv⟩ := hok
    exact .inl ⟨v, hv, by simp only [afterPart, hv]⟩
  · have hno := not_exists.1 hok
    exact .inr ⟨hno, by simp only [afterPart]⟩

theorem afterPart_has_step {o : Host.Outcome State Fault Refusal} {k : Value → State → State}
    (ho : ∃ u, o = .next u) : ∃ t, afterPart o k = .next t := by
  obtain ⟨u, hu⟩ := ho
  rcases afterPart_of_next (k := k) hu with ⟨v, -, h⟩ | ⟨-, h⟩ <;> exact ⟨_, h⟩

/-- In a block that is not stuck every operation has a step. -/
theorem exec_has_step {i : Instr} {s : State} (hh : s.hung = false) (hi : i.isEvent = false) :
    ∃ t, exec i s = .next t := by
  cases i with
  | codeLoad c prn => exact show ∃ t, execCodeLoad c prn s = .next t from writeOp_has_step hh
  | initWrite c prn cp code => exact show ∃ t, execInitWrite c prn cp code s = .next t from writeOp_has_step hh
  | updateWrite c cf cr => exact show ∃ t, execUpdateWrite c cf cr s = .next t from writeOp_has_step hh
  | corrRead c => exact show ∃ t, execCorrRead c s = .next t from readOp_has_step hh
  | corrReadTx => exact ⟨s, transmitOnly_of_not_hung hh⟩
  | phaseRead c => exact show ∃ t, execPhaseRead c s = .next t from readOp_has_step hh
  | phaseReadTx => exact ⟨s, transmitOnly_of_not_hung hh⟩
  | statusRead c => exact execStatusRead_has_step hh
  | periodIrq c corr phase => cases hi
  | strobeFall c => cases hi
  | reset => cases hi
  | arm c prn cp code cf cr => exact afterPart_has_step (writeOp_has_step hh)
  | service c cf cr => exact afterPart_has_step (readOp_has_step hh)

/-! ### The later parts of ARM and SERVICE (R97) -/

/-- The operation that the next part of a pseudo-operation is. -/
def Cont.part : Cont → Option Instr
  | .none => Option.none
  | .armInit c prn carrierPhase codePhase _ _ => some (.initWrite c prn carrierPhase codePhase)
  | .armUpdate c carrierFreq codePhaseRate => some (.updateWrite c carrierFreq codePhaseRate)
  | .servicePhase c _ _ _ => some (.phaseRead c)
  | .serviceUpdate c carrierFreq codePhaseRate _ _ => some (.updateWrite c carrierFreq codePhaseRate)

/-- What the caller does when the next part has returned OK with a value. -/
def Cont.onOk : Cont → Value → State → State
  | .none => fun _ t => t
  | .armInit c _ _ _ carrierFreq codePhaseRate => fun _ t => t.continueAt (.armUpdate c carrierFreq codePhaseRate)
  | .armUpdate _ _ _ => fun _ t => t.finish (.ok .done)
  | .servicePhase c carrierFreq codePhaseRate corr => fun v t => t.keepPhase c carrierFreq codePhaseRate corr v
  | .serviceUpdate _ _ _ corr phase => fun _ t => t.finish (.ok (.service corr phase))

/-- Going on with a pseudo-operation is running its next part. -/
theorem resumePart_of_part {s : State} {i : Instr} (hi : s.cont.part = some i) :
    resumePart s = afterPart (exec i s) s.cont.onOk := by
  unfold resumePart
  cases hk : s.cont with
  | none => rw [hk] at hi; cases hi
  | armInit | armUpdate | servicePhase | serviceUpdate =>
    rw [hk] at hi
    cases hi
    rfl

theorem Cont.part_of_ne_none {k : Cont} (hk : k ≠ .none) : ∃ i, k.part = some i ∧ i.isEvent = false := by
  cases k with
  | none => exact absurd rfl hk
  | armInit | armUpdate | servicePhase | serviceUpdate => exact ⟨_, rfl, rfl⟩

/-- In a block that is not stuck the pseudo-operation under way has a step. -/
theorem resumePart_has_step {s : State} (hh : s.hung = false) : ∃ t, resumePart s = .next t := by
  by_cases hk : s.cont = .none
  · exact ⟨s, resumePart_of_cont_none hk⟩
  · obtain ⟨i, hpart, hi⟩ := Cont.part_of_ne_none hk
    rw [resumePart_of_part hpart]
    exact afterPart_has_step (exec_has_step hh hi)

/-- In a stuck block it has none. -/
theorem resumePart_of_hung {s : State} (hh : s.hung = true) (hk : s.cont ≠ .none) :
    resumePart s = .fault .blockHung := by
  obtain ⟨i, hpart, hi⟩ := Cont.part_of_ne_none hk
  rw [resumePart_of_part hpart]
  exact afterPart_fault (exec_of_hung hh hi)

theorem execInitWrite_ok_done {c : Nat} {x y z : Int} {s t : State} {v : Value}
    (h : exec (.initWrite c x y z) s = .next t) (hv : t.port = .returned (.ok v)) : v = .done :=
  writeOp_ok_done (show execInitWrite c x y z s = .next t from h) hv

theorem execUpdateWrite_ok_done {c : Nat} {x y : Int} {s t : State} {v : Value}
    (h : exec (.updateWrite c x y) s = .next t) (hv : t.port = .returned (.ok v)) : v = .done :=
  writeOp_ok_done (show execUpdateWrite c x y s = .next t from h) hv

/-- A part that is a write goes on with `onOk`, or ends the pseudo-operation: the `goesOn` of
`Obligations.LaterPartsRunTheirOperation`. -/
theorem resumePart_of_writePart {s t : State} {i : Instr} (hpart : s.cont.part = some i)
    (h : exec i s = .next t) (done : ∀ v, t.port = .returned (.ok v) → v = .done) :
    (t.port = .returned (.ok .done) ∧ resumePart s = .next (s.cont.onOk .done t)) ∨
      ((∀ v, t.port ≠ .returned (.ok v)) ∧ resumePart s = .next { t with cont := .none }) := by
  rw [resumePart_of_part hpart]
  refine (afterPart_of_next h).imp_left fun ⟨v, hv, hnext⟩ => ?_
  obtain rfl := done v hv
  exact ⟨hv, hnext⟩

/-- A finished pseudo-operation whose last part shows the same result moves the caller's place only. -/
theorem finish_of_port {t : State} {r : Return} (hp : t.port = .returned r) :
    t.finish r = { t with cont := .none } := by
  rw [State.finish, ← hp]

/-- Settles O59: going on is running the part that the caller's place names, and a part returns OK or ends it. -/
theorem laterPartsRunTheirOperation : Obligations.LaterPartsRunTheirOperation := by
  intro s c cf cr goesOn
  refine ⟨resumePart_of_cont_none, fun prn cp ph hk t h => ?_, fun hk t h => ?_, fun corr hk t h => ?_,
    fun corr phase hk t h => ?_, resumePart_has_step, resumePart_of_hung⟩
  · have := resumePart_of_writePart (by rw [hk]; rfl) h fun _ => execInitWrite_ok_done h
    rwa [hk] at this
  · have := resumePart_of_writePart (by rw [hk]; rfl) h fun _ => execUpdateWrite_ok_done h
    rw [hk] at this
    exact this.imp_left fun ⟨hp, hnext⟩ => ⟨hp, hnext.trans (congrArg _ (finish_of_port hp))⟩
  · rw [resumePart_of_part (i := .phaseRead c) (by rw [hk]; rfl), hk]
    refine (afterPart_of_next h).imp_left fun ⟨v, hv, hnext⟩ => ?_
    obtain rfl := (execPhaseRead_next h).2 v hv
    exact ⟨_, hv, hnext⟩
  · have := resumePart_of_writePart (by rw [hk]; rfl) h fun _ => execUpdateWrite_ok_done h
    rwa [hk] at this

end Sys2Proof.Machine
end

section
/-! Family `40_write_ops.md`, statements O3 to O6, O15 to O17 and O33: the round trips of the write images, what the write
operations do, and what a refusal leaves alone. -/

namespace Sys2Proof.Machine

/-! ### The checks before the transfer, one by one (R110, R207) -/

theorem admission_of_badChannel {permit : Seq → Bool} {d : Bool} {c : Nat} {s : State} (hh : s.hung = false)
    (hc : s.N ≤ c) : admission permit d c s = .refuse .badChannel :=
  admission_eq_refuse.2 ⟨hh, .inl ⟨hc, rfl⟩⟩

theorem admission_of_seqViolation {permit : Seq → Bool} {d : Bool} {c : Nat} {s : State} (hh : s.hung = false)
    (hc : c < s.N) (hp : ¬ permit (s.chan c).seq = true) : admission permit d c s = .refuse .seqViolation :=
  admission_eq_refuse.2 ⟨hh, .inr (.inl ⟨hc, Bool.eq_false_iff.2 hp, rfl⟩)⟩

theorem admission_of_rangeFault {permit : Seq → Bool} {d : Bool} {c : Nat} {s : State} (hh : s.hung = false)
    (hc : c < s.N) (hp : permit (s.chan c).seq = true) (hd : ¬ d = true) : admission permit d c s = .refuse .rangeFault :=
  admission_eq_refuse.2 ⟨hh, .inr (.inr ⟨hc, hp, Bool.eq_false_iff.2 hd, rfl⟩)⟩

/-! ### Domains and admission as the rules word them (R112, R113, R115, R117) -/

theorem codeLoadInDomain_iff {prn : Int} : codeLoadInDomain prn = true ↔ 0 ≤ prn ∧ prn ≤ 31 := decide_eq_true_iff

theorem initInDomain_iff {cfg : Config} {prn cp code : Int} :
    initInDomain cfg prn cp code = true ↔
      (0 ≤ prn ∧ prn ≤ 31) ∧ (-2 ^ 23 ≤ cp ∧ cp ≤ 2 ^ 23 - 1) ∧ (0 ≤ code ∧ code ≤ 2 ^ cfg.codePhaseInBits - 1) := by
  simp only [initInDomain, Bool.and_eq_true, decide_eq_true_eq, and_assoc, Int.reducePow, Int.reduceNeg, Int.reduceSub]

theorem updateInDomain_iff {cf cr : Int} :
    updateInDomain cf cr = true ↔ (-32768 ≤ cf ∧ cf ≤ 32767) ∧ (0 ≤ cr ∧ cr ≤ 2 ^ 29 - 1) := by
  simp only [updateInDomain, Bool.and_eq_true, decide_eq_true_eq, Int.reducePow, Int.reduceSub]

/-- INIT_WRITE is admitted in `Idle` once CODE_LOAD has succeeded (R113). -/
theorem permitInitWrite_iff_step {q : Seq} :
    permitInitWrite q = true ↔ q.state = .idle ∧ (q.armStep = .one ∨ q.armStep = .two) := by
  simp only [permitInitWrite, Bool.and_eq_true, Bool.or_eq_true, decide_eq_true_eq]

/-! ### The write operations (R113, R116, R117) -/

theorem exec_codeLoad (c : Nat) (prn : Int) (s : State) : exec (.codeLoad c prn) s = execCodeLoad c prn s := rfl

theorem exec_initWrite (c : Nat) (x y z : Int) (s : State) :
    exec (.initWrite c x y z) s = execInitWrite c x y z s := rfl

theorem exec_updateWrite (c : Nat) (x y : Int) (s : State) : exec (.updateWrite c x y) s = execUpdateWrite c x y s := rfl

/-- Settles O15: each check of the admission in its order, then the two outcomes of the transfer. -/
theorem codeLoadResult : Obligations.CodeLoadResult := by
  intro s c prn hh
  rw [exec_codeLoad]
  refine ⟨fun hc => writeOp_refuse (admission_of_badChannel hh hc), fun hc => ?_⟩
  intro ch sent
  have admitted (idle : ch.seq.state = .idle) (h0 : 0 ≤ prn) (h1 : prn ≤ 31) :
      admission permitCodeLoad (codeLoadInDomain prn) c s = .admitted :=
    admission_eq_admitted.2 ⟨hh, hc, permitCodeLoad_iff.2 idle, codeLoadInDomain_iff.2 ⟨h0, h1⟩⟩
  refine ⟨fun busy => ?_, fun idle out => ?_, fun idle h0 h1 ok => ?_, fun idle h0 h1 lost => ?_⟩
  · exact writeOp_refuse (admission_of_seqViolation hh hc (mt permitCodeLoad_iff.1 busy))
  · exact writeOp_refuse
      (admission_of_rangeFault hh hc (permitCodeLoad_iff.2 idle) (mt codeLoadInDomain_iff.1 out))
  · exact writeOp_ok (admitted idle h0 h1) ok
  · exact writeOp_lost (admitted idle h0 h1) lost

/-- Settles O16: each check of the admission in its order, then the two outcomes of the transfer. -/
theorem initWriteResult : Obligations.InitWriteResult := by
  intro s c prn cp code hh
  rw [exec_initWrite]
  refine ⟨fun hc => writeOp_refuse (admission_of_badChannel hh hc), fun hc => ?_⟩
  intro ch permitted inDomain sent
  have admitted (hp : permitted) (hd : inDomain) :
      admission permitInitWrite (initInDomain s.cfg prn cp code) c s = .admitted :=
    admission_eq_admitted.2 ⟨hh, hc, permitInitWrite_iff_step.2 hp, initInDomain_iff.2 hd⟩
  refine ⟨fun hp => ?_, fun hp out => ?_, fun hp hd ok => ?_, fun hp hd lost => ?_⟩
  · exact writeOp_refuse (admission_of_seqViolation hh hc (mt permitInitWrite_iff_step.1 hp))
  · exact writeOp_refuse
      (admission_of_rangeFault hh hc (permitInitWrite_iff_step.2 hp) (mt initInDomain_iff.1 out))
  · exact writeOp_ok (admitted hp hd) ok
  · exact writeOp_lost (admitted hp hd) lost

/-- Settles O17: each check of the admission in its order; a success arms an `Idle` channel and ends the period's debt of
a started one, and a fault does the same to both. -/
theorem updateWriteResult : Obligations.UpdateWriteResult := by
  intro s c cf cr hh
  rw [exec_updateWrite]
  refine ⟨fun hc => writeOp_refuse (admission_of_badChannel hh hc), fun hc => ?_⟩
  intro ch arming period inDomain sent
  have admitted (hp : arming ∨ period) (hd : inDomain) :
      admission permitUpdateWrite (updateInDomain cf cr) c s = .admitted :=
    admission_eq_admitted.2 ⟨hh, hc, permitUpdateWrite_iff.2 hp, updateInDomain_iff.2 hd⟩
  refine ⟨fun ha hp => ?_, fun hp out => ?_, fun ha hd ok => ?_, fun hp hd ok => ?_, fun hp hd lost => ?_⟩
  · exact writeOp_refuse (admission_of_seqViolation hh hc (mt permitUpdateWrite_iff.1 (not_or.2 ⟨ha, hp⟩)))
  · exact writeOp_refuse
      (admission_of_rangeFault hh hc (permitUpdateWrite_iff.2 hp) (mt updateInDomain_iff.1 out))
  · refine (writeOp_ok (admitted (.inl ha) hd) ok).trans ?_
    rw [updateWritten_of_idle ha.1]
    rfl
  · have started : ch.seq.state ≠ .idle := by rw [hp.1]; decide
    refine (writeOp_ok (admitted (.inr hp) hd) ok).trans ?_
    rw [updateWritten_of_started started]
    rfl
  · exact writeOp_lost (admitted hp hd) lost

/-! ### A refusal changes nothing (R110, R169) -/

/-- The port shows that one of the checks before the transfer refused the operation. -/
def Port.IsRefusal (p : Port) : Prop :=
  p = .returned .badChannel ∨ p = .returned .seqViolation ∨ p = .returned .rangeFault

/-- An operation that is refused has only answered. -/
theorem OpStep.eq_answer_of_refusal {c : Nat} {s t : State} (h : OpStep c s t) (hp : t.port.IsRefusal) :
    ∃ r, t = s.answer r := by
  cases h with
  | refused r => exact ⟨r, rfl⟩
  | status => exact ⟨_, rfl⟩
  | transferred | faulted | hung => simp [Port.IsRefusal] at hp

/-- A pseudo-operation that shows a refusal is over: its part returned that refusal. -/
theorem afterPart_refused {o : Host.Outcome State Fault Refusal} {k : Value → State → State} {t : State}
    (h : afterPart o k = .next t) (hp : t.port.IsRefusal) (hk : ∀ v u, (k v u).port = u.port) :
    ∃ u, o = .next u ∧ u.port.IsRefusal ∧ t = u.continueAt .none := by
  obtain ⟨u, hu, ⟨v, hv, rfl⟩ | ⟨-, rfl⟩⟩ := afterPart_next h
  · rw [hk, hv] at hp
    simp [Port.IsRefusal] at hp
  · exact ⟨u, hu, hp, rfl⟩

/-- Everything an operation or pseudo-operation of a channel can do when it is refused: it answers, and a
pseudo-operation is over. -/
theorem exec_refused {i : Instr} {c : Nat} {s t : State} (hi : i.isEvent = false) (hc : i.channel = some c)
    (h : exec i s = .next t) (hp : t.port.IsRefusal) :
    ∃ r, t = s.answer r ∨ t = (s.answer r).continueAt .none := by
  have single (hi : IsPart i = true) : ∃ r, t = s.answer r ∨ t = (s.answer r).continueAt .none :=
    ((part_next hi hc h).eq_answer_of_refusal hp).imp fun _ => .inl
  cases i with
  | codeLoad | initWrite | updateWrite | corrRead | phaseRead | statusRead => exact single rfl
  | corrReadTx | phaseReadTx => cases hc
  | periodIrq | strobeFall | reset => cases hi
  | arm c prn =>
    obtain ⟨u, hu, hpu, rfl⟩ := afterPart_refused (o := execCodeLoad c prn s) h hp fun _ _ => rfl
    obtain ⟨r, rfl⟩ := (execCodeLoad_opStep hu).eq_answer_of_refusal hpu
    exact ⟨r, .inr rfl⟩
  | service c =>
    have keeps_port (v : Value) (u : State) (c' : Nat) (f r : Int) : (u.keepCorr c' f r v).port = u.port := by
      obtain ⟨k, hk⟩ := keepCorr_eq u c' f r v
      rw [hk, continueAt_port]
    obtain ⟨u, hu, hpu, rfl⟩ := afterPart_refused (o := execCorrRead c s) h hp fun v u => keeps_port v u _ _ _
    obtain ⟨r, rfl⟩ := (execCorrRead_opStep hu).eq_answer_of_refusal hpu
    exact ⟨r, .inr rfl⟩

/-- Settles O33: a refusal answers on the port, and ends a pseudo-operation. -/
theorem refusedOperationChangesNothing : Obligations.RefusedOperationChangesNothing := by
  intro i s t hi hc h hp
  obtain ⟨c, hc⟩ := Option.ne_none_iff_exists'.1 hc
  obtain ⟨r, rfl | rfl⟩ := exec_refused hi hc h hp
  · exact ⟨rfl, .inl rfl⟩
  · exact ⟨rfl, .inr rfl⟩

/-! ### Unpacking what was packed (R121) -/

/-- What is in the domain of INIT_WRITE fits its fields, whatever the width R6 gives the code phase. -/
theorem fits_of_initInDomain {cfg : Config} {prn cp code : Int} (hcfg : cfg.WidthsOk)
    (hd : initInDomain cfg prn cp code = true) :
    prnFits prn = true ∧ carrierPhaseFits cp = true ∧ codePhaseFits code = true := by
  obtain ⟨hprn, hcp, hcode0, hcode1⟩ := initInDomain_iff.1 hd
  have width : (2 : Int) ^ cfg.codePhaseInBits ≤ 2 ^ 14 := pow_le_pow_right₀ (by decide) hcfg.2.1
  exact ⟨decide_eq_true hprn, decide_eq_true hcp, decide_eq_true ⟨hcode0, by omega⟩⟩

/-- What is in the domain of UPDATE_WRITE fits its fields. -/
theorem fits_of_updateInDomain {cf cr : Int} (hd : updateInDomain cf cr = true) :
    carrierFreqFits cf = true ∧ codePhaseRateFits cr = true := by
  obtain ⟨hcf, hcr⟩ := updateInDomain_iff.1 hd
  exact ⟨decide_eq_true hcf, decide_eq_true hcr⟩

theorem unpackInit_packInit_of_inDomain {cfg : Config} {prn cp code : Int} (hcfg : cfg.WidthsOk)
    (hd : initInDomain cfg prn cp code = true) : unpackInit (packInit prn cp code) = ⟨prn, cp, code⟩ := by
  obtain ⟨hprn, hcp, hcode⟩ := fits_of_initInDomain hcfg hd
  exact unpackInit_packInit_of_fits hprn hcp hcode

theorem unpackUpdate_packUpdate_of_inDomain {cf cr : Int} (hd : updateInDomain cf cr = true) :
    unpackUpdate (packUpdate cf cr) = ⟨cf, cr⟩ := by
  obtain ⟨hcf, hcr⟩ := fits_of_updateInDomain hd
  exact unpackUpdate_packUpdate_of_fits hcf hcr

/-- Settles O3: the round trips on operands that fit their fields, so equal images have equal operands; the two examples
just outside by what unpacking makes of every packed image. -/
theorem unpackInvertsPackOnTheDomain : Obligations.UnpackInvertsPackOnTheDomain := by
  refine ⟨fun cfg prn cp code hcfg => unpackInit_packInit_of_inDomain hcfg,
    fun cf cr => unpackUpdate_packUpdate_of_inDomain, fun cfg a b c a' b' c' hcfg hd hd' he => ?_,
    fun a b a' b' hd hd' he => ?_, ?_, ?_⟩
  · have same := congrArg unpackInit he
    rw [unpackInit_packInit_of_inDomain hcfg hd, unpackInit_packInit_of_inDomain hcfg hd'] at same
    exact InitParameters.mk.inj same
  · have same := congrArg unpackUpdate he
    rw [unpackUpdate_packUpdate_of_inDomain hd, unpackUpdate_packUpdate_of_inDomain hd'] at same
    exact UpdateParameters.mk.inj same
  · rw [unpackInit_packInit]; decide
  · rw [unpackInit_packInit]; decide

/-! ### Packing what was unpacked (R122) -/

/-- An image is determined by its value (R7). -/
theorem imageValue_injective {n : Nat} {a b : Image n} (h : imageValue a.toList = imageValue b.toList) : a = b := by
  ext1 k hk
  exact BitVec.eq_of_toNat_eq (by rw [← bits_byte a hk, h, bits_byte b hk])

theorem twos_natCast {k v : Nat} (hv : v < 2 ^ k) : twos k (v : Int) = v := by
  zify
  rw [twos_cast, Int.emod_eq_of_lt (by positivity) (by exact_mod_cast hv)]

/-- `twos_k` is the inverse of `signed_k` on patterns of `k` bits (R9). -/
theorem twos_signed {k v : Nat} (hv : v < 2 ^ k) : twos k (signed k v) = v := by
  rw [signed]
  split
  · exact twos_natCast hv
  · rw [twos, Int.sub_emod_right]
    exact twos_natCast hv

/-- A value of 43 bits is its three INIT fields. -/
theorem init_fields_value {v : Nat} (hv : v < 2 ^ 43) :
    bits v 42 29 * 2 ^ 29 + bits v 28 5 * 2 ^ 5 + bits v 4 0 = v := by
  simp only [bits]; omega

/-- A value of 45 bits is its two UPDATE fields. -/
theorem update_fields_value {v : Nat} (hv : v < 2 ^ 45) : bits v 44 16 * 2 ^ 16 + bits v 15 0 = v := by
  simp only [bits]; omega

/-- The value of a six-byte image is bounded by its first byte. -/
theorem imageValue_six_lt (b : Image 6) : imageValue b.toList < (b[0].toNat + 1) * 2 ^ 40 := by
  have := b[1].isLt
  have := b[2].isLt
  have := b[3].isLt
  have := b[4].isLt
  have := b[5].isLt
  rw [imageValue_six]
  omega

/-- Packing undoes unpacking on every INIT image whose reserved bits are zero. -/
theorem packInit_unpackInit {b : InitImage} (reserved : initReservedZero b = true) :
    packInit (unpackInit b).prn (unpackInit b).carrierPhase (unpackInit b).codePhase = b := by
  have top : b[0].toNat < 8 := of_decide_eq_true reserved
  have hv : imageValue b.toList < 2 ^ 43 := by
    have := imageValue_six_lt b
    omega
  refine imageValue_injective ?_
  rw [imageValue_packInit]
  simp only [unpackInit]
  rw [twos_natCast (bits_lt _ 42 29), twos_signed (bits_lt _ 28 5), twos_natCast (bits_lt _ 4 0), init_fields_value hv]

/-- Packing undoes unpacking on every UPDATE image whose reserved bits are zero. -/
theorem packUpdate_unpackUpdate {b : UpdateImage} (reserved : updateReservedZero b = true) :
    packUpdate (unpackUpdate b).carrierFreq (unpackUpdate b).codePhaseRate = b := by
  have top : b[0].toNat < 32 := of_decide_eq_true reserved
  have hv : imageValue b.toList < 2 ^ 45 := by
    have := imageValue_six_lt b
    omega
  refine imageValue_injective ?_
  rw [imageValue_packUpdate]
  simp only [unpackUpdate]
  rw [twos_natCast (bits_lt _ 44 16), twos_signed (bits_lt _ 15 0), update_fields_value hv]

/-- Settles O4: every packed image has its reserved bits zero, so packing undoes unpacking on it. -/
theorem repackingGivesTheSameImage : Obligations.RepackingGivesTheSameImage :=
  ⟨fun a b c => packInit_unpackInit (packInit_reserved a b c),
    fun a b => packUpdate_unpackUpdate (packUpdate_reserved a b),
    fun _ => packInit_unpackInit, fun _ => packUpdate_unpackUpdate⟩

/-! ### Reserved bits on the bus (R123) -/

theorem packInit_reserved_mask (x y z : Int) : (packInit x y z)[0] &&& 0xF8 = 0 :=
  and_F8_of_lt (of_decide_eq_true (packInit_reserved x y z))

theorem packUpdate_reserved_mask (x y : Int) : (packUpdate x y)[0] &&& 0xE0 = 0 :=
  and_E0_of_lt (of_decide_eq_true (packUpdate_reserved x y))

/-- A write operation leaves the log alone or appends one record, which sent its bytes. -/
theorem writeOp_busLog {permit : Seq → Bool} {d : Bool} {c : Nat} {w : WindowName} {tx : List Byte}
    {onOk onLoss : Channel → Channel} {s t : State} (h : writeOp permit d c w tx onOk onLoss s = .next t) :
    t.busLog = s.busLog ∨ ∃ r, t.busLog = s.busLog ++ [r] ∧ r.tx = some tx := by
  rcases writeOp_next h with ⟨r, -, rfl⟩ | ⟨-, -, rfl⟩ | ⟨-, -, rfl⟩ | ⟨-, -, rfl⟩
  · exact .inl rfl
  all_goals exact .inr ⟨_, rfl, rfl⟩

/-- Settles O5: the packers leave the reserved bits zero, and their images are all that the two writes send. -/
theorem reservedBitsAreNeverSent : Obligations.ReservedBitsAreNeverSent := by
  refine ⟨packInit_reserved_mask, packUpdate_reserved_mask, fun s t c x y z h => ?_, fun s t c x y h => ?_⟩
  · rw [exec_initWrite] at h
    exact (writeOp_busLog h).imp_right fun ⟨r, hlog, htx⟩ =>
      ⟨r, packInit x y z, hlog, htx, packInit_reserved_mask x y z⟩
  · rw [exec_updateWrite] at h
    exact (writeOp_busLog h).imp_right fun ⟨r, hlog, htx⟩ =>
      ⟨r, packUpdate x y, hlog, htx, packUpdate_reserved_mask x y⟩

/-! ### The inverse functions in bytes (R119, R120) -/

/-- Disjoint bits: `|` of a shifted value and one below it is `+`. -/
theorem shiftLeft_or_of_lt {x y k : Nat} (hy : y < 2 ^ k) : x <<< k ||| y = x * 2 ^ k + y := by
  rw [← Nat.shiftLeft_add_eq_or_of_lt hy, Nat.shiftLeft_eq]

/-- PRN is the low five bits of the last byte. -/
theorem init_prn_bytes (b : InitImage) : bits (imageValue b.toList) 4 0 = b[5].toNat &&& 0x1F := by
  rw [imageValue_six, bits, Nat.and_two_pow_sub_one_eq_mod _ 5]
  omega

/-- CARR_PHASE stands in bytes 2 to 5. -/
theorem init_carrierPhase_bytes (b : InitImage) :
    bits (imageValue b.toList) 28 5 =
      (b[2].toNat &&& 0x1F) <<< 19 ||| b[3].toNat <<< 11 ||| b[4].toNat <<< 3 ||| b[5].toNat >>> 5 := by
  have h3 := b[3].isLt
  have h4 := b[4].isLt
  have h5 := b[5].isLt
  rw [Nat.and_two_pow_sub_one_eq_mod _ 5, Nat.shiftRight_eq_div_pow, Nat.or_assoc, Nat.or_assoc,
    shiftLeft_or_of_lt (k := 3) (by omega), shiftLeft_or_of_lt (k := 11) (by omega),
    shiftLeft_or_of_lt (k := 19) (by omega), imageValue_six, bits]
  omega

/-- CODE_PHASE stands in bytes 0 to 2. -/
theorem init_codePhase_bytes (b : InitImage) :
    bits (imageValue b.toList) 42 29 = (b[0].toNat &&& 0x07) <<< 11 ||| b[1].toNat <<< 3 ||| b[2].toNat >>> 5 := by
  have h1 := b[1].isLt
  have h2 := b[2].isLt
  have h3 := b[3].isLt
  have h4 := b[4].isLt
  have h5 := b[5].isLt
  rw [Nat.and_two_pow_sub_one_eq_mod _ 3, Nat.shiftRight_eq_div_pow, Nat.or_assoc,
    shiftLeft_or_of_lt (k := 3) (by omega), shiftLeft_or_of_lt (k := 11) (by omega), imageValue_six, bits]
  omega

/-- CARR_FREQ is the last two bytes. -/
theorem update_carrierFreq_bytes (b : UpdateImage) :
    bits (imageValue b.toList) 15 0 = b[4].toNat <<< 8 ||| b[5].toNat := by
  have h4 := b[4].isLt
  rw [shiftLeft_or_of_lt b[5].isLt, imageValue_six, bits]
  omega

/-- CODE_PHASE_RATE stands in the first four bytes. -/
theorem update_codePhaseRate_bytes (b : UpdateImage) :
    bits (imageValue b.toList) 44 16 =
      (b[0].toNat &&& 0x1F) <<< 24 ||| b[1].toNat <<< 16 ||| b[2].toNat <<< 8 ||| b[3].toNat := by
  have h1 := b[1].isLt
  have h2 := b[2].isLt
  have h3 := b[3].isLt
  have h4 := b[4].isLt
  have h5 := b[5].isLt
  rw [Nat.and_two_pow_sub_one_eq_mod _ 5, Nat.or_assoc, Nat.or_assoc,
    shiftLeft_or_of_lt (k := 8) h3, shiftLeft_or_of_lt (k := 16) (by omega),
    shiftLeft_or_of_lt (k := 24) (by omega), imageValue_six, bits]
  omega

/-- Settles O6: the inverse functions read image bits, and each field's bits are its byte formula. -/
theorem unpackersByteByByte : Obligations.UnpackersByteByByte :=
  ⟨fun b => ⟨rfl, congrArg Nat.cast (init_prn_bytes b), congrArg (signed 24) (init_carrierPhase_bytes b),
      congrArg Nat.cast (init_codePhase_bytes b)⟩,
    fun b => ⟨rfl, congrArg (signed 16) (update_carrierFreq_bytes b),
      congrArg Nat.cast (update_codePhaseRate_bytes b)⟩⟩

end Sys2Proof.Machine
end

section
/-! Family `41_read_ops.md`, statements O8, O18, O19 and O20: the sign extension of the tap fields, and what the read
operations do. -/

namespace Sys2Proof.Machine

/-! ### Sign extension (R9, R141) -/

/-- `signed_k` is the value of a `k`-bit word in two's complement. -/
theorem signed_eq_toInt {k v : Nat} (hk : 0 < k) (hv : v < 2 ^ k) : signed k v = (BitVec.ofNat k v).toInt := by
  have hpow : 2 ^ k = 2 * 2 ^ (k - 1) := by rw [← pow_succ', Nat.sub_add_cancel hk]
  have sign : v < 2 ^ (k - 1) ↔ 2 * v < 2 ^ k := by omega
  rw [signed, BitVec.toInt_eq_toNat_cond, BitVec.toNat_ofNat, Nat.mod_eq_of_lt hv]
  simp only [sign, Nat.cast_pow, Nat.cast_ofNat]

/-- `sext_n` of a `k`-bit pattern is the sign extension of the `k`-bit word. -/
theorem sext_eq_signExtend {n k v : Nat} (hk : 0 < k) (hv : v < 2 ^ k) :
    sext n k v = (BitVec.ofNat k v).signExtend n := by
  rw [sext, signed_eq_toInt hk hv, BitVec.signExtend]

/-- A pattern extended to a width that holds it keeps its value. -/
theorem toInt_sext {n k v : Nat} (hk : 0 < k) (hn : k ≤ n) (hv : v < 2 ^ k) : (sext n k v).toInt = signed k v := by
  rw [sext_eq_signExtend hk hv, BitVec.toInt_signExtend_of_le hn, signed_eq_toInt hk hv]

/-- The sign bit of a pattern is repeated in every higher bit of its extension. -/
theorem getLsbD_sext {n k v i : Nat} (hk : 0 < k) (hi : i < n) (hv : v < 2 ^ k) :
    (sext n k v).getLsbD i = v.testBit (min i (k - 1)) := by
  rw [sext_eq_signExtend hk hv, BitVec.getLsbD_signExtend, decide_eq_true hi, Bool.true_and]
  split
  case isTrue inside => rw [BitVec.getLsbD_ofNat, decide_eq_true inside, Bool.true_and, min_eq_left (by omega)]
  case isFalse above =>
    rw [BitVec.msb_eq_getLsbD_last, BitVec.getLsbD_ofNat, decide_eq_true (by omega), Bool.true_and,
      min_eq_right (by omega)]

/-- A port of width `w` shows a signed field as its sign extension (R147). -/
theorem portPattern_signed (w k v : Nat) : portPattern w (signed k v) = sext w k v := rfl

/-- Settles O8: a tap field is a 24-bit word in two's complement, and the lanes are the fields of the CORR image. -/
theorem tapFieldsAreSignExtended : Obligations.TapFieldsAreSignExtended := by
  refine ⟨fun v hv => ⟨rfl, ?_⟩, by decide, fun b => ⟨?_, fun h0 h1 => ?_⟩,
    fun cfg v hw hv => ⟨?_, fun i hi => ?_⟩, fun cfg b _ => ?_⟩
  · rw [signed_eq_toInt (by decide) hv]
    exact ⟨BitVec.le_toInt _, Int.le_of_lt_add_one BitVec.toInt_lt⟩
  · rw [unpackCorr_sampleCount]
    exact bits_lt _ 159 144
  · simp only [unpackCorr, h0, h1]
    rfl
  · exact toInt_sext (by decide) hw hv
  · exact getLsbD_sext (by decide) hi hv
  · obtain ⟨-, lateQ, lateI, promptQ, promptI, earlyQ, earlyI, -⟩ := corrImageLayout b
    simp only [portLanes, lateQ, lateI, promptQ, promptI, earlyQ, earlyI, List.map_cons, List.map_nil,
      portPattern_signed]

/-! ### CORR_READ and PHASE_READ (R142, R144) -/

theorem permitCorrRead_iff {q : Seq} : permitCorrRead q = true ↔ q.state = .tracking := decide_eq_true_iff

theorem permitPhaseRead_iff {q : Seq} : permitPhaseRead q = true ↔ q.state = .tracking := decide_eq_true_iff

theorem exec_corrRead (c : Nat) (s : State) : exec (.corrRead c) s = execCorrRead c s := rfl

theorem exec_phaseRead (c : Nat) (s : State) : exec (.phaseRead c) s = execPhaseRead c s := rfl

/-- An admitted read operation of an `undef` window: some bytes are drawn, and the record and the result agree on them
(R41, R59). -/
theorem readOp_undef {n : Nat} {permit : Seq → Bool} {c : Nat} {w : WindowName} {tx : List Byte}
    {window : Channel → Content n} {unpack : Image n → Value} {s : State}
    (h : admission permit true c s = .admitted) (hw : window (s.chan c) = .undef) (ho : s.nextOutcome = .ok) :
    ∃ (b : Image n) (m : Nat), readOp permit c w tx window unpack s = .next
      { (s.logTransfer (readRecord s c w tx (some b.toList) .ok)).answer (.ok (unpack b)) with fresh := m } := by
  refine ⟨receivedBytes s .undef, s.fresh + 1, ?_⟩
  rw [readOp_complete h ho, hw]
  rfl

/-- What a read operation does in a block that is not stuck, where its admission asks for `permitted`: each check in its
order, then the two outcomes of the transfer in which the operation returns. -/
theorem readOp_result {n : Nat} {permit : Seq → Bool} {c : Nat} {w : WindowName} {tx : List Byte}
    {window : Channel → Content n} {unpack : Image n → Value} {s : State} {permitted : Prop} (hh : s.hung = false)
    (hp : permit (s.chan c).seq = true ↔ permitted) :
    (s.N ≤ c → readOp permit c w tx window unpack s = .next (s.answer .badChannel)) ∧
    (c < s.N →
      (¬ permitted → readOp permit c w tx window unpack s = .next (s.answer .seqViolation)) ∧
      (∀ b, permitted → window (s.chan c) = .image b → s.nextOutcome = .ok →
        readOp permit c w tx window unpack s =
          .next ((s.logTransfer (readRecord s c w tx (some b.toList) .ok)).answer (.ok (unpack b)))) ∧
      (permitted → window (s.chan c) = .undef → s.nextOutcome = .ok →
        ∃ (b : Image n) (m : Nat), readOp permit c w tx window unpack s = .next
          { (s.logTransfer (readRecord s c w tx (some b.toList) .ok)).answer (.ok (unpack b)) with fresh := m }) ∧
      (permitted → s.nextOutcome = .fault →
        readOp permit c w tx window unpack s =
          .next ((s.logTransfer (readRecord s c w tx none .fault)).answer .transportFault))) := by
  refine ⟨fun hc => readOp_refuse (admission_of_badChannel hh hc), fun hc => ?_⟩
  have admitted (h : permitted) : admission permit true c s = .admitted :=
    admission_eq_admitted.2 ⟨hh, hc, hp.2 h, rfl⟩
  exact ⟨fun h => readOp_refuse (admission_of_seqViolation hh hc (mt hp.1 h)),
    fun _ h hw ok => readOp_ok (admitted h) hw ok, fun h hw ok => readOp_undef (admitted h) hw ok,
    fun h lost => readOp_lost (admitted h) lost⟩

/-- Settles O18: CORR_READ is the read operation of the CORR window, admitted in `Tracking`. -/
theorem corrReadResult : Obligations.CorrReadResult := by
  intro s c hh
  rw [exec_corrRead]
  exact readOp_result hh permitCorrRead_iff

/-- Settles O19: PHASE_READ is the read operation of the PHASE window, admitted in `Tracking`. -/
theorem phaseReadResult : Obligations.PhaseReadResult := by
  intro s c hh
  rw [exec_phaseRead]
  exact readOp_result hh permitPhaseRead_iff

/-! ### STATUS_READ (R146) -/

theorem exec_statusRead (c : Nat) (s : State) : exec (.statusRead c) s = execStatusRead c s := rfl

theorem execStatusRead_refuse {c : Nat} {s : State} {r : Return}
    (h : admission permitStatusRead true c s = .refuse r) : execStatusRead c s = .next (s.answer r) := by
  simp only [execStatusRead, h]

theorem execStatusRead_admitted {c : Nat} {s : State} (h : admission permitStatusRead true c s = .admitted) :
    execStatusRead c s = .next (s.answer (.ok (.status (s.chan c).err))) := by
  simp only [execStatusRead, h]

/-- Settles O20: every sequencer state permits STATUS_READ, so only the channel check and a stuck block stop it. -/
theorem statusReadResult : Obligations.StatusReadResult := by
  intro s c
  rw [exec_statusRead]
  exact ⟨fun hh hc => execStatusRead_admitted (admission_eq_admitted.2 ⟨hh, hc, rfl, rfl⟩),
    fun hh hc => execStatusRead_refuse (admission_of_badChannel hh hc), execStatusRead_of_hung⟩

end Sys2Proof.Machine
end

section
/-! Family `42_sequencer.md`, statements O22, O23, O31, O45, O46, O50 to O52 and O54 to O56: the admission table, the
two engine events, and what runs keep of a channel's sequencer record, flags and latch log. -/

namespace Sys2Proof

/-! ### Which instructions are no strobe fall -/

theorem Instr.not_strobe_of_op {i : Instr} (op : i.isEvent = false) (c : Nat) : i.isStrobeOf c = false :=
  Bool.eq_false_iff.2 fun h => by simp [(Instr.isStrobeOf_event h).1] at op

theorem Instr.not_strobe_of_other {i : Instr} {c : Nat} (other : i.channel ≠ some c) : i.isStrobeOf c = false :=
  Bool.eq_false_iff.2 fun h => other (Instr.isStrobeOf_event h).2

theorem Instr.not_period_of_strobe {i : Instr} {c : Nat} (strobe : i.isStrobeOf c = true) : i.isPeriodOf c = false := by
  cases i with
  | periodIrq => cases strobe
  | _ => rfl

end Sys2Proof

namespace Sys2Proof.Machine

/-! ### The admission table (R161) -/

/-- What the sequencer permits is refused, if at all, for another reason. -/
theorem refuse_ne_seqViolation {permit : Seq → Bool} {d : Bool} {c : Nat} {s : State} {r : Return}
    (h : admission permit d c s = .refuse r) (hp : permit (s.chan c).seq = true) : r ≠ .seqViolation := by
  rcases (admission_eq_refuse.1 h).2 with ⟨-, rfl⟩ | ⟨-, not_permitted, -⟩ | ⟨-, -, -, rfl⟩
  · decide
  · simp [hp] at not_permitted
  · decide

/-- The outcome of an operation in `s` is SEQ_VIOLATION with nothing else changed exactly where `permitted` fails. -/
structure AdmittedIff (permitted : Prop) (s : State) (o : Host.Outcome State Fault Refusal) : Prop where
  admitted : permitted → ∃ t, o = .next t ∧ t.port ≠ .returned .seqViolation
  refused : ¬ permitted → o = .next (s.answer .seqViolation)

theorem writeOp_admittedIff {permit : Seq → Bool} {d : Bool} {c : Nat} {w : WindowName} {tx : List Byte}
    {onOk onLoss : Channel → Channel} {s : State} {permitted : Prop} (hh : s.hung = false) (hc : c < s.N)
    (hp : permit (s.chan c).seq = true ↔ permitted) :
    AdmittedIff permitted s (writeOp permit d c w tx onOk onLoss s) where
  admitted h := by
    obtain ⟨t, ht⟩ := writeOp_has_step hh
    refine ⟨t, ht, ?_⟩
    rcases writeOp_next ht with ⟨r, ha, rfl⟩ | ⟨-, -, rfl⟩ | ⟨-, -, rfl⟩ | ⟨-, -, rfl⟩
    · simpa using refuse_ne_seqViolation ha (hp.2 h)
    all_goals simp
  refused h := writeOp_refuse (admission_of_seqViolation hh hc (mt hp.1 h))

theorem readOp_admittedIff {n : Nat} {permit : Seq → Bool} {c : Nat} {w : WindowName} {tx : List Byte}
    {window : Channel → Content n} {unpack : Image n → Value} {s : State} {permitted : Prop} (hh : s.hung = false)
    (hc : c < s.N) (hp : permit (s.chan c).seq = true ↔ permitted) :
    AdmittedIff permitted s (readOp permit c w tx window unpack s) where
  admitted h := by
    obtain ⟨t, ht⟩ := readOp_has_step hh
    refine ⟨t, ht, ?_⟩
    rcases readOp_next ht with ⟨r, ha, rfl⟩ | ⟨-, -, rfl⟩ | ⟨-, -, rfl⟩ | ⟨-, -, rfl⟩
    · simpa using refuse_ne_seqViolation ha (hp.2 h)
    all_goals simp
  refused h := readOp_refuse (admission_of_seqViolation hh hc (mt hp.1 h))

/-- Settles O31: the row of each operation says where its admission fails, and each cell decides that. -/
theorem admissionTable : Obligations.AdmissionTable := by
  intro s c hh hc q no ok
  have load (prn : Int) : AdmittedIff (q.state = .idle) s (exec (.codeLoad c prn) s) :=
    exec_codeLoad c prn s ▸ writeOp_admittedIff hh hc permitCodeLoad_iff
  have init (x y z : Int) : AdmittedIff (q.state = .idle ∧ q.armStep ≠ .zero) s (exec (.initWrite c x y z) s) :=
    exec_initWrite c x y z s ▸ writeOp_admittedIff hh hc permitInitWrite_iff
  have update (x y : Int) :
      AdmittedIff ((q.state = .idle ∧ q.armStep = .two) ∨ (q.state = .tracking ∧ q.updDone = false)) s
        (exec (.updateWrite c x y) s) :=
    exec_updateWrite c x y s ▸ writeOp_admittedIff hh hc permitUpdateWrite_iff
  have corr : AdmittedIff (q.state = .tracking) s (exec (.corrRead c) s) :=
    exec_corrRead c s ▸ readOp_admittedIff hh hc permitCorrRead_iff
  have phase : AdmittedIff (q.state = .tracking) s (exec (.phaseRead c) s) :=
    exec_phaseRead c s ▸ readOp_admittedIff hh hc permitPhaseRead_iff
  refine ⟨fun prn => ⟨(load prn).admitted, fun armed => ?_, fun tracking => ?_⟩,
    fun x y z => ⟨fun idle step => ?_, fun idle step => ?_, fun idle step => ?_, fun armed => ?_, fun tracking => ?_⟩,
    fun x y => ⟨fun idle step => ?_, fun idle step => ?_, fun idle step => ?_, fun armed => ?_, fun tracking owed => ?_,
      fun tracking done => ?_⟩,
    ⟨fun idle => ?_, fun armed => ?_, corr.admitted⟩, ⟨fun idle => ?_, fun armed => ?_, phase.admitted⟩, ?_⟩
  · exact (load prn).refused (by simp [armed])
  · exact (load prn).refused (by simp [tracking])
  · exact (init x y z).refused (by simp [step])
  · exact (init x y z).admitted ⟨idle, by simp [step]⟩
  · exact (init x y z).admitted ⟨idle, by simp [step]⟩
  · exact (init x y z).refused (by simp [armed])
  · exact (init x y z).refused (by simp [tracking])
  · exact (update x y).refused (by simp [idle, step])
  · exact (update x y).refused (by simp [idle, step])
  · exact (update x y).admitted (.inl ⟨idle, step⟩)
  · exact (update x y).refused (by simp [armed])
  · exact (update x y).admitted (.inr ⟨tracking, owed⟩)
  · exact (update x y).refused (by simp [tracking, done])
  · exact corr.refused (by simp [idle])
  · exact corr.refused (by simp [armed])
  · exact phase.refused (by simp [idle])
  · exact phase.refused (by simp [armed])
  · exact ⟨_, execStatusRead_admitted (admission_eq_admitted.2 ⟨hh, hc, rfl, rfl⟩), by simp⟩

/-! ### The sequencer record of a channel that needs no write (R161, R166) -/

/-- No write is admitted: the channel is armed, or tracks with the period's UPDATE done. -/
def Seq.Served (q : Seq) : Prop := q.state = .armed ∨ (q.state = .tracking ∧ q.updDone = true)

theorem Seq.Served.started {q : Seq} (hq : q.Served) : q.state ≠ .idle := by
  rcases hq with armed | ⟨tracking, -⟩
  · simp [armed]
  · simp [tracking]

theorem Seq.Served.not_permitUpdateWrite {q : Seq} (hq : q.Served) : ¬ permitUpdateWrite q = true := by
  rw [permitUpdateWrite_iff]
  rcases hq with armed | ⟨tracking, done⟩
  · simp [armed]
  · simp [tracking, done]

/-- An operation leaves a channel that needs no write as it is. -/
theorem OpChan.eq_of_served {ch ch' : Channel} (h : OpChan ch ch') (hq : ch.seq.Served) : ch' = ch := by
  cases h with
  | same => rfl
  | codeLoaded _ hp | codeLost hp => exact absurd (permitCodeLoad_iff.1 hp) hq.started
  | initWritten _ _ _ hp | initLost hp => exact absurd (permitInitWrite_iff.1 hp).1 hq.started
  | updateWritten _ _ hp | updateLost hp => exact absurd hp hq.not_permitUpdateWrite

/-- No operation leads into `Tracking` or out of it. -/
theorem OpChan.tracking_iff {ch ch' : Channel} (h : OpChan ch ch') :
    ch'.seq.state = .tracking ↔ ch.seq.state = .tracking := by
  cases h with
  | same | codeLoaded | codeLost | initWritten | initLost | updateLost => rfl
  | updateWritten x y hp =>
    by_cases idle : ch.seq.state = .idle
    · simp [updateWritten_of_idle idle, idle]
    · simp [updateWritten_of_started idle]

/-! ### The two engine events on their channel (R163, R164) -/

theorem periodEnded_of_idle {ch : Channel} (idle : ch.seq.state = .idle) (corr : CorrImage) (phase : PhaseImage)
    (d : Bool) : ch.periodEnded corr phase d = ch := by
  simp [Channel.periodEnded, idle]

/-- The end of a period outside `Idle` opens a new one, and in `Tracking` settles `ERR`. -/
theorem periodEnded_of_started {ch : Channel} (started : ch.seq.state ≠ .idle) (corr : CorrImage) (phase : PhaseImage)
    (d : Bool) : ch.periodEnded corr phase d =
      { ch.newPeriod corr phase with err := if ch.seq.state = .tracking then errAfterPeriod ch d else ch.err } := by
  cases hq : ch.seq.state with
  | idle => exact absurd hq started
  | armed | tracking => simp [Channel.periodEnded, Channel.newPeriod, hq]

/-- The end of the first period, and of one whose UPDATE is done, leaves `ERR` alone. -/
theorem periodEnded_err_of_served {ch : Channel} (hq : ch.seq.Served) (corr : CorrImage) (phase : PhaseImage)
    (d : Bool) : (ch.periodEnded corr phase d).err = ch.err := by
  rw [periodEnded_err]
  rcases hq with armed | ⟨tracking, done⟩
  · simp [armed]
  · simp [errAfterPeriod, done]

theorem strobed_of_idle {ch : Channel} (idle : ch.seq.state = .idle) :
    ch.strobed = { ch with stale := ch.stale || ch.seq.armStep != .zero } := by
  simp [Channel.strobed, staleAfterStrobe, latchAfterStrobe, idle]

theorem strobed_of_armed {ch : Channel} (armed : ch.seq.state = .armed) :
    ch.strobed = { ch with
      latch := ch.latch ++ [{ state := .armed, init := ch.init, update := ch.update, updDone := true }] } := by
  simp [Channel.strobed, staleAfterStrobe, latchAfterStrobe, armed]

theorem strobed_of_tracking {ch : Channel} (tracking : ch.seq.state = .tracking) :
    ch.strobed = { ch with
      stale := ch.stale || !ch.seq.updDone
      latch := ch.latch ++
        [{ state := .tracking, init := ch.init, update := ch.update, updDone := ch.seq.updDone }] } := by
  simp [Channel.strobed, staleAfterStrobe, latchAfterStrobe, tracking]

/-- A strobe fall only adds to the latch log. -/
theorem latch_prefix_strobed (ch : Channel) : ch.latch <+: ch.strobed.latch := by
  cases hq : ch.seq.state with
  | idle => rw [strobed_of_idle hq]
  | armed => rw [strobed_of_armed hq]; exact List.prefix_append ..
  | tracking => rw [strobed_of_tracking hq]; exact List.prefix_append ..

/-- What the end of a period leaves alone of its channel. -/
theorem periodEnded_kept (ch : Channel) (corr : CorrImage) (phase : PhaseImage) (d : Bool) :
    (ch.periodEnded corr phase d).init = ch.init ∧ (ch.periodEnded corr phase d).update = ch.update ∧
    (ch.periodEnded corr phase d).code = ch.code ∧ (ch.periodEnded corr phase d).stale = ch.stale ∧
    (ch.periodEnded corr phase d).latch = ch.latch ∧
    (ch.periodEnded corr phase d).seq.armStep = ch.seq.armStep := by
  by_cases idle : ch.seq.state = .idle
  · rw [periodEnded_of_idle idle]; exact ⟨rfl, rfl, rfl, rfl, rfl, rfl⟩
  · rw [periodEnded_of_started idle]; exact ⟨rfl, rfl, rfl, rfl, rfl, rfl⟩

theorem execPeriodIrq_chan {c : Nat} {corr : CorrImage} {phase : PhaseImage} {s t : State}
    (h : exec (.periodIrq c corr phase) s = .next t) : t.chan c = (s.chan c).periodEnded corr phase s.errDraw := by
  obtain ⟨hc, rfl⟩ := execPeriodIrq_next h
  rw [setChan_chan_same]
  split <;> simpa [State.N] using hc

theorem execStrobeFall_chan {c : Nat} {s t : State} (h : exec (.strobeFall c) s = .next t) :
    t.chan c = (s.chan c).strobed := by
  obtain ⟨hc, rfl⟩ := execStrobeFall_next h
  exact setChan_chan_same s hc _

/-! ### The effect of the engine events (R163, R164) -/

theorem exec_periodIrq (c : Nat) (corr : CorrImage) (phase : PhaseImage) (s : State) :
    exec (.periodIrq c corr phase) s = execPeriodIrq c corr phase s := rfl

theorem exec_strobeFall (c : Nat) (s : State) : exec (.strobeFall c) s = execStrobeFall c s := rfl

/-- A period's end that takes no draw changes its channel only. -/
theorem execPeriodIrq_of_no_draw {s : State} {c : Nat} (hc : c < s.N) (hn : needsErrDraw (s.chan c) = false)
    (corr : CorrImage) (phase : PhaseImage) :
    execPeriodIrq c corr phase s = .next (s.setChan c ((s.chan c).periodEnded corr phase s.errDraw)) := by
  simp [execPeriodIrq_of_lt hc, hn]

/-- Taking the draw moves the script or the counter of free values. -/
theorem useErrDraw_eq (s : State) :
    s.useErrDraw = { s with errDraws := s.useErrDraw.errDraws, fresh := s.useErrDraw.fresh } := by
  unfold State.useErrDraw
  split <;> rfl

/-- Settles O22: the end of a period by the state of the sequencer; only a period with a faulted UPDATE takes a draw. -/
theorem periodIrqEffect : Obligations.PeriodIrqEffect := by
  intro s c corr phase hc ch after
  rw [exec_periodIrq]
  have ended (err d : Bool) (started : ch.seq.state ≠ .idle)
      (herr : (if ch.seq.state = .tracking then errAfterPeriod ch d else ch.err) = err) :
      ch.periodEnded corr phase d = after err := by
    rw [periodEnded_of_started started, herr]; rfl
  have no_draw (err : Bool) (started : ch.seq.state ≠ .idle) (hn : needsErrDraw ch = false)
      (herr : (if ch.seq.state = .tracking then errAfterPeriod ch s.errDraw else ch.err) = err) :
      execPeriodIrq c corr phase s = .next { s with channels := s.channels.set c (after err) } := by
    rw [execPeriodIrq_of_no_draw hc hn, ended err _ started herr]; rfl
  refine ⟨fun idle => ?_, fun armed => ?_, fun tracking done => ?_, fun tracking owed known => ?_,
    fun tracking owed unknown => ?_⟩
  · rw [execPeriodIrq_of_no_draw hc (by simp [needsErrDraw, ch, idle]), periodEnded_of_idle idle, setChan_chan_self hc]
  · exact no_draw _ (by simp [armed]) (by simp [needsErrDraw, armed]) (by simp [armed])
  · exact no_draw _ (by simp [tracking]) (by simp [needsErrDraw, done]) (by simp [errAfterPeriod, done])
  · exact no_draw _ (by simp [tracking]) (by simp [needsErrDraw, known])
      (by simp [errAfterPeriod, tracking, owed, known])
  · refine ⟨s.errDraw, s.useErrDraw.errDraws, s.useErrDraw.fresh, ?_, fun b bs scripted => ?_⟩
    · have drawn : needsErrDraw (s.chan c) = true := by simp [needsErrDraw, ch, tracking, owed, unknown]
      rw [execPeriodIrq_of_lt hc, if_pos drawn,
        ended (ch.err || s.errDraw) _ (by simp [tracking]) (by simp [errAfterPeriod, tracking, owed, unknown]),
        useErrDraw_eq]
      rfl
    · rw [errDraw_cons s scripted, useErrDraw_cons s scripted]
      exact ⟨rfl, rfl⟩

/-- Settles O23: what a strobe fall sets and latches in each state of the sequencer. -/
theorem strobeFallEffect : Obligations.StrobeFallEffect := by
  intro s c hc ch latched
  rw [exec_strobeFall, execStrobeFall_of_lt hc]
  refine ⟨fun idle step => ?_, fun idle step => ?_, fun armed => ?_, fun tracking done => ?_, fun tracking owed => ?_⟩
  · have same : ch.strobed = ch := by simp [strobed_of_idle idle, step]
    rw [same, setChan_chan_self hc]
  · have stale : ch.strobed = { ch with stale := true } := by simp [strobed_of_idle idle, step]
    rw [stale]; rfl
  · have latch : ch.strobed = { ch with latch := latched true } := by simp [strobed_of_armed armed, latched, armed]
    rw [latch]; rfl
  · have latch : ch.strobed = { ch with latch := latched true } := by
      simp [strobed_of_tracking tracking, latched, tracking, done]
    rw [latch]; rfl
  · have late : ch.strobed = { ch with stale := true, latch := latched false } := by
      simp [strobed_of_tracking tracking, latched, tracking, owed]
    rw [late]; rfl

/-! ### Every instruction on a channel -/

/-- Of a channel that needs no write, nothing but its strobe falls, the end of its period and RESET changes anything. -/
theorem exec_chan_of_served {i : Instr} {c : Nat} {s t : State} (h : exec i s = .next t) (hr : i ≠ .reset)
    (hp : i.isPeriodOf c = false) (hq : (s.chan c).seq.Served) :
    (i.isStrobeOf c = false ∧ t.chan c = s.chan c) ∨ (i.isStrobeOf c = true ∧ t.chan c = (s.chan c).strobed) := by
  rcases exec_chan h c with ⟨reset, -⟩ | ⟨-, op, hop⟩ | ⟨corr, phase, rfl, -⟩ | ⟨rfl, e⟩ | ⟨other, -, e⟩
  · exact absurd reset hr
  · exact .inl ⟨Instr.not_strobe_of_op op c, hop.eq_of_served hq⟩
  · simp [Instr.isPeriodOf] at hp
  · exact .inr ⟨by simp [Instr.isStrobeOf], e⟩
  · exact .inl ⟨Instr.not_strobe_of_other other, e⟩

/-- Nothing but RESET takes an entry out of a latch log. -/
theorem exec_latch_grows {i : Instr} {s t : State} (hr : i ≠ .reset) (h : exec i s = .next t) (c : Nat) :
    (s.chan c).latch <+: (t.chan c).latch := by
  rcases exec_chan h c with ⟨reset, -⟩ | ⟨-, -, hop⟩ | ⟨corr, phase, -, e⟩ | ⟨-, e⟩ | ⟨-, -, e⟩
  · exact absurd reset hr
  · obtain ⟨-, -, -, -, latch⟩ := hop.kept
    rw [latch]
  · obtain ⟨-, -, -, -, latch, -⟩ := periodEnded_kept (s.chan c) corr phase s.errDraw
    rw [e, latch]
  · rw [e]; exact latch_prefix_strobed _
  · rw [e]

/-- Every instruction keeps the invariant of each channel by itself. -/
theorem exec_keeps_chanInv {i : Instr} {c : Nat} {s t : State} (h : exec i s = .next t) (hi : (s.chan c).Inv) :
    (t.chan c).Inv := by
  rcases exec_chan h c with ⟨-, e⟩ | ⟨-, -, hop⟩ | ⟨corr, phase, -, e⟩ | ⟨-, e⟩ | ⟨-, -, e⟩
  · rw [e]; exact reset_inv
  · exact hop.keeps_inv hi
  · rw [e]; exact hi.periodEnded corr phase s.errDraw
  · rw [e]; exact hi.strobed
  · rw [e]; exact hi

/-! ### No way back (R166) -/

/-- Settles O45: an operation neither leaves `Tracking` nor touches an armed channel, and the end of a period leads into
`Tracking` from both. -/
theorem onlyResetReturnsToIdle : Obligations.OnlyResetReturnsToIdle := by
  refine ⟨fun i s t c hr h => ?_, fun s t c h => ?_⟩
  · rcases exec_chan h c with ⟨reset, -⟩ | ⟨-, -, hop⟩ | ⟨corr, phase, rfl, e⟩ | ⟨-, e⟩ | ⟨-, -, e⟩
    · exact absurd reset hr
    · exact ⟨hop.tracking_iff.2, fun armed => .inl (by rwa [hop.eq_of_served (.inl armed)])⟩
    · have ended (started : (s.chan c).seq.state ≠ .idle) : (t.chan c).seq.state = .tracking := by
        rw [e, periodEnded_of_started started]; rfl
      exact ⟨fun tracking => ended (by simp [tracking]),
        fun armed => .inr ⟨ended (by simp [armed]), by simp [Instr.isPeriodOf]⟩⟩
    · rw [e]; exact ⟨id, .inl⟩
    · rw [e]; exact ⟨id, .inl⟩
  · cases h
    rw [reset_chan]; rfl

/-! ### Other channels (R170) -/

/-- Settles O46: an instruction changes no channel but its own, and RESET has none. -/
theorem otherChannelsAreUntouched : Obligations.OtherChannelsAreUntouched := by
  intro i s t c c' hi hne h
  have other : i.channel ≠ some c' := fun hi' => hne (Option.some.inj (hi'.symm.trans hi))
  rcases exec_chan h c' with ⟨rfl, -⟩ | ⟨hi', -⟩ | ⟨_, _, rfl, -⟩ | ⟨rfl, -⟩ | ⟨-, -, e⟩
  · cases hi
  · exact absurd hi' other
  · exact absurd rfl other
  · exact absurd rfl other
  · exact e

/-! ### The frame of the engine events -/

/-- What an engine event of channel `c` leaves alone outside it: a part of `Obligations.EventsTouchTheirChannelOnly`. -/
def EventFrame (c : Nat) (s t : State) : Prop :=
  (∀ c', c' ≠ c → t.chan c' = s.chan c') ∧ t.N = s.N ∧ t.cfg = s.cfg ∧ t.hung = s.hung ∧ t.busLog = s.busLog ∧
  t.port = s.port ∧ t.cont = s.cont ∧ t.agenda = s.agenda ∧ t.outcomes = s.outcomes

theorem eventFrame_setChan (s : State) (c : Nat) (ch : Channel) : EventFrame c s (s.setChan c ch) :=
  ⟨fun _ hne => setChan_chan_ne s hne ch, setChan_N s c ch, rfl, rfl, rfl, rfl, rfl, rfl, rfl⟩

/-- A draw touches nothing of the frame. -/
theorem EventFrame.of_draw {c : Nat} {s t : State} (h : EventFrame c s.useErrDraw t) : EventFrame c s t := by
  simpa [EventFrame, State.N] using h

/-- Settles O50: an engine event replaces its channel, and PERIOD_IRQ may take a draw. -/
theorem eventsTouchTheirChannelOnly : Obligations.EventsTouchTheirChannelOnly := by
  intro i s t c h outside
  refine ⟨?_, ?_⟩
  · rintro corr phase rfl
    have frame : EventFrame c s t := by
      obtain ⟨-, rfl⟩ := execPeriodIrq_next h
      split
      · exact (eventFrame_setChan _ c _).of_draw
      · exact eventFrame_setChan _ c _
    refine ⟨frame, ?_⟩
    rw [execPeriodIrq_chan h]
    exact periodEnded_kept _ corr phase _
  · rintro rfl
    have hch := execStrobeFall_chan h
    obtain ⟨-, rfl⟩ := execStrobeFall_next h
    refine ⟨eventFrame_setChan s c _, rfl, rfl, ?_⟩
    rw [hch]
    exact ⟨rfl, rfl, rfl, rfl, rfl, rfl, rfl⟩

/-! ### The two deadlines (R165) -/

theorem strobeFall_runs {s : State} {c : Nat} (hc : c < s.N) :
    ∃ t, exec (.strobeFall c) s = .next t ∧ t.chan c = (s.chan c).strobed ∧ EventFrame c s t :=
  ⟨_, execStrobeFall_of_lt hc, setChan_chan_same s hc _, eventFrame_setChan s c _⟩

theorem periodIrq_runs {s : State} {c : Nat} (hc : c < s.N) (corr : CorrImage) (phase : PhaseImage) :
    ∃ t, exec (.periodIrq c corr phase) s = .next t ∧ t.chan c = (s.chan c).periodEnded corr phase s.errDraw :=
  ⟨_, execPeriodIrq_of_lt hc, execPeriodIrq_chan (execPeriodIrq_of_lt hc)⟩

/-- The UPDATE_WRITE of a period that owes it succeeds. -/
theorem updateWrite_runs {s : State} {c : Nat} {cf cr : Int} (hh : s.hung = false) (hc : c < s.N)
    (tracking : (s.chan c).seq.state = .tracking) (owed : (s.chan c).seq.updDone = false)
    (dom : updateInDomain cf cr = true) (ho : s.nextOutcome = .ok) :
    ∃ t, exec (.updateWrite c cf cr) s = .next t ∧ t.N = s.N ∧
      t.chan c = { s.chan c with
        update := .image (packUpdate cf cr), seq := { (s.chan c).seq with updDone := true, updUnknown := false } } := by
  have ha := admission_eq_admitted.2 ⟨hh, hc, permitUpdateWrite_iff.2 (.inr ⟨tracking, owed⟩), dom⟩
  have started : (s.chan c).seq.state ≠ .idle := by simp [tracking]
  refine ⟨_, (exec_updateWrite c cf cr s).trans (writeOp_ok ha ho), setChan_N _ c _, ?_⟩
  rw [answer_chan, chan_setChan_logged hc, updateWritten_of_started started]

/-- Settles O56: the strobe and the interrupt each read `upd_done` as it is then; the UPDATE sets it between them,
before both, or not at all. -/
theorem theTwoDeadlinesAreDistinct : Obligations.TheTwoDeadlinesAreDistinct := by
  intro s c cf cr corr phase hh hc tracking owed known dom ho
  refine ⟨?_, ?_, ?_⟩
  · obtain ⟨s₁, h₁, e₁, -, hN, -, hhung, -, -, -, -, houtcomes⟩ := strobeFall_runs hc
    rw [strobed_of_tracking tracking] at e₁
    obtain ⟨s₂, h₂, hN₂, e₂⟩ := updateWrite_runs (s := s₁) (cf := cf) (cr := cr) (hhung.trans hh) (hN ▸ hc)
      (by rw [e₁]; exact tracking) (by rw [e₁]; exact owed) dom (by rw [State.nextOutcome, houtcomes]; exact ho)
    obtain ⟨t, h₃, e₃⟩ := periodIrq_runs (s := s₂) (c := c) (by omega) corr phase
    refine ⟨t, by simp only [runInstrs, h₁, h₂, h₃], ?_, ?_⟩
    · rw [e₃, periodEnded_err_of_served, e₂, e₁]
      exact .inr (by simp [e₂, e₁, tracking])
    · simp [e₃, periodEnded_stale, e₂, e₁, owed]
  · obtain ⟨s₁, h₁, hN₁, e₁⟩ := updateWrite_runs hh hc tracking owed dom ho
    obtain ⟨s₂, h₂, e₂, -, hN₂, -⟩ := strobeFall_runs (s := s₁) (c := c) (by omega)
    rw [strobed_of_tracking (by rw [e₁]; exact tracking)] at e₂
    obtain ⟨t, h₃, e₃⟩ := periodIrq_runs (s := s₂) (c := c) (by omega) corr phase
    refine ⟨t, by simp only [runInstrs, h₁, h₂, h₃], ?_, ?_⟩
    · rw [e₃, periodEnded_err_of_served, e₂, e₁]
      exact .inr (by simp [e₂, e₁, tracking])
    · simp [e₃, periodEnded_stale, e₂, e₁]
  · obtain ⟨t, h, e⟩ := periodIrq_runs hc corr phase
    refine ⟨t, by simp only [runInstrs, h], ?_, ?_⟩
    · simp [e, periodEnded_err, errAfterPeriod, tracking, owed, known]
    · rw [e, periodEnded_stale]

/-! ### H-ZERO (R168) -/

theorem unpackPhase_codePhase_of_hZero {b : PhaseImage} (h : HZero b) : (unpackPhase b).codePhase = 0 := by
  obtain ⟨h0, h1, h2, h3, h4, h5⟩ := h
  simp [unpackPhase, h0, h1, h2, h3, h4, h5]

/-- Settles O55: the period's end puts the drawn image in the PHASE window, and the read decodes that. -/
theorem hZeroPhaseReadsGiveZeroCodePhase : Obligations.HZeroPhaseReadsGiveZeroCodePhase := by
  intro c corr phase s t u r hzero started hirq hread hport
  have window : (t.chan c).phase = .image phase := by
    rw [execPeriodIrq_chan hirq, periodEnded_of_started started]; rfl
  have decoded := (execPhaseRead_next hread).2 _ hport
  rw [window, receivedBytes_image] at decoded
  rw [Value.phase.inj decoded]
  exact unpackPhase_codePhase_of_hZero hzero

/-! ### Runs on time (R171) -/

theorem everyStep_cons {p : Instr → State → Bool} {i : Instr} {is : List Instr} {s u : State}
    (hu : exec i s = .next u) :
    everyStep p (i :: is) s = (p i s && everyStep p is u) := by
  simp only [everyStep, hu]

/-- What every instruction keeps that meets `p`, a run keeps that meets `p` at every step. -/
theorem everyStep_keeps {p : Instr → State → Bool} {P : State → Prop}
    (keep : ∀ {i s u}, p i s = true → exec i s = .next u → P s → P u) {is : List Instr} {s t : State}
    (hp : everyStep p is s = true) (hrun : runInstrs is s = .next t) (h : P s) : P t := by
  induction is generalizing s with
  | nil => cases hrun; exact h
  | cons i is ih =>
    obtain ⟨u, hu, hrest⟩ := runInstrs_cons_eq_next.1 hrun
    rw [everyStep_cons hu, Bool.and_eq_true] at hp
    exact ih hp.2 hrest (keep hp.1 hu h)

/-- A strobe fall on time finds no arming half done and no UPDATE missing. -/
theorem not_late_of_strobeOnTime {i : Instr} {c : Nat} {s : State} (ontime : i.strobeOnTime c s = true)
    (hi : i.isStrobeOf c = true) :
    ¬ (((s.chan c).seq.state = .idle ∧ (s.chan c).seq.armStep ≠ .zero) ∨
        ((s.chan c).seq.state = .tracking ∧ (s.chan c).seq.updDone = false)) := by
  cases hq : (s.chan c).seq.state <;> simp_all [Instr.strobeOnTime]

/-- A period that ends on time in `Tracking` has its UPDATE. -/
theorem updDone_of_periodOnTime {i : Instr} {c : Nat} {s : State} (ontime : i.periodOnTime c s = true)
    (hi : i.isPeriodOf c = true) (tracking : (s.chan c).seq.state = .tracking) : (s.chan c).seq.updDone = true := by
  simpa [Instr.periodOnTime, hi, tracking] using ontime

theorem stale_of_strobeOnTime {i : Instr} {c : Nat} {s u : State} (ontime : i.strobeOnTime c s = true)
    (h : exec i s = .next u) (clear : (s.chan c).stale = false) : (u.chan c).stale = false := by
  refine Bool.eq_false_iff.2 fun set => ?_
  obtain ⟨strobe, late⟩ := (staleIsStickyAndSetByALateStrobe i s u c h).2 clear set
  exact not_late_of_strobeOnTime ontime strobe late

theorem err_of_periodOnTime {i : Instr} {c : Nat} {s u : State} (ontime : i.periodOnTime c s = true)
    (h : exec i s = .next u) (clear : (s.chan c).err = false) : (u.chan c).err = false := by
  refine Bool.eq_false_iff.2 fun set => ?_
  obtain ⟨period, tracking, owed⟩ := (errIsStickyAndSetByAMissedUpdate i s u c h).2 clear set
  simp [updDone_of_periodOnTime ontime period tracking] at owed

/-- What a strobe on time latches is complete: an armed channel, and a tracking one with its UPDATE done, has both
images. -/
theorem Channel.Inv.complete_of_latched {ch : Channel} (hi : ch.Inv)
    (ontime : ch.seq.state = .tracking → ch.seq.updDone = true)
    (old : ∀ e, e ∈ ch.latch → e.Complete) {e : LatchEntry} (he : e ∈ ch.strobed.latch) : e.Complete := by
  cases hq : ch.seq.state with
  | idle =>
    rw [strobed_of_idle hq] at he
    exact old e he
  | armed =>
    rw [strobed_of_armed hq] at he
    rcases List.mem_append.1 he with he | he
    · exact old e he
    · rw [List.mem_singleton.1 he]
      exact ⟨rfl, hi.started_init (by simp [hq]), hi.done_update (hi.armed_done hq)⟩
  | tracking =>
    rw [strobed_of_tracking hq] at he
    rcases List.mem_append.1 he with he | he
    · exact old e he
    · rw [List.mem_singleton.1 he]
      exact ⟨ontime hq, hi.started_init (by simp [hq]), hi.done_update (ontime hq)⟩

/-- A channel that meets its invariant with only complete entries in its latch log. -/
def Channel.LatchedComplete (ch : Channel) : Prop := ch.Inv ∧ ∀ e, e ∈ ch.latch → e.Complete

theorem latchedComplete_of_strobeOnTime {i : Instr} {c : Nat} {s u : State} (ontime : i.strobeOnTime c s = true)
    (h : exec i s = .next u) (hs : (s.chan c).LatchedComplete) : (u.chan c).LatchedComplete := by
  obtain ⟨hi, old⟩ := hs
  refine ⟨exec_keeps_chanInv h hi, ?_⟩
  rcases exec_chan h c with ⟨-, e⟩ | ⟨-, -, hop⟩ | ⟨corr, phase, -, e⟩ | ⟨rfl, e⟩ | ⟨-, -, e⟩
  · rw [e]; exact nofun
  · obtain ⟨-, -, -, -, latch⟩ := hop.kept
    rwa [latch]
  · obtain ⟨-, -, -, -, latch, -⟩ := periodEnded_kept (s.chan c) corr phase s.errDraw
    rwa [e, latch]
  · have done (tracking : (s.chan c).seq.state = .tracking) : (s.chan c).seq.updDone = true :=
      Bool.eq_true_of_not_eq_false fun owed =>
        not_late_of_strobeOnTime ontime (by simp [Instr.isStrobeOf]) (.inr ⟨tracking, owed⟩)
    rw [e]
    exact fun _ => hi.complete_of_latched done old
  · rwa [e]

/-! ### Contract-compliant runs (R171) -/

theorem watchedRun_cons {c : Nat} {w : Watch} {i : Instr} {is : List Instr} {s u : State} (hu : exec i s = .next u) :
    watchedRun c w (i :: is) s =
      (!(i.isStrobeOf c && (w.arming || w.owes)) && !transferLost c i s u && watchedRun c (w.next c i u) is u) := by
  simp only [watchedRun, hu]

/-- What is remembered covers the sequencer record, so by clauses (a) and (b) every strobe falls on time. -/
theorem watchedRun_strobesOnTime {c : Nat} {w : Watch} {is : List Instr} {s t : State} (hw : w.Covers (s.chan c))
    (h : watchedRun c w is s = true) (hrun : runInstrs is s = .next t) :
    everyStep (Instr.strobeOnTime c) is s = true := by
  induction is generalizing w s with
  | nil => rfl
  | cons i is ih =>
    obtain ⟨u, hu, hrest⟩ := runInstrs_cons_eq_next.1 hrun
    rw [watchedRun_cons hu, Bool.and_eq_true, Bool.and_eq_true] at h
    obtain ⟨⟨nostrobe, -⟩, h⟩ := h
    rw [everyStep_cons hu, Bool.and_eq_true]
    exact ⟨hw.strobeOnTime (by simpa only [Bool.not_eq_true'] using nostrobe), ih (Watch.next_covers hw hu) h hrest⟩

/-! ### E-ALT (R167) -/

/-- Whether a STROBE_FALL is the next event of channel `c` after `i`, taken in `s`: `altFrom` goes on with it. -/
def strobeNext (c : Nat) (strobe : Bool) (i : Instr) (s : State) : Bool :=
  decide ((s.chan c).seq.state = .idle) || (!i.isStrobeOf c && (strobe || i.isPeriodOf c))

theorem altFrom_cons {c : Nat} {strobe : Bool} {i : Instr} {is : List Instr} {s u : State} (hu : exec i s = .next u) :
    altFrom c strobe (i :: is) s = true ↔
      ((s.chan c).seq.state = .idle ∨
        ((i.isStrobeOf c = true → strobe = true) ∧ (i.isPeriodOf c = true → strobe = false))) ∧
      altFrom c (strobeNext c strobe i s) is u = true := by
  simp only [altFrom, hu, strobeNext, Bool.and_eq_true, Bool.or_eq_true, decide_eq_true_eq, Bool.not_eq_true']

/-- A tracking channel whose strobe of this period has fallen has its UPDATE done. -/
def DoneOnceStrobed (strobe : Bool) (ch : Channel) : Prop :=
  ch.seq.state = .tracking → strobe = false → ch.seq.updDone = true

/-- If every strobe falls on time, a strobe that has fallen leaves the UPDATE done until the period ends. -/
theorem DoneOnceStrobed.next {c : Nat} {strobe : Bool} {i : Instr} {s u : State}
    (hs : DoneOnceStrobed strobe (s.chan c)) (ontime : i.strobeOnTime c s = true) (h : exec i s = .next u) :
    DoneOnceStrobed (strobeNext c strobe i s) (u.chan c) := by
  intro tracking fallen
  obtain ⟨-, fallen⟩ : (s.chan c).seq.state ≠ .idle ∧
      (i.isStrobeOf c = false → strobe = false ∧ i.isPeriodOf c = false) := by
    simpa [strobeNext] using fallen
  rcases exec_chan h c with ⟨-, e⟩ | ⟨-, op, hop⟩ | ⟨corr, phase, rfl, -⟩ | ⟨rfl, e⟩ | ⟨other, -, e⟩
  · rw [e] at tracking; cases tracking
  · have before := hop.tracking_iff.1 tracking
    have done := hs before (fallen (Instr.not_strobe_of_op op c)).1
    rwa [hop.eq_of_served (.inr ⟨before, done⟩)]
  · simp [Instr.isStrobeOf, Instr.isPeriodOf] at fallen
  · rw [e] at tracking ⊢
    exact Bool.eq_true_of_not_eq_false fun owed =>
      not_late_of_strobeOnTime ontime (by simp [Instr.isStrobeOf]) (.inr ⟨tracking, owed⟩)
  · rw [e] at tracking ⊢
    exact hs tracking (fallen (Instr.not_strobe_of_other other)).1

/-- Under E-ALT a strobe falls in every period, so if strobes fall on time, periods end on time. -/
theorem altFrom_periodsOnTime {c : Nat} {strobe : Bool} {is : List Instr} {s t : State}
    (hs : DoneOnceStrobed strobe (s.chan c)) (ontime : everyStep (Instr.strobeOnTime c) is s = true)
    (h : altFrom c strobe is s = true) (hrun : runInstrs is s = .next t) : periodsOnTimeRun c is s = true := by
  induction is generalizing strobe s with
  | nil => rfl
  | cons i is ih =>
    obtain ⟨u, hu, hrest⟩ := runInstrs_cons_eq_next.1 hrun
    rw [everyStep_cons hu, Bool.and_eq_true] at ontime
    obtain ⟨hstrobe, ontime⟩ := ontime
    obtain ⟨alt, h⟩ := (altFrom_cons hu).1 h
    have hperiod : i.periodOnTime c s = true := by
      cases hi : i.isPeriodOf c with
      | false => simp [Instr.periodOnTime, hi]
      | true =>
        rcases alt with idle | ⟨-, fallen⟩
        · simp [Instr.periodOnTime, idle]
        · by_cases tracking : (s.chan c).seq.state = .tracking
          · simp [Instr.periodOnTime, hs tracking (fallen hi)]
          · simp [Instr.periodOnTime, tracking]
    rw [periodsOnTimeRun, everyStep_cons hu, Bool.and_eq_true]
    exact ⟨hperiod, ih (hs.next hstrobe hu) ontime h hrest⟩

/-- Settles O51: a compliant run's strobes fall on time, and under E-ALT its periods then end on time; each deadline
keeps its flag. -/
theorem runsOnTimeStayClean : Obligations.RunsOnTimeStayClean := by
  intro c is s t hrun stale err
  have clean (ontime : periodsOnTimeRun c is s = true) : (t.chan c).err = false :=
    everyStep_keeps (P := fun u => (u.chan c).err = false) err_of_periodOnTime ontime hrun err
  refine ⟨fun compliant => ?_, fun ontime => ?_⟩
  · have strobes := watchedRun_strobesOnTime (Watch.start_covers _) compliant hrun
    refine ⟨?_, fun hi complete => ?_, fun alt => ?_, clean⟩
    · exact everyStep_keeps (P := fun u => (u.chan c).stale = false) stale_of_strobeOnTime strobes hrun stale
    · exact (everyStep_keeps (P := fun u => (u.chan c).LatchedComplete) latchedComplete_of_strobeOnTime strobes hrun
        ⟨hi, complete⟩).2
    · exact clean (altFrom_periodsOnTime (strobe := true) (fun _ h => by cases h) strobes alt hrun)
  · refine everyStep_keeps (P := fun u => (u.chan c).stale = false ∧ (u.chan c).err = false) ?_ ontime hrun ⟨stale, err⟩
    intro i s u ontime hu ⟨stale, err⟩
    obtain ⟨strobe, period⟩ := Bool.and_eq_true_iff.1 ontime
    exact ⟨stale_of_strobeOnTime strobe hu stale, err_of_periodOnTime period hu err⟩

/-! ### Between two period boundaries (R169) -/

/-- Until its period ends or RESET, a channel that needs no write stays one. -/
theorem exec_keeps_served {i : Instr} {c : Nat} {s t : State} (hi : i.isPeriodOf c = false ∧ i ≠ .reset)
    (hq : (s.chan c).seq.Served) (h : exec i s = .next t) : (t.chan c).seq.Served := by
  rcases exec_chan_of_served h hi.2 hi.1 hq with ⟨-, e⟩ | ⟨-, e⟩
  · rwa [e]
  · rw [e]; exact hq

/-- Settles O52: the channel needs no write all along, so the admission of UPDATE_WRITE fails. -/
theorem oneUpdateBetweenPeriodBoundaries : Obligations.OneUpdateBetweenPeriodBoundaries := by
  intro c is s t hc hq between hrun hh x y
  obtain ⟨hct, hqt⟩ : c < t.N ∧ (t.chan c).seq.Served :=
    runInstrs_keeps (P := fun u => c < u.N ∧ (u.chan c).seq.Served)
      (fun i u v hi hu h => ⟨(exec_fixed h).2 ▸ hu.1, exec_keeps_served hi hu.2 h⟩) between ⟨hc, hq⟩ hrun
  rw [exec_updateWrite]
  exact writeOp_refuse (admission_of_seqViolation hh hct hqt.not_permitUpdateWrite)

/-! ### The first latch (R167, R171) -/

/-- A run that alternates beginning with a strobe fall does not begin with a period's end. -/
theorem alternates_strobe_cons {c : Nat} {i : Instr} {is : List Instr} (h : alternates c true (i :: is) = true) :
    i.isPeriodOf c = false ∧ (i.isStrobeOf c = false → alternates c true is = true) := by
  cases hs : i.isStrobeOf c with
  | true => exact ⟨Instr.not_period_of_strobe hs, nofun⟩
  | false => cases hp : i.isPeriodOf c <;> simp_all [alternates]

/-- A run without RESET takes no entry out of a latch log. -/
theorem runInstrs_latch_grows {c : Nat} {is : List Instr} {s t : State} (hr : .reset ∉ is)
    (hrun : runInstrs is s = .next t) : (s.chan c).latch <+: (t.chan c).latch :=
  runInstrs_keeps (P := fun u => (s.chan c).latch <+: (u.chan c).latch) (Q := (· ≠ .reset))
    (fun _ _ _ hne hu h => hu.trans (exec_latch_grows hne h c)) (fun _ hi e => hr (e ▸ hi)) (List.prefix_refl _) hrun

/-- What a strobe fall latches of an armed channel. -/
def armingEntry (ch : Channel) : LatchEntry :=
  { state := .armed, init := ch.init, update := ch.update, updDone := true }

/-- An armed channel whose next event is a strobe fall has latched nothing at the end of a run, or its arming images
first. -/
theorem first_latch_of_armed {c : Nat} {is : List Instr} {s t : State} (armed : (s.chan c).seq.state = .armed)
    (empty : (s.chan c).latch = []) (hr : .reset ∉ is) (alt : alternates c true is = true)
    (hrun : runInstrs is s = .next t) : (t.chan c).latch = [] ∨ [armingEntry (s.chan c)] <+: (t.chan c).latch := by
  induction is generalizing s with
  | nil => cases hrun; exact .inl empty
  | cons i is ih =>
    obtain ⟨u, hu, hrest⟩ := runInstrs_cons_eq_next.1 hrun
    obtain ⟨hne, hr⟩ := not_or.1 (mt List.mem_cons.2 hr)
    obtain ⟨noperiod, alt⟩ := alternates_strobe_cons alt
    rcases exec_chan_of_served hu (Ne.symm hne) noperiod (.inl armed) with ⟨nostrobe, e⟩ | ⟨-, e⟩
    · rw [← e] at armed empty ⊢
      exact ih armed empty hr (alt nostrobe) hrest
    · have latched : (u.chan c).latch = [armingEntry (s.chan c)] := by
        rw [e, strobed_of_armed armed, empty]; rfl
      exact .inr (latched ▸ runInstrs_latch_grows hr hrest)

/-- Settles O54: what is first in the log stays first, and the first strobe falls on the armed channel. -/
theorem firstLatchHoldsTheArmingImages : Obligations.FirstLatchHoldsTheArmingImages := by
  intro c is s t e armed empty hr alt hrun first
  rcases first_latch_of_armed armed empty hr alt hrun with still | ⟨rest, latched⟩
  · rw [still] at first; cases first
  · rw [← latched] at first
    exact (Option.some.inj first).symm

end Sys2Proof.Machine
end

section
/-! Family `60_exceptions.md`, statements O30, O32 and O34: the refusal on a channel that does not exist, the order of the
checks before the transfer, and the one transfer behind TRANSPORT_FAULT. -/

namespace Sys2Proof.Machine

/-! ### A channel that does not exist (R206) -/

theorem execPeriodIrq_noSuchChannel {c : Nat} {s : State} (hc : s.N ≤ c) (corr : CorrImage) (phase : PhaseImage) :
    execPeriodIrq c corr phase s = .refused .noSuchChannel :=
  if_pos hc

theorem execStrobeFall_noSuchChannel {c : Nat} {s : State} (hc : s.N ≤ c) :
    execStrobeFall c s = .refused .noSuchChannel :=
  if_pos hc

/-- A pseudo-operation whose part answers BAD_CHANNEL is over. -/
theorem afterPart_badChannel {o : Host.Outcome State Fault Refusal} {k : Value → State → State} {s : State}
    (ho : o = .next (s.answer .badChannel)) : afterPart o k = .next ((s.answer .badChannel).continueAt .none) := by
  rw [ho, afterPart_of_stop (by simp)]

/-- Settles O30: the channel check is the second one of every operation's admission, and the only one of an event. -/
theorem badChannelIsRefused : Obligations.BadChannelIsRefused := by
  intro s c hc
  refine ⟨fun hh => ?_, execPeriodIrq_noSuchChannel hc, execStrobeFall_noSuchChannel hc⟩
  have load (prn : Int) := (codeLoadResult s c prn hh).1 hc
  have corr := (corrReadResult s c hh).1 hc
  exact ⟨load, fun x y z => (initWriteResult s c x y z hh).1 hc, fun x y => (updateWriteResult s c x y hh).1 hc, corr,
    (phaseReadResult s c hh).1 hc, (statusReadResult s c).2.1 hh hc, fun prn _ _ _ _ => afterPart_badChannel (load prn),
    fun _ _ => afterPart_badChannel corr⟩

/-! ### The order of the checks (R207, R110) -/

/-- How the drawn outcome of the transfer shows in the state `t` that an admitted operation leaves. -/
structure AnswersOutcome (s t : State) : Prop where
  ok : s.nextOutcome = .ok → ∃ v, t.port = .returned (.ok v)
  fault : s.nextOutcome = .fault → t.port = .returned .transportFault
  hang : s.nextOutcome = .hang → t.port = .empty ∧ t.hung = true

/-- The outcome `o` of an operation in `s` is what the admission says, and an admitted operation's is its transfer's. -/
structure FollowsAdmission (permit : Seq → Bool) (d : Bool) (c : Nat) (s : State)
    (o : Host.Outcome State Fault Refusal) : Prop where
  stuck : s.hung = true → o = .fault .blockHung
  refused : ∀ r, admission permit d c s = .refuse r → o = .next (s.answer r)
  admitted : admission permit d c s = .admitted → ∃ t, o = .next t ∧ AnswersOutcome s t

theorem writeOp_followsAdmission {permit : Seq → Bool} {d : Bool} {c : Nat} {w : WindowName} {tx : List Byte}
    {onOk onLoss : Channel → Channel} {s : State} :
    FollowsAdmission permit d c s (writeOp permit d c w tx onOk onLoss s) where
  stuck := writeOp_fault.2
  refused _ := writeOp_refuse
  admitted ha := by
    cases ho : s.nextOutcome with
    | ok => exact ⟨_, writeOp_ok ha ho, by constructor <;> simp [ho]⟩
    | fault => exact ⟨_, writeOp_lost ha ho, by constructor <;> simp [ho]⟩
    | hang => exact ⟨_, writeOp_hung ha ho, by constructor <;> simp [ho]⟩

theorem readOp_followsAdmission {n : Nat} {permit : Seq → Bool} {c : Nat} {w : WindowName} {tx : List Byte}
    {window : Channel → Content n} {unpack : Image n → Value} {s : State} :
    FollowsAdmission permit true c s (readOp permit c w tx window unpack s) where
  stuck := readOp_fault.2
  refused _ := readOp_refuse
  admitted ha := by
    cases ho : s.nextOutcome with
    | ok => exact ⟨_, readOp_complete ha ho, by constructor <;> simp [ho]⟩
    | fault => exact ⟨_, readOp_lost ha ho, by constructor <;> simp [ho]⟩
    | hang => exact ⟨_, readOp_hung ha ho, by constructor <;> simp [ho]⟩

/-- Settles O32: the five operations follow their admission, and the admission names the first check that fails. -/
theorem checksInFixedOrder : Obligations.ChecksInFixedOrder := by
  intro s i c permitted inDomain hi
  obtain ⟨permit, rfl, follows⟩ :
      ∃ permit, permitted = permit (s.chan c).seq ∧ FollowsAdmission permit inDomain c s (exec i s) := by
    rcases hi with ⟨prn, rfl, hp, rfl⟩ | ⟨x, y, z, rfl, hp, rfl⟩ | ⟨x, y, rfl, hp, rfl⟩ | ⟨rfl, hp, rfl⟩ |
      ⟨rfl, hp, rfl⟩
    · exact ⟨_, hp, exec_codeLoad c prn s ▸ writeOp_followsAdmission⟩
    · exact ⟨_, hp, exec_initWrite c x y z s ▸ writeOp_followsAdmission⟩
    · exact ⟨_, hp, exec_updateWrite c x y s ▸ writeOp_followsAdmission⟩
    · exact ⟨_, hp, exec_corrRead c s ▸ readOp_followsAdmission⟩
    · exact ⟨_, hp, exec_phaseRead c s ▸ readOp_followsAdmission⟩
  refine ⟨follows.stuck, fun hh hc => ?_, fun hh hc hp => ?_, fun hh hc hp hd => ?_, fun hh hc hp hd => ?_⟩
  · exact ⟨_, follows.refused _ (admission_of_badChannel hh hc), rfl⟩
  · exact ⟨_, follows.refused _ (admission_of_seqViolation hh hc (Bool.eq_false_iff.1 hp)), rfl⟩
  · exact ⟨_, follows.refused _ (admission_of_rangeFault hh hc hp (Bool.eq_false_iff.1 hd)), rfl⟩
  · obtain ⟨t, ht, answers⟩ := follows.admitted (admission_eq_admitted.2 ⟨hh, hc, hp, hd⟩)
    exact ⟨t, ht, answers.ok, answers.fault, answers.hang⟩

/-! ### TRANSPORT_FAULT (R202) -/

/-- One operation answers TRANSPORT_FAULT exactly when it has made a transfer that drew `Fault`. -/
theorem OpStep.transportFault_iff {c : Nat} {s t : State} (h : OpStep c s t) :
    t.port = .returned .transportFault ↔ ∃ r, t.busLog = s.busLog ++ [r] ∧ r.outcome = .fault := by
  cases h with
  | refused r hh hr => rcases hr with rfl | rfl | rfl <;> simp
  | status => simp
  | transferred r ch n v hh hc hl hch ho hr | hung r ch hh hc hl hch ho hr => simp [hr]
  | faulted r ch hh hc hl hch ho hr => simp [hr]

/-- Settles O34: an instruction of a channel shows the log and the port of the one operation it runs. -/
theorem transportFaultExactlyOnFault : Obligations.TransportFaultExactlyOnFault := by
  intro i s t hi hc h
  obtain ⟨c, hc⟩ := Option.ne_none_iff_exists'.1 hc
  obtain ⟨u, hu, hlog, hport⟩ := exec_opStep hi hc h
  rw [hlog, hport]
  exact hu.transportFault_iff

end Sys2Proof.Machine
end

section
/-! Family `70_reset_and_hazards.md`, statements O57 and O24: runs whose transport never hangs, and what RESET does. -/

namespace Sys2Proof.Machine

/-! ### Runs without Hang (R244, R61) -/

/-- The block is not stuck, and no draw that is scripted would leave it stuck. -/
structure State.HangFree (s : State) : Prop where
  not_hung : s.hung = false
  no_hang : .hang ∉ s.outcomes

/-- The next draw is a scripted one, or `Ok` where none is scripted. -/
theorem State.HangFree.nextOutcome_ne_hang {s : State} (h : s.HangFree) : s.nextOutcome ≠ .hang := by
  intro hang
  cases ho : s.outcomes with
  | nil => simp [State.nextOutcome, ho] at hang
  | cons o os =>
    obtain rfl : o = .hang := by simpa [State.nextOutcome, ho] using hang
    exact h.no_hang (by simp [ho])

/-- Using up a draw scripts none. -/
theorem State.HangFree.no_hang_tail {s : State} (h : s.HangFree) : .hang ∉ s.outcomes.tail :=
  fun hang => h.no_hang (List.mem_of_mem_tail hang)

/-- An operation uses up one draw at most, and is stuck only by a `Hang`. -/
theorem OpStep.keeps_hangFree {c : Nat} {s t : State} (h : OpStep c s t) (hs : s.HangFree) : t.HangFree := by
  cases h with
  | refused | status => exact ⟨hs.not_hung, hs.no_hang⟩
  | transferred | faulted => exact ⟨hs.not_hung, hs.no_hang_tail⟩
  | hung r ch hh hc hl hch ho hr => exact absurd ho hs.nextOutcome_ne_hang

/-- An engine event neither sticks the block nor touches the transport's draws. -/
theorem EventFrame.keeps_hangFree {c : Nat} {s t : State} (h : EventFrame c s t) (hs : s.HangFree) : t.HangFree := by
  obtain ⟨-, -, -, hhung, -, -, -, -, houtcomes⟩ := h
  exact ⟨hhung.trans hs.not_hung, houtcomes ▸ hs.no_hang⟩

/-- Every instruction keeps a block that is not stuck so, as long as no `Hang` is scripted, and scripts none. -/
theorem exec_keeps_hangFree {i : Instr} {s t : State} (h : exec i s = .next t) (hs : s.HangFree) : t.HangFree := by
  rcases exec_next h with ⟨c, u, -, -, hu, rfl | ⟨k, rfl⟩⟩ | ⟨-, -, rfl⟩ | ⟨c, corr, phase, rfl, -⟩ | ⟨c, rfl, -⟩ |
    ⟨-, rfl⟩
  · exact hu.keeps_hangFree hs
  · obtain ⟨hhung, houtcomes⟩ := hu.keeps_hangFree hs
    exact ⟨hhung, houtcomes⟩
  · exact hs
  · exact EventFrame.keeps_hangFree ((eventsTouchTheirChannelOnly _ s t c h).1 corr phase rfl).1 hs
  · exact EventFrame.keeps_hangFree ((eventsTouchTheirChannelOnly _ s t c h).2 rfl).1 hs
  · exact ⟨rfl, hs.no_hang⟩

/-- Settles O57: every instruction of the run keeps the block not stuck and the script without a `Hang`. -/
theorem runsWithoutHangEndInAFinalState : Obligations.RunsWithoutHangEndInAFinalState := by
  intro is s t hh hno hr
  have kept : t.HangFree :=
    runInstrs_keeps (Q := fun _ => True) (fun _ _ _ _ hs h => exec_keeps_hangFree h hs) (fun _ _ => trivial)
      ⟨hh, hno⟩ hr
  simp [State.isFinal, kept.not_hung]

/-! ### RESET (R230) -/

/-- Settles O24: every channel is put at its reset value (`reset_chan`), and the block's own fields with it. -/
theorem resetEffect : Obligations.ResetEffect := by
  intro s
  refine ⟨_, rfl, List.length_map _, fun c _ => ?_, rfl, rfl, rfl, rfl, rfl, rfl, rfl, rfl, rfl⟩
  rw [reset_chan]
  exact ⟨rfl, rfl, rfl, rfl, rfl, rfl, rfl, rfl, rfl⟩

end Sys2Proof.Machine
end

section
/-! Family `other`, statements O11, O26 to O29 and O53: words that decode, ARM and SERVICE from their first part to
their result, and the result windows between two period boundaries. -/

namespace Sys2Proof.Machine

/-! ### The result windows of a channel (R41, R59) -/

/-- Nothing but the end of its period and RESET writes a channel's result windows. -/
theorem exec_keeps_resultWindows {i : Instr} {c : Nat} {s t : State} (hi : i.isPeriodOf c = false ∧ i ≠ .reset)
    (h : exec i s = .next t) : (t.chan c).corr = (s.chan c).corr ∧ (t.chan c).phase = (s.chan c).phase := by
  rcases exec_chan h c with ⟨reset, -⟩ | ⟨-, -, hop⟩ | ⟨corr, phase, rfl, -⟩ | ⟨-, e⟩ | ⟨-, -, e⟩
  · exact absurd reset hi.2
  · obtain ⟨-, -, corr, phase, -⟩ := hop.kept
    exact ⟨corr, phase⟩
  · simp [Instr.isPeriodOf] at hi
  · rw [e]; exact ⟨rfl, rfl⟩
  · rw [e]; exact ⟨rfl, rfl⟩

/-- Settles O53: the run keeps both windows, and a read that returns OK decodes what its window holds. -/
theorem readsRepeatUntilTheNextPeriod : Obligations.ReadsRepeatUntilTheNextPeriod := by
  intro c is s t u corr phase hcorr hphase between hrun
  obtain ⟨hcorr, hphase⟩ : (t.chan c).corr = .image corr ∧ (t.chan c).phase = .image phase :=
    runInstrs_keeps (P := fun s => (s.chan c).corr = .image corr ∧ (s.chan c).phase = .image phase)
      (fun i _ _ hi hw h => (exec_keeps_resultWindows hi h).imp (·.trans hw.1) (·.trans hw.2)) between
      ⟨hcorr, hphase⟩ hrun
  refine ⟨fun v hread hv => ?_, fun v hread hv => ?_⟩
  · rw [(execCorrRead_next hread).2 v hv, hcorr, receivedBytes_image]
  · rw [(execPhaseRead_next hread).2 v hv, hphase, receivedBytes_image]

/-! ### The first parts of ARM and SERVICE (R97) -/

theorem exec_arm (c : Nat) (prn cp code cf cr : Int) (s : State) :
    exec (.arm c prn cp code cf cr) s =
      afterPart (exec (.codeLoad c prn) s) fun _ t => t.continueAt (.armInit c prn cp code cf cr) := rfl

theorem exec_service (c : Nat) (cf cr : Int) (s : State) :
    exec (.service c cf cr) s = afterPart (exec (.corrRead c) s) fun v t => t.keepCorr c cf cr v := rfl

/-- Settles O26: CODE_LOAD's OK, which carries no value, goes on, and whatever else it answers ends ARM. -/
theorem armStartsWithCodeLoad : Obligations.ArmStartsWithCodeLoad := by
  intro s c prn cp code cf cr hh
  rw [exec_arm]
  refine ⟨fun hc idle h0 h1 ok => ?_, fun t h hne => ?_⟩
  · obtain ⟨-, -, loaded, -⟩ := (codeLoadResult s c prn hh).2 hc
    rw [loaded idle h0 h1 ok]
    exact afterPart_of_ok rfl
  · have stopped (v : Value) (hv : t.port = .returned (.ok v)) : False := by
      obtain rfl := writeOp_ok_done (show execCodeLoad c prn s = .next t from h) hv
      exact hne hv
    rw [h]
    exact afterPart_of_stop stopped

/-- Settles O28: CORR_READ's OK carries its decoded result, which is kept, and whatever else it answers ends SERVICE. -/
theorem serviceStartsWithCorrRead : Obligations.ServiceStartsWithCorrRead := by
  intro s c cf cr hh
  rw [exec_service]
  refine ⟨fun b hc tracking hw ok => ?_, fun t v h hv => ?_, fun t h hno => ?_⟩
  · obtain ⟨-, read, -⟩ := (corrReadResult s c hh).2 hc
    rw [read b tracking hw ok]
    exact afterPart_of_ok (v := .corr (unpackCorr b)) rfl
  · obtain rfl := (execCorrRead_next h).2 v hv
    rw [h]
    exact ⟨_, rfl, afterPart_of_ok hv⟩
  · rw [h]
    exact afterPart_of_stop hno

/-! ### A pseudo-operation whose transfers complete (R97) -/

/-- `t` is where a caller with nothing on its agenda stands after transfers of channel `c`, begun in `s`, that all
completed: `log` are their records, `ch` is what they made of the channel. -/
structure Progress (c : Nat) (s : State) (ch : Channel) (log : List BusRecord) (t : State) : Prop where
  cfg : t.cfg = s.cfg
  count : t.N = s.N
  not_hung : t.hung = false
  agenda : t.agenda = []
  outcomes : t.outcomes = s.outcomes.drop log.length
  chan : t.chan c = ch
  busLog : t.busLog = s.busLog ++ log

namespace Progress

variable {c : Nat} {s t : State} {ch : Channel} {log : List BusRecord}

/-- Before the first part. -/
theorem start (hh : s.hung = false) : Progress c s (s.chan c) [] { s with agenda := [] } where
  cfg := rfl
  count := rfl
  not_hung := hh
  agenda := rfl
  outcomes := rfl
  chan := rfl
  busLog := (List.append_nil _).symm

theorem continueAt (h : Progress c s ch log t) (k : Cont) : Progress c s ch log (t.continueAt k) := { h with }

theorem addrInjective (h : Progress c s ch log t) (hinj : AddrInjective s.cfg s.N) : AddrInjective t.cfg t.N := by
  rwa [h.cfg, h.count]

/-- The next transfer completes if the draw that the parts so far have left for it is `Ok`. -/
theorem nextOutcome (h : Progress c s ch log t) (ok : s.outcomes.getD log.length .ok = .ok) : t.nextOutcome = .ok := by
  rw [State.nextOutcome, h.outcomes, List.headD_eq_head?_getD, List.head?_drop, ← List.getD_eq_getElem?_getD, ok]

theorem admitted (h : Progress c s ch log t) (hc : c < s.N) {permit : Seq → Bool} (hp : permit ch.seq = true)
    {d : Bool} (hd : d = true) : admission permit d c t = .admitted :=
  admission_eq_admitted.2 ⟨h.not_hung, h.count ▸ hc, h.chan ▸ hp, hd⟩

/-- A write as the next part: OK is returned, and one more transfer is done. -/
theorem write (h : Progress c s ch log t) (hc : c < s.N) (ok : s.outcomes.getD log.length .ok = .ok)
    {permit : Seq → Bool} (hp : permit ch.seq = true) {d : Bool} (hd : d = true) (w : WindowName) (tx : List Byte)
    (onOk onLoss : Channel → Channel) :
    ∃ u, writeOp permit d c w tx onOk onLoss t = .next u ∧ u.port = .returned (.ok .done) ∧
      Progress c s (onOk ch) (log ++ [writeRecord s c w tx .ok]) u :=
  ⟨_, writeOp_ok (h.admitted hc hp hd) (h.nextOutcome ok), rfl,
    { cfg := h.cfg
      count := (setChan_N _ c _).trans h.count
      not_hung := h.not_hung
      agenda := h.agenda
      outcomes := by simp [h.outcomes]
      chan := by rw [answer_chan, chan_setChan_logged (h.count ▸ hc), h.chan]
      busLog := by simp [writeRecord, h.busLog, h.cfg] }⟩

/-- A read of a window that holds `b` as the next part: `b` is decoded, and one more transfer is done. -/
theorem read (h : Progress c s ch log t) (hc : c < s.N) (ok : s.outcomes.getD log.length .ok = .ok)
    {permit : Seq → Bool} (hp : permit ch.seq = true) {n : Nat} {window : Channel → Content n} {b : Image n}
    (hw : window ch = .image b) (w : WindowName) (tx : List Byte) (unpack : Image n → Value) :
    ∃ u, readOp permit c w tx window unpack t = .next u ∧ u.port = .returned (.ok (unpack b)) ∧
      Progress c s ch (log ++ [readRecord s c w tx (some b.toList) .ok]) u :=
  ⟨_, readOp_ok (h.admitted hc hp rfl) (h.chan ▸ hw) (h.nextOutcome ok), rfl,
    { cfg := h.cfg
      count := h.count
      not_hung := h.not_hung
      agenda := h.agenda
      outcomes := by simp [h.outcomes]
      chan := h.chan
      busLog := by simp [readRecord, h.busLog, h.cfg] }⟩

/-- The step that takes the next part, if that returns OK. -/
theorem step_part (h : Progress c s ch log t) (hinj : AddrInjective s.cfg s.N) {i : Instr}
    (hpart : t.cont.part = some i) {u : State} {v : Value} (hu : exec i t = .next u) (hv : u.port = .returned (.ok v)) :
    step t = .next (t.cont.onOk v u) := by
  rw [step_of_addrInjective (h.addrInjective hinj), runTurn_nil h.agenda, resumePart_of_part hpart, hu,
    afterPart_of_ok hv]

end Progress

/-- The step in which a free caller issues the only entry of its agenda. -/
theorem step_issue {s : State} {f : Frame} {i : Instr} (hinj : AddrInjective s.cfg s.N) (ha : s.agenda = [.issue f])
    (hd : decode f = .ok i) (hk : s.cont = .none) : step s = exec i { s with agenda := [] } :=
  (step_of_addrInjective hinj).trans (runTurn_issue ha hd (.inr hk))

/-- Three steps in a row are a run. -/
theorem coreRun_three {s s₁ s₂ t : State} (h₁ : step s = .next s₁) (h₂ : step s₁ = .next s₂) (h₃ : step s₂ = .next t) :
    Sys2Proof.core.run 3 s = .next t :=
  coreRun_succ_eq_next.2 ⟨s₁, h₁, coreRun_succ_eq_next.2 ⟨s₂, h₂, coreRun_succ_eq_next.2 ⟨t, h₃, rfl⟩⟩⟩

/-- Settles O27: CODE_LOAD is issued, and INIT_WRITE and UPDATE_WRITE are the two parts that follow; each success admits
the next (R161). -/
theorem armTakesThreeStepsToArmed : Obligations.ArmTakesThreeStepsToArmed := by
  intro s c prn cp code cf cr hinj hh hc hk ha idle hload hinit hupdate ok
  obtain ⟨u₁, e₁, v₁, p₁⟩ := (Progress.start (c := c) hh).write hc (ok 0 (by decide)) (permitCodeLoad_iff.2 idle) hload
    .code (Config.codeTable prn.toNat).toList (·.codeLoaded (Config.codeTable prn.toNat)) Channel.codeLost
  replace p₁ := p₁.continueAt (.armInit c prn cp code cf cr)
  obtain ⟨u₂, e₂, v₂, p₂⟩ := p₁.write hc (ok 1 (by decide)) (permitInitWrite_iff_step.2 ⟨idle, .inl rfl⟩)
    (p₁.cfg ▸ hinit) .init (packInit prn cp code).toList (·.initWritten (packInit prn cp code)) Channel.initLost
  replace p₂ := p₂.continueAt (.armUpdate c cf cr)
  obtain ⟨u₃, e₃, v₃, p₃⟩ := p₂.write hc (ok 2 (by decide)) (permitUpdateWrite_iff.2 (.inl ⟨idle, rfl⟩)) hupdate
    .update (packUpdate cf cr).toList (·.updateWritten (packUpdate cf cr)) Channel.updateLost
  have first : step s = .next (u₁.continueAt (.armInit c prn cp code cf cr)) := by
    rw [step_issue hinj ha (Laws.NamedRoundTrip.arm c prn cp code cf cr) hk, exec_arm, exec_codeLoad, execCodeLoad, e₁,
      afterPart_of_ok v₁]
  have unarmed : (((s.chan c).codeLoaded (Config.codeTable prn.toNat)).initWritten (packInit prn cp code)).seq.state =
      .idle := idle
  refine ⟨u₃.finish (.ok .done), coreRun_three first (p₁.step_part hinj rfl e₂ v₂) (p₂.step_part hinj rfl e₃ v₃), ?_,
    rfl, rfl, p₃.agenda, ?_⟩
  · rw [finish_chan, p₃.chan, updateWritten_of_idle unarmed]
    rfl
  · simp [p₃.busLog]

/-- Settles O29: CORR_READ is issued, and PHASE_READ and UPDATE_WRITE are the two parts that follow; the reads leave the
channel as it is. -/
theorem serviceReturnsBothResults : Obligations.ServiceReturnsBothResults := by
  intro s c cf cr corr phase hinj hh hc hk ha tracking owed hcorr hphase hupdate ok
  obtain ⟨u₁, e₁, v₁, p₁⟩ := (Progress.start (c := c) hh).read hc (ok 0 (by decide)) (permitCorrRead_iff.2 tracking)
    hcorr .corr corrDummy.toList (fun b => .corr (unpackCorr b))
  replace p₁ := p₁.continueAt (.servicePhase c cf cr (unpackCorr corr))
  obtain ⟨u₂, e₂, v₂, p₂⟩ := p₁.read hc (ok 1 (by decide)) (permitPhaseRead_iff.2 tracking) hphase .phase
    phaseProbe.toList (fun b => .phase (unpackPhase b))
  replace p₂ := p₂.continueAt (.serviceUpdate c cf cr (unpackCorr corr) (unpackPhase phase))
  obtain ⟨u₃, e₃, v₃, p₃⟩ := p₂.write hc (ok 2 (by decide)) (permitUpdateWrite_iff.2 (.inr ⟨tracking, owed⟩)) hupdate
    .update (packUpdate cf cr).toList (·.updateWritten (packUpdate cf cr)) Channel.updateLost
  have first : step s = .next (u₁.continueAt (.servicePhase c cf cr (unpackCorr corr))) := by
    rw [step_issue hinj ha (Laws.NamedRoundTrip.service c cf cr) hk, exec_service, exec_corrRead, execCorrRead, e₁,
      afterPart_of_ok v₁]
    rfl
  have started : (s.chan c).seq.state ≠ .idle := by simp [tracking]
  refine ⟨u₃.finish (.ok (.service (unpackCorr corr) (unpackPhase phase))),
    coreRun_three first (p₁.step_part hinj rfl e₂ v₂) (p₂.step_part hinj rfl e₃ v₃), ?_, rfl, rfl, p₃.agenda, ?_⟩
  · rw [finish_chan, p₃.chan, updateWritten_of_started started]
  · simp [p₃.busLog]

/-! ### Sample words (R82, R85, R90, R96) -/

/-- Settles O11: the wire images and table words by evaluating the decoder, the names by their round trip. -/
theorem sampleWordsDecode : Obligations.SampleWordsDecode :=
  ⟨by decide, by decide, by decide, Laws.NamedRoundTrip.statusRead 3, Laws.NamedRoundTrip.strobeFall 3,
    Laws.NamedRoundTrip.service 3 (-2) 0x01000000, by decide, by decide⟩

end Sys2Proof.Machine
end
